-- ==== Sys2Proof/Word.lean ====
section
/-! DEFINITION. The machine's word types (10_state.md R14: registers are 32 bits; 20_memory.md R41: the image memory is bytes). -/

namespace Sys2Proof

/-- A register word: 32 bits (10_state.md R14). -/
abbrev Word := BitVec 32

/-- A byte of the image memory, of the block frame and of BUF (20_memory.md R41, 30_encoding.md R61). -/
abbrev Byte := BitVec 8

end Sys2Proof
end

