-- ==== Sys2Proof/Config.lean ====
section
/-! DEFINITION. What an implementation fixes (the named parameters of 00_scope.md R5, which State carries and no step changes) and the free values: constants with no body, about which nothing can be proved. -/

namespace Sys2Proof.Config

/-- `DIR_TYPE` (00_scope.md R5, 30_encoding.md R62). -/
def dirType : Byte := 0x00#8

/-- `DATA_TYPE` (00_scope.md R5); the engine does not test for it. -/
def dataType : Byte := 0x01#8

/-- `DIR_MIN_LEN` (00_scope.md R5). -/
def dirMinLen : Nat := 15

/-- `GETBITS_MAX` (00_scope.md R5). -/
def getbitsMax : Nat := 8

/-- `P_CHECKSUM` as plain data (log 5). `sum8` is the default of 43_framing.md R103; `other k` is any other
function: it stands for `otherChecksum k`, about which the model assumes nothing. -/
inductive ChecksumAlg where
  | sum8
  | other (k : Nat)
deriving DecidableEq, Repr

/-- The OPEN parameters of 00_scope.md R5 and 93_implementation_defined.md §3 that bear on one block (log 4). INSTANCES
is the length of `Machine.Platform.units`. -/
structure Params where
  /-- `P_SYNC0` -/
  sync0 : Byte
  /-- `P_SYNC1` -/
  sync1 : Byte
  /-- `P_TRAILER` -/
  trailer : Byte
  /-- `P_EOF_TYPE` -/
  eofType : Byte
  /-- `P_CHECKSUM` -/
  checksum : ChecksumAlg
  /-- `P_RIFF_PAD` -/
  riffPad : Bool
  /-- `IMG_CAPACITY`, at most 2^32 − 1 -/
  imgCapacity : Word
  /-- `REG_BASE`: where the register space starts in the host's address space (20_memory.md R49, log 20) -/
  regBase : Nat
  /-- `IMG_BASE`: where the image memory starts in the host's address space (20_memory.md R49, log 20) -/
  imgBase : Nat
deriving DecidableEq, Repr

/-- The defaults of 00_scope.md R5 and of the table at the end of 92_eei_decisions.md (log 4); the spec gives none for the
two bases, and the model sets the image just past the register space (log 20). -/
def Params.default : Params where
  sync0 := 0x55#8
  sync1 := 0x3C#8
  trailer := 0x55#8
  eofType := 0xFF#8
  checksum := .sum8
  riffPad := false
  imgCapacity := 0xFFFFFFFF#32
  regBase := 0
  imgBase := 0x200

/-- FREE VALUE: a checksum function other than the default, by number, of (type, length, payload)
(43_framing.md R103: "takes `P_CHECKSUM` as a total function of (t, L, p) and assumes nothing else of it"). -/
opaque otherChecksum : Nat → Byte → Byte → List Byte → Byte

/-- FREE VALUE: the image memory's contents after power-up, by instance and address (70_reset_and_hazards.md R126: "its
contents after power-up are unspecified"; 93_implementation_defined.md U9: any value). Log 6. -/
opaque powerUpByte : Nat → Nat → Byte

/-- FREE VALUE: what an instance's k-th read of an image byte that was written under an open handle gives
(70_reset_and_hazards.md R136: "unspecified"; U7: any value). Log 7. -/
opaque hazardByte : Nat → Nat → Byte

/-- FREE VALUE: what the k-th host read of an instance while it is busy gives (70_reset_and_hazards.md R134: "A model gives such reads a
free value (a draw)"; U5, U6). Log 8. -/
opaque busyRead : Nat → Nat → Word

end Sys2Proof.Config
end

