-- ==== Sys2Proof/Syntax.lean ====
section
/-! DEFINITION. The nine commands of the opcode map (30_encoding.md R57), one constructor per row of spec/opcode_table.json. -/

namespace Sys2Proof

/-- A command. Only GETBITS carries an operand, the count N = CMD[11:8] (30_encoding.md R56); SEEK's target is read
from ARG and ARGBIT when it executes. -/
inductive Instr where
  /-- NOP, OP 0x00 (40_lifecycle.md R67) -/
  | nop
  /-- OPEN, OP 0x01 (40_lifecycle.md R68) -/
  | openHandle
  /-- CLOSE, OP 0x02 (40_lifecycle.md R75) -/
  | close
  /-- GETBITS, OP 0x03, with its count N (41_cas_bitreader.md R80) -/
  | getbits (n : BitVec 4)
  /-- SEEK, OP 0x04 (40_lifecycle.md R76) -/
  | seek
  /-- READBYTE, OP 0x05 (43_framing.md R95) -/
  | readbyte
  /-- SEEKSYNC, OP 0x06 (43_framing.md R98) -/
  | seeksync
  /-- NEXTBLOCK, OP 0x07 (43_framing.md R107) -/
  | nextblock
  /-- NEXTDIR, OP 0x08 (43_framing.md R108) -/
  | nextdir
deriving DecidableEq, Repr

end Sys2Proof
end

