-- ==== Sys2Proof/WellFormed.lean ====
section
/-! DEFINITION. Which commands the encoding admits: GETBITS carries 1 ≤ N ≤ 8 (30_encoding.md R56, R58). -/

namespace Sys2Proof

/-- The count of a GETBITS is legal when 1 ≤ N ≤ 8 (30_encoding.md R56). -/
def countLegal (n : BitVec 4) : Bool :=
  decide (1 ≤ n.toNat) && decide (n.toNat ≤ Config.getbitsMax)

/-- Well-formed commands: every command but a GETBITS with an illegal count. -/
def Instr.wellFormed : Instr → Bool
  | .nop => true
  | .openHandle => true
  | .close => true
  | .getbits n => countLegal n
  | .seek => true
  | .readbyte => true
  | .seeksync => true
  | .nextblock => true
  | .nextdir => true

end Sys2Proof
end

