-- ==== Sys2Proof/Decode.lean ====
section
/-! DEFINITION. The decoder of the command word (30_encoding.md R55 to R58, 60_exceptions.md R116), total on any 32-bit word, and the encoder. -/

namespace Sys2Proof

/-- Why a word is illegal: the three cases of 30_encoding.md R58, named. -/
inductive IllegalWord where
  /-- OP is 0x09..0xFF (E_ILLEGAL 1) -/
  | reservedOpcode
  /-- a reserved bit is 1, or N ≠ 0 on a command other than GETBITS (E_ILLEGAL 2) -/
  | reservedBits
  /-- GETBITS with N = 0 or N > 8 (E_ILLEGAL 3) -/
  | badCount
deriving DecidableEq, Repr

/-- The E_ILLEGAL detail of each case (60_exceptions.md R113). -/
def IllegalWord.detail : IllegalWord → BitVec 4
  | .reservedOpcode => 1#4
  | .reservedBits => 2#4
  | .badCount => 3#4

/-- OP = CMD[7:0] (30_encoding.md R55). -/
def opField (w : Word) : BitVec 8 := w.extractLsb' 0 8

/-- N = CMD[11:8] (30_encoding.md R55, R56). -/
def nField (w : Word) : BitVec 4 := w.extractLsb' 8 4

/-- CMD[31:12], reserved, must be 0 (30_encoding.md R55). -/
def reservedField (w : Word) : BitVec 20 := w.extractLsb' 12 20

/-- The row that OP selects (30_encoding.md R57: "A decoder selects the row by `OP` alone"), its count being `n`. -/
def opcodeRow (op : BitVec 8) (n : BitVec 4) : Option Instr :=
  match op.toNat with
  | 0x00 => some .nop
  | 0x01 => some .openHandle
  | 0x02 => some .close
  | 0x03 => some (.getbits n)
  | 0x04 => some .seek
  | 0x05 => some .readbyte
  | 0x06 => some .seeksync
  | 0x07 => some .nextblock
  | 0x08 => some .nextdir
  | _ => none

/-- Decoding, in the order of the first three dispatch checks of 60_exceptions.md R116. -/
def decode (w : Word) : Except IllegalWord Instr :=
  match opcodeRow (opField w) (nField w) with
  | none => .error .reservedOpcode
  | some i =>
    if reservedField w ≠ 0#20 ∨ (opField w ≠ 0x03#8 ∧ nField w ≠ 0#4) then .error .reservedBits
    else if i.wellFormed then .ok i
    else .error .badCount

/-- OP of each command (30_encoding.md R57). -/
def opcodeOf : Instr → BitVec 8
  | .nop => 0x00#8
  | .openHandle => 0x01#8
  | .close => 0x02#8
  | .getbits _ => 0x03#8
  | .seek => 0x04#8
  | .readbyte => 0x05#8
  | .seeksync => 0x06#8
  | .nextblock => 0x07#8
  | .nextdir => 0x08#8

/-- N of each command: the count of GETBITS, 0 for every other (30_encoding.md R55). -/
def countOf : Instr → BitVec 4
  | .nop => 0#4
  | .openHandle => 0#4
  | .close => 0#4
  | .getbits n => n
  | .seek => 0#4
  | .readbyte => 0#4
  | .seeksync => 0#4
  | .nextblock => 0#4
  | .nextdir => 0#4

/-- The command word of a command: reserved bits 0, N in [11:8], OP in [7:0] (30_encoding.md R55). -/
def encode (i : Instr) : Word := 0#20 ++ countOf i ++ opcodeOf i

/-- What the decoder reads from the low `nbits` bits of `w`, every bit above them 0; the command word is one 32-bit
word, so bit k of `w` is bit k of CMD. -/
def decodeTableWord (nbits w : Nat) : Option Instr :=
  match decode (BitVec.ofNat 32 (w % 2 ^ nbits)) with
  | .ok i => some i
  | .error _ => none

end Sys2Proof
end

