-- ==== Sys2Proof/Machine/State.lean ====
section
/-! DEFINITION. The machine's state as plain data, the reasons a step can stop, and the state after reset (10_state.md R11 to R39, 70_reset_and_hazards.md R126). INVENTORY.md lists every field beside its rule. -/

namespace Sys2Proof.Machine

/-- STATUS.KIND (10_state.md R26): the active container; `none` while no handle is open. The fourth value is
"never". STATUS.OPEN is 1 exactly while the kind is not `none` (log 10). -/
inductive Kind where
  | none
  | cas
  | wav
deriving DecidableEq, Repr

/-- WAVSTATE.LEVEL, the comparator level (10_state.md R32). -/
inductive Level where
  | unknown
  | pos
  | neg
deriving DecidableEq, Repr

/-- The direction of a crossing, and the canonical direction WAVSTATE.DIR (42_wav_demod.md R84, R85). -/
inductive Edge where
  | rising
  | falling
deriving DecidableEq, Repr

/-- The status codes of 60_exceptions.md R112, every value STATUS.ERR can hold. -/
inductive Code where
  | ok
  | atEnd
  | eMode
  | eClassify
  | eHeader
  | eFraming
  | eChecksum
  | eEos
  | eTrailer
  | eDirfmt
  | eIllegal
deriving DecidableEq, Repr

/-- The six configuration registers, as the defaults (10_state.md R17 to R23) and as the snapshot `OPEN` takes of them
(R36). Reserved bits are not stored: they read 0 and writes to them are ignored (R15). -/
structure ConfigRegs where
  /-- CFG / ACTCFG: KIND [1:0], PARITY [3:2], BITORD [4], MODE [6:5] -/
  cfg : BitVec 7
  /-- THRESH / ACTTHRESH -/
  thresh : BitVec 16
  /-- FREQLIM / ACTFREQ -/
  freqLim : Word
  /-- START / ACTSTART -/
  start : Word
  /-- SCANMAX / ACTSCAN -/
  scanMax : Word
  /-- IMGLEN / ACTLEN -/
  imgLen : Word
deriving DecidableEq, Repr

/-- The WAV parameter registers (10_state.md R30). -/
structure WavParams where
  srate : Word
  bps : BitVec 16
  riffSize : Word
  dataOff : Word
  dataLen : Word
  nsamples : Word
deriving DecidableEq, Repr

/-- The demodulator's tracking state: WAVSTATE, CROSS0, CROSS1 and LASTCYCLE (10_state.md R31, R32). A crossing is
`some` while its valid bit is 1; `dir` is `some` while DIRRES is 1 (log 11). -/
structure Tracking where
  level : Level
  dir : Option Edge
  pend : Bool
  cross0 : Option Word
  cross1 : Option Word
  lastCycle : Word
deriving DecidableEq, Repr

/-- What reading stream bits moves: the stream cursor POS, POSBIT (10_state.md R13, R28), the tracking state, and the
model's own count of hazard bytes drawn (log 7). -/
structure Stream where
  pos : Word
  posBit : BitVec 3
  track : Tracking
  draws : Nat
deriving DecidableEq, Repr

/-- The held block: STATUS.BLKVALID, BLKINFO (10_state.md R33) and BUF (R34). -/
structure Held where
  valid : Bool
  blkType : Byte
  blkLen : Byte
  csumRx : Byte
  csumCalc : Byte
  buf : Vector Byte 256
deriving DecidableEq, Repr

/-- The directory registers and STATUS.DIRVALID (10_state.md R35). -/
structure DirEntry where
  valid : Bool
  name0 : Word
  name1 : Word
  ftype : Byte
  ascii : Byte
  gap : Byte
  load : BitVec 16
  exec : BitVec 16
deriving DecidableEq, Repr

/-- The handle: what `OPEN` initialises and `CLOSE` clears, the stream apart (10_state.md R11 parts 3 and 4). -/
structure Handle where
  kind : Kind
  eof : Bool
  result : Word
  sofPos : Word
  sofBit : BitVec 3
  wav : WavParams
  held : Held
  dir : DirEntry
  scanCount : Word
  act : ConfigRegs
deriving DecidableEq, Repr

/-- The image memory (20_memory.md R41). -/
structure Memory where
  /-- the model's own number of the instance whose memory this is: what the spec leaves unspecified is a free value of
  that instance (logs 6, 7, 8, 19) -/
  unit : Nat
  /-- the bytes the host has written, by address, addresses strictly rising; an unlisted address reads as a free value
  (log 6) -/
  cells : List Host.Cell
deriving DecidableEq, Repr

/-- One coming turn of the world around the block: a step of the host (70_reset_and_hazards.md R130), the platform's
reset (R127), or a turn given to the block (log 1). -/
inductive Event where
  /-- the host reads `width` bytes of the register space at `offset` -/
  | regRead (offset width : Nat)
  /-- the host writes `v` to `width` bytes of the register space at `offset` -/
  | regWrite (offset width : Nat) (v : Word)
  /-- the host reads one byte of the image memory (00_scope.md R2, log 27) -/
  | imgRead (addr : Nat)
  /-- the host writes one byte of the image memory -/
  | imgWrite (addr : Nat) (b : Byte)
  /-- the host reads `width` bytes at an address of its own address space (20_memory.md R49, log 20) -/
  | busRead (addr width : Nat)
  /-- the host writes `width` bytes at an address of its own address space -/
  | busWrite (addr width : Nat) (v : Word)
  /-- the pseudo-instruction WAIT (30_encoding.md R59) -/
  | wait
  /-- the platform asserts reset -/
  | reset
  /-- the block has the turn -/
  | blockTurn
deriving DecidableEq, Repr

/-- The state of one block, with the image memory and the coming turns of the agents. -/
structure State where
  params : Config.Params
  defaults : ConfigRegs
  arg : Word
  argBit : BitVec 3
  handle : Handle
  stream : Stream
  err : Code
  detail : BitVec 4
  errSticky : Word
  latch : Option Word
  mem : Memory
  hazard : List Nat
  hostDraws : Nat
  busData : Word
  agenda : List Event
deriving DecidableEq, Repr

/-- Why the machine stops with a fault. No command of the block faults: its errors are statuses (60_exceptions.md). -/
inductive Fault where
  /-- An image access of the host at an address at or above IMG_CAPACITY, which does not exist (20_memory.md R41, R46).
  Raised by `hostImageRead` and `hostImageWrite`. Safe: the model stops where a platform may do anything. -/
  | imageAddress
  /-- A host register access at an offset above 0x1FF, outside the register space (10_state.md R14). Raised by
  `hostRegRead` and `hostRegWrite`. Safe, as above. -/
  | registerOffset
deriving DecidableEq, Repr

/-- Why the model refuses. -/
inductive Refusal where
  /-- An instruction with no meaning yet, by its mnemonic. Raised by exec's refused arms only. Safe. -/
  | notModelled (mnemonic : String)
  /-- A host register access that is not an aligned 32-bit word (20_memory.md R45: "such an access is refused";
  93_implementation_defined.md U8). Raised by `hostRegRead` and `hostRegWrite`. Safe. -/
  | registerAccess
  /-- A host access through its address space to the image memory that is not one byte wide (20_memory.md R46). Raised
  by `busRead` and `busWrite`. Safe. -/
  | imageAccess
  /-- A host access to an address of its address space that lies in neither window of the block, or in both, if a
  platform lays them over each other (20_memory.md R49 leaves their places to the platform). Raised by `busRead` and
  `busWrite`. Safe. -/
  | busAddress
  /-- A turn of an instance that the platform does not have. Raised by `Platform.step` only. Safe. -/
  | noSuchInstance
deriving DecidableEq, Repr

/-- The default registers after reset: 0, but FREQLIM = 1800 (10_state.md R14, 70_reset_and_hazards.md R126). -/
def ConfigRegs.reset : ConfigRegs where
  cfg := 0#7
  thresh := 0#16
  freqLim := 1800#32
  start := 0#32
  scanMax := 0#32
  imgLen := 0#32

/-- All six registers 0: the snapshot of a closed handle (40_lifecycle.md R73). -/
def ConfigRegs.zero : ConfigRegs where
  cfg := 0#7
  thresh := 0#16
  freqLim := 0#32
  start := 0#32
  scanMax := 0#32
  imgLen := 0#32

/-- The WAV parameter registers of a CAS handle and while closed (10_state.md R30). -/
def WavParams.zero : WavParams where
  srate := 0#32
  bps := 0#16
  riffSize := 0#32
  dataOff := 0#32
  dataLen := 0#32
  nsamples := 0#32

/-- WAVSTATE, CROSS0, CROSS1 and LASTCYCLE all 0. -/
def Tracking.zero : Tracking where
  level := .unknown
  dir := none
  pend := false
  cross0 := none
  cross1 := none
  lastCycle := 0#32

/-- An empty held block: BLKVALID 0, BLKINFO 0, BUF all zero (43_framing.md R100). -/
def Held.empty : Held where
  valid := false
  blkType := 0#8
  blkLen := 0#8
  csumRx := 0#8
  csumCalc := 0#8
  buf := Vector.replicate 256 0#8

/-- Directory registers 0, DIRVALID 0 (10_state.md R35). -/
def DirEntry.empty : DirEntry where
  valid := false
  name0 := 0#32
  name1 := 0#32
  ftype := 0#8
  ascii := 0#8
  gap := 0#8
  load := 0#16
  exec := 0#16

/-- No handle: every handle and snapshot register 0 (40_lifecycle.md R73). -/
def Handle.closed : Handle where
  kind := .none
  eof := false
  result := 0#32
  sofPos := 0#32
  sofBit := 0#3
  wav := WavParams.zero
  held := Held.empty
  dir := DirEntry.empty
  scanCount := 0#32
  act := ConfigRegs.zero

/-- The stream of a closed handle: cursor 0, tracking 0; the model's draw counter goes on (log 7). -/
def Stream.closed (draws : Nat) : Stream where
  pos := 0#32
  posBit := 0#3
  track := Tracking.zero
  draws := draws

/-- The machine right after reset (70_reset_and_hazards.md R126, table of 10_state.md R14); the model's own fields and
the parameters by log 4 and log 18. -/
def State.reset : State where
  params := Config.Params.default
  defaults := ConfigRegs.reset
  arg := 0#32
  argBit := 0#3
  handle := Handle.closed
  stream := Stream.closed 0
  err := .ok
  detail := 0#4
  errSticky := 0#32
  latch := none
  mem := ⟨0, []⟩
  hazard := []
  hostDraws := 0
  busData := 0#32
  agenda := []

end Sys2Proof.Machine
end

