-- ==== Sys2Proof/Machine/Flags.lean ====
section
/-! DEFINITION. The status flags: numbers of the status codes (60_exceptions.md R112), the STATUS, WAVSTATE and BLKINFO words (10_state.md R26, R32, R33), and ERRSTICKY (R37). -/

namespace Sys2Proof.Machine

/-- The number of each status code (60_exceptions.md R112). -/
def Code.number : Code → Nat
  | .ok => 0x00
  | .atEnd => 0x01
  | .eMode => 0x02
  | .eClassify => 0x03
  | .eHeader => 0x04
  | .eFraming => 0x05
  | .eChecksum => 0x06
  | .eEos => 0x07
  | .eTrailer => 0x08
  | .eDirfmt => 0x09
  | .eIllegal => 0x0A

/-- STATUS.OPEN (10_state.md R26, log 10). -/
def State.isOpen (s : State) : Bool :=
  match s.handle.kind with
  | .none => false
  | .cas => true
  | .wav => true

/-- STATUS.BUSY (10_state.md R26, log 10). -/
def State.busy (s : State) : Bool := s.latch.isSome

/-- STATUS.KIND as its two bits (10_state.md R26). -/
def Kind.bits : Kind → BitVec 2
  | .none => 0#2
  | .cas => 1#2
  | .wav => 2#2

/-- WAVSTATE.LEVEL as its two bits (10_state.md R32). -/
def Level.bits : Level → BitVec 2
  | .unknown => 0#2
  | .pos => 1#2
  | .neg => 2#2

/-- The STATUS word (10_state.md R26). -/
def statusWord (s : State) : Word :=
  0#12 ++ s.detail ++ BitVec.ofNat 8 s.err.number ++ 0#1 ++ BitVec.ofBool s.handle.dir.valid
    ++ BitVec.ofBool s.handle.held.valid ++ s.handle.kind.bits ++ BitVec.ofBool s.handle.eof
    ++ BitVec.ofBool s.isOpen ++ BitVec.ofBool s.busy

/-- The WAVSTATE word (10_state.md R32). -/
def wavstateWord (t : Tracking) : Word :=
  0#25 ++ BitVec.ofBool t.cross1.isSome ++ BitVec.ofBool t.cross0.isSome ++ BitVec.ofBool t.pend
    ++ BitVec.ofBool (t.dir == some .falling) ++ BitVec.ofBool t.dir.isSome ++ t.level.bits

/-- The BLKINFO word: CSUM_CALC, CSUM_RX, LEN, TYPE (10_state.md R33). -/
def blkinfoWord (h : Held) : Word := h.csumCalc ++ h.csumRx ++ h.blkLen ++ h.blkType

/-- The ERRSTICKY bit that finishing with a code sets: bit k for the error codes k in 2..10, none for OK and END
(10_state.md R37, 60_exceptions.md R117). -/
def stickyMask (c : Code) : Word :=
  if 2 ≤ c.number then 1#32 <<< c.number else 0#32

/-- ERRSTICKY[31], WRDROP (10_state.md R37). -/
def wrdropMask : Word := 0x80000000#32

end Sys2Proof.Machine
end

