-- ==== Sys2Proof/Machine/Operands.lean ====
section
/-! DEFINITION. The operands of the commands: the fields of CFG (10_state.md R17), the count N (30_encoding.md R56), and the small bit and byte-order helpers. -/

namespace Sys2Proof.Machine

/-- CFG.KIND, bits [1:0] (10_state.md R17). -/
def cfgKind (c : BitVec 7) : BitVec 2 := c.extractLsb' 0 2

/-- CFG.PARITY, bits [3:2] (10_state.md R17). -/
def cfgParity (c : BitVec 7) : BitVec 2 := c.extractLsb' 2 2

/-- CFG.BITORD, bit [4] (10_state.md R17, R18): true is LSB-first. -/
def cfgBitord (c : BitVec 7) : Bool := c.getLsbD 4

/-- CFG.MODE, bits [6:5] (10_state.md R17). -/
def cfgMode (c : BitVec 7) : BitVec 2 := c.extractLsb' 5 2

/-- Bits packed with the first one most significant (41_cas_bitreader.md R80, 43_framing.md R94 with BITORD 0). -/
def packMsb (bits : List Bool) : Nat := bits.foldl (fun v b => 2 * v + b.toNat) 0

/-- Bits packed with the first one least significant (43_framing.md R94 with BITORD 1). -/
def packLsb : List Bool → Nat
  | [] => 0
  | b :: bits => b.toNat + 2 * packLsb bits

/-- The byte that `ReadByte` packs from 8 stream bits (43_framing.md R94). -/
def packByte (bitord : Bool) (bits : List Bool) : Byte :=
  BitVec.ofNat 8 (if bitord then packLsb bits else packMsb bits)

/-- The 8 bits of a byte in stream order (30_encoding.md R60): bit 7 first with BITORD 0, bit 0 first with BITORD 1. -/
def byteBits (bitord : Bool) (b : Byte) : List Bool :=
  if bitord then (List.range 8).map b.getLsbD else (List.range 8).map fun i => b.getLsbD (7 - i)

/-- `LE` of 00_scope.md R7: the unsigned little-endian integer of a list of bytes. -/
def littleEndian : List Byte → Nat
  | [] => 0
  | b :: bs => b.toNat + 256 * littleEndian bs

/-- A register word from four bytes, the lowest-numbered in bits [7:0] (20_memory.md R44, 10_state.md R34, R35). -/
def packWord (b0 b1 b2 b3 : Byte) : Word := b3 ++ b2 ++ b1 ++ b0

/-- A 16-bit directory address, high byte first (20_memory.md R44, 30_encoding.md R63). -/
def bigEndian16 (hi lo : Byte) : BitVec 16 := hi ++ lo

end Sys2Proof.Machine
end

