-- ==== Sys2Proof/Machine/Ops.lean ====
section
/-! DEFINITION. The named operations over memory and registers, and TAKING AN ERROR (`fail`, 60_exceptions.md R115, R117), the one way a command of this block ends abnormally. There is no return from one (R119). -/

namespace Sys2Proof.Machine

/-! ## The image memory (20_memory.md R41) -/

/-- The canonical form: addresses strictly rising, so equal contents are equal lists. An unlisted address holds no
written byte, so no entry can equal what it holds (log 6). -/
abbrev Memory.wf (m : Memory) : Prop := m.cells.Pairwise fun c d => c.1 < d.1

/-- The byte last written at an address, if one was. -/
def findCell : List Host.Cell → Nat → Option Byte
  | [], _ => none
  | (x, b) :: l, a => if x = a then some b else findCell l a

/-- Write one byte, keeping the list sorted. -/
def insertCell : List Host.Cell → Nat → Byte → List Host.Cell
  | [], a, v => [(a, v)]
  | (x, b) :: l, a, v =>
    if a < x then (a, v) :: (x, b) :: l
    else if a = x then (a, v) :: l
    else (x, b) :: insertCell l a v

/-- The byte at an address: what the host last wrote, or the instance's power-up contents (log 6). -/
def Memory.read (m : Memory) (a : Nat) : Byte := (findCell m.cells a).getD (Config.powerUpByte m.unit a)

/-- The memory with one byte written. -/
def Memory.write (m : Memory) (a : Nat) (v : Byte) : Memory := { m with cells := insertCell m.cells a v }

/-- `MemRead(a, n)` of 00_scope.md R7: n bytes from address a. -/
def Memory.readBytes (m : Memory) (a n : Nat) : List Byte :=
  (List.range n).map fun i => m.read (a + i)

/-- `LE(a, n)` of 00_scope.md R7. -/
def Memory.readLE (m : Memory) (a n : Nat) : Nat := littleEndian (m.readBytes a n)

/-- Insert an address into a strictly rising list of addresses. -/
def insertAddr : List Nat → Nat → List Nat
  | [], a => [a]
  | x :: l, a => if a < x then a :: x :: l else if a = x then x :: l else x :: insertAddr l a

/-- A command's read of one image byte: a byte written under an open handle is a fresh free value at each read
(70_reset_and_hazards.md R136, log 7), any other byte is the memory's. Answers the byte and the draw count after. -/
def readImage (s : State) (draws : Nat) (a : Nat) : Byte × Nat :=
  if a ∈ s.hazard then (Config.hazardByte s.mem.unit draws, draws + 1) else (s.mem.read a, draws)

/-! ## Ending a command -/

/-- `finish(CODE)` (00_scope.md R7, 60_exceptions.md R117): ERR ← CODE, DETAIL ← 0, no sticky bit, then BUSY ← 0 with
an empty latch (70_reset_and_hazards.md R132). -/
def finish (c : Code) (s : State) : State :=
  { s with err := c, detail := 0#4, latch := none }

/-- TAKING AN ERROR: `fail(CODE, d)` (00_scope.md R7, 60_exceptions.md R117): ERR ← CODE, DETAIL ← d,
ERRSTICKY[CODE] ← 1, then BUSY ← 0 with an empty latch. No other state is saved and nothing is rolled back (R115). -/
def fail (c : Code) (d : BitVec 4) (s : State) : State :=
  { s with err := c, detail := d, errSticky := s.errSticky ||| stickyMask c, latch := none }

/-- The fourth dispatch check of 60_exceptions.md R116: a command that needs a handle fails with E_MODE 1 while
STATUS.OPEN = 0, and nothing else changes. -/
def withHandle (s : State) (run : State → State) : State :=
  if s.isOpen then run s else fail .eMode 1#4 s

/-! ## Named register updates -/

/-- RESULT ← v (10_state.md R27). -/
def setResult (v : Word) (s : State) : State :=
  { s with handle := { s.handle with result := v } }

/-- STATUS.EOF ← b (10_state.md R26). -/
def setEof (b : Bool) (s : State) : State :=
  { s with handle := { s.handle with eof := b } }

/-- The stream as a read left it. -/
def setStream (t : Stream) (s : State) : State :=
  { s with stream := t }

/-- The directory registers and DIRVALID. -/
def setDir (d : DirEntry) (s : State) : State :=
  { s with handle := { s.handle with dir := d } }

/-- SOFPOS, SOFBIT ← (p, b) (10_state.md R29). -/
def setSof (p : Word) (b : BitVec 3) (s : State) : State :=
  { s with handle := { s.handle with sofPos := p, sofBit := b } }

/-- SCANCOUNT ← v (10_state.md R38). -/
def setScanCount (v : Word) (s : State) : State :=
  { s with handle := { s.handle with scanCount := v } }

/-- The held block: BLKVALID, BLKINFO and BUF. -/
def setHeld (h : Held) (s : State) : State :=
  { s with handle := { s.handle with held := h } }

/-- `CloseHandle()` (40_lifecycle.md R73): every handle and snapshot register 0, BUF zeros; default registers, ARG,
ARGBIT, ERRSTICKY, ERR and DETAIL unchanged. -/
def closeHandle (s : State) : State :=
  { s with handle := Handle.closed, stream := Stream.closed s.stream.draws }

/-- `ClearTracking()` (42_wav_demod.md R86): DIRRES and DIR are kept. -/
def clearTracking (t : Tracking) : Tracking :=
  { Tracking.zero with dir := t.dir }

end Sys2Proof.Machine
end

