-- ==== Sys2Proof/Machine/BitSource.lean ====
section
/-! DEFINITION. The unified bit source: the CAS bit source (41_cas_bitreader.md R78) and the WAV demodulator (42_wav_demod.md R82 to R91), and `NextBit` (R79). Every function takes the machine's state for what it only reads (snapshot, WAV parameters, image) and the stream, which it moves. -/

namespace Sys2Proof.Machine

/-- What `NextBit()` gives: a bit, or `EndOfStream(midbit)` (00_scope.md R7), each with the stream after. -/
inductive BitRead where
  | bit (b : Bool) (t : Stream)
  | ended (mid : Bool) (t : Stream)
deriving DecidableEq, Repr

/-! ## CAS -/

/-- `CasNextBit()` (41_cas_bitreader.md R78). -/
def casNextBit (s : State) (t : Stream) : BitRead :=
  if s.handle.act.imgLen ≤ t.pos then .ended false t
  else
    let (byte, draws) := readImage s t.draws t.pos.toNat
    let i := if cfgBitord s.handle.act.cfg then t.posBit.toNat else 7 - t.posBit.toNat
    let b := byte.getLsbD i
    if t.posBit = 7#3 then .bit b { t with posBit := 0#3, pos := t.pos + 1#32, draws := draws }
    else .bit b { t with posBit := t.posBit + 1#3, draws := draws }

/-! ## WAV: samples, comparator, crossings, cycles, bits -/

/-- The sample multiplier m (42_wav_demod.md R82): 1 for 8-bit, 2 otherwise. -/
def sampleStride (w : WavParams) : Nat := if w.bps = 8#16 then 1 else 2

/-- `Sample(i)` (42_wav_demod.md R82): the signed value, and the draw count after. -/
def sample (s : State) (draws : Nat) (i : Nat) : Int × Nat :=
  let a := s.handle.wav.dataOff.toNat + i * sampleStride s.handle.wav
  let (b0, draws) := readImage s draws a
  if s.handle.wav.bps = 8#16 then ((b0.toNat : Int) - 128, draws)
  else
    let (b1, draws) := readImage s draws (a + 1)
    ((b1 ++ b0).toInt, draws)

/-- The level `Compare(s)` sets (42_wav_demod.md R83): POS above T, NEG below −T, else unchanged. -/
def compareLevel (thresh : Nat) (old : Level) (v : Int) : Level :=
  if (thresh : Int) < v then .pos else if v < -(thresh : Int) then .neg else old

/-- The crossing `Compare(s)` reports (42_wav_demod.md R83). -/
def crossingOf : Level → Level → Option Edge
  | .neg, .pos => some .rising
  | .pos, .neg => some .falling
  | _, _ => none

/-- How many samples are left before the cursor reaches NSAMPLES: the bound of the loops below (R92, log 15). -/
def samplesLeft (s : State) (t : Stream) : Nat := s.handle.wav.nsamples.toNat - t.pos.toNat

/-- One iteration of the loop of R87 that found a sample: the stream after `Compare`, and the crossing. -/
def takeSample (s : State) (t : Stream) : Option Edge × Stream :=
  let (v, draws) := sample s t.draws t.pos.toNat
  let new := compareLevel s.handle.act.thresh.toNat t.track.level v
  (crossingOf t.track.level new,
    { t with pos := t.pos + 1#32, draws := draws, track := { t.track with level := new } })

/-- What `NextCanonicalCrossing()` gives: the sample index of the crossing, or the end of the stream. -/
inductive Crossing where
  | found (n : Word) (t : Stream)
  | ended (mid : Bool) (t : Stream)
deriving DecidableEq, Repr

/-- `NextCanonicalCrossing()` (42_wav_demod.md R87), one sample per unit of fuel. -/
def nextCanonicalCrossing (s : State) : Nat → Stream → Crossing
  | 0, t => .ended t.track.pend t
  | fuel + 1, t =>
    if s.handle.wav.nsamples ≤ t.pos then .ended t.track.pend t
    else
      match takeSample s t with
      | (none, t') => nextCanonicalCrossing s fuel t'
      | (some e, t') =>
        let dir := t'.track.dir.getD e
        let t'' := { t' with track := { t'.track with dir := some dir } }
        if e = dir then .found t.pos t'' else nextCanonicalCrossing s fuel t''

/-- What `MeasureCycle()` gives: the length of the cycle in samples, or the end of the stream. -/
inductive Cycle where
  | measured (len : Int) (t : Stream)
  | ended (mid : Bool) (t : Stream)
deriving DecidableEq, Repr

/-- The crossing pair shifts: CROSS0, C0V ← CROSS1, C1V and CROSS1, C1V ← n, 1 (42_wav_demod.md R88). -/
def shiftCrossings (n : Word) (t : Stream) : Stream :=
  { t with track := { t.track with cross0 := t.track.cross1, cross1 := some n } }

/-- `MeasureCycle()` (42_wav_demod.md R88), one crossing per unit of fuel. -/
def measureCycle (s : State) : Nat → Stream → Cycle
  | 0, t => .ended t.track.pend t
  | fuel + 1, t =>
    match nextCanonicalCrossing s (samplesLeft s t) t with
    | .ended mid t' => .ended mid t'
    | .found n t' =>
      let t'' := shiftCrossings n t'
      match t''.track.cross0 with
      | none => measureCycle s fuel t''
      | some c =>
        let len := (n.toNat : Int) - c.toNat
        .measured len { t'' with track := { t''.track with lastCycle := BitVec.ofInt 32 len } }

/-- `IsShort(L)` (42_wav_demod.md R89), in unbounded integers. -/
def isShort (s : State) (len : Int) : Bool :=
  decide (len * s.handle.act.freqLim.toNat < s.handle.wav.srate.toNat)

/-- WAVSTATE.PEND ← b. -/
def setPend (b : Bool) (t : Stream) : Stream :=
  { t with track := { t.track with pend := b } }

/-- `WavNextBit()` (42_wav_demod.md R90), one cycle per unit of fuel. -/
def wavBitLoop (s : State) : Nat → Stream → BitRead
  | 0, t => .ended t.track.pend t
  | fuel + 1, t =>
    match measureCycle s (samplesLeft s t) t with
    | .ended mid t' => .ended mid t'
    | .measured len t' =>
      if isShort s len then
        if t'.track.pend then .bit true (setPend false t')
        else wavBitLoop s fuel (setPend true t')
      else .bit false (setPend false t')

/-- `WavNextBit()` (42_wav_demod.md R90, R91). -/
def wavNextBit (s : State) (t : Stream) : BitRead := wavBitLoop s (samplesLeft s t) t

/-! ## The unified source -/

/-- `NextBit()` (41_cas_bitreader.md R79). "It is never called with STATUS.KIND = 0": no command reaches the first arm
(log 16). -/
def nextBit (s : State) (t : Stream) : BitRead :=
  match s.handle.kind with
  | .none => .ended false t
  | .cas => casNextBit s t
  | .wav => wavNextBit s t

/-- An upper bound on the bits the stream still yields (70_reset_and_hazards.md R138): the fuel of the scanning loops. -/
def bitsLeft (s : State) (t : Stream) : Nat :=
  match s.handle.kind with
  | .none => 0
  | .cas => 8 * (s.handle.act.imgLen.toNat - t.pos.toNat) - t.posBit.toNat
  | .wav => samplesLeft s t

/-- What reading several bits gives: all of them in order, or the end of the stream (the bits taken are lost). -/
inductive BitsRead where
  | bits (bs : List Bool) (t : Stream)
  | ended (mid : Bool) (t : Stream)
deriving DecidableEq, Repr

/-- The next `n` stream bits (the loops of 41_cas_bitreader.md R80 and 43_framing.md R94). -/
def takeBits (s : State) : Nat → Stream → BitsRead
  | 0, t => .bits [] t
  | n + 1, t =>
    match nextBit s t with
    | .ended mid t' => .ended mid t'
    | .bit b t' =>
      match takeBits s n t' with
      | .ended mid t'' => .ended mid t''
      | .bits bs t'' => .bits (b :: bs) t''

/-- E_EOS detail of a GETBITS or READBYTE that met the end (41_cas_bitreader.md R80): 2 inside a bit, else 1. -/
def eosDetail (mid : Bool) : BitVec 4 := if mid then 2#4 else 1#4

end Sys2Proof.Machine
end

