-- ==== Sys2Proof/Machine/CasBitReader.lean ====
section
/-! DEFINITION. GETBITS (41_cas_bitreader.md R80). -/

namespace Sys2Proof.Machine

/-- GETBITS n past the dispatch checks (41_cas_bitreader.md R80): the bits right-aligned, first bit most significant
whatever BITORD is; at the end of the stream RESULT = 0 and the bits taken are lost. -/
def getBits (n : Nat) (s : State) : State :=
  match takeBits s n s.stream with
  | .ended mid t => fail .eEos (eosDetail mid) (setStream t (setResult 0#32 s))
  | .bits bs t => finish .ok (setResult (BitVec.ofNat 32 (packMsb bs)) (setStream t s))

/-- GETBITS n (41_cas_bitreader.md R80). An illegal count fails E_ILLEGAL 3 before the handle check (60_exceptions.md
R116); the decoder gives none. -/
def execGetbits (n : BitVec 4) (s : State) : Host.Outcome State Fault Refusal :=
  .next (if countLegal n then withHandle s (getBits n.toNat) else fail .eIllegal 3#4 s)

end Sys2Proof.Machine
end

