-- ==== Sys2Proof/Machine/Engine.lean ====
section
/-! DEFINITION. The block synchronisation and framing engine (43_framing.md): `ReadByte`, `SeekSync`, `BlockAttempt`, `Checksum`, `DecodeDir`, and the loop of NEXTDIR. -/

namespace Sys2Proof.Machine

/-- What `ReadByte()` gives. -/
inductive ByteRead where
  | byte (b : Byte) (t : Stream)
  | ended (mid : Bool) (t : Stream)
deriving DecidableEq, Repr

/-- `ReadByte()` (43_framing.md R94). -/
def readByte (s : State) (t : Stream) : ByteRead :=
  match takeBits s 8 t with
  | .ended mid t' => .ended mid t'
  | .bits bs t' => .byte (packByte (cfgBitord s.handle.act.cfg) bs) t'

/-- `SyncPattern` (43_framing.md R96): the 16 bits that `ReadByte()` would pack into P_SYNC0 then P_SYNC1. -/
def syncPattern (s : State) : List Bool :=
  byteBits (cfgBitord s.handle.act.cfg) s.params.sync0 ++ byteBits (cfgBitord s.handle.act.cfg) s.params.sync1

/-- The answers of `SeekSync()` (43_framing.md R97). -/
inductive SyncEnd where
  | found
  | atEnd
  | bound
deriving DecidableEq, Repr

/-- `SeekSync()`'s answer, SCANCOUNT before truncation, and the stream after. -/
structure SyncResult where
  answer : SyncEnd
  count : Nat
  stream : Stream
deriving DecidableEq, Repr

/-- The last 16 bits of a window with one more bit (43_framing.md R97). -/
def slideWindow (window : List Bool) (b : Bool) : List Bool :=
  (window ++ [b]).drop (window.length + 1 - 16)

/-- The loop of `SeekSync()` (43_framing.md R97), one bit per unit of fuel. `window` is the sync window of
10_state.md R39, which "exists only during one command" (log 12). -/
def seekSyncLoop (s : State) : Nat → List Bool → Nat → Stream → SyncResult
  | 0, _, count, t => ⟨.atEnd, count, t⟩
  | fuel + 1, window, count, t =>
    if s.handle.act.scanMax ≠ 0#32 ∧ count = s.handle.act.scanMax.toNat then ⟨.bound, count, t⟩
    else
      match nextBit s t with
      | .ended _ t' => ⟨.atEnd, count, t'⟩
      | .bit b t' =>
        let window' := slideWindow window b
        if window'.length = 16 ∧ window' = syncPattern s then ⟨.found, count + 1, t'⟩
        else seekSyncLoop s fuel window' (count + 1) t'

/-- `SeekSync()` (43_framing.md R97): the window and the count start empty. -/
def seekSync (s : State) (t : Stream) : SyncResult :=
  seekSyncLoop s (bitsLeft s t + 1) [] 0 t

/-- `Checksum(t, L, p)` (43_framing.md R103): P_CHECKSUM, by default the sum modulo 256. -/
def checksum (p : Config.Params) (typ len : Byte) (payload : List Byte) : Byte :=
  match p.checksum with
  | .sum8 => BitVec.ofNat 8 (typ.toNat + len.toNat + (payload.map BitVec.toNat).sum)
  | .other k => Config.otherChecksum k typ len payload

/-- How a block attempt ends: a valid block, the end of the stream before a sync, or `fail(CODE, d)`. -/
inductive AttemptEnd where
  | valid
  | atEnd
  | failed (c : Code) (d : BitVec 4)
deriving DecidableEq, Repr

/-- A block attempt: how it ended, the held block, SCANCOUNT and the stream it leaves. -/
structure Attempt where
  outcome : AttemptEnd
  held : Held
  scanCount : Word
  stream : Stream
deriving DecidableEq, Repr

/-- Reading the payload (43_framing.md R102): BUF[i] … BUF[i + left − 1] in stream order. Answers whether the stream
lasted, the buffer so far and the stream. -/
def readPayload (s : State) : (left i : Nat) → Vector Byte 256 → Stream → Bool × Vector Byte 256 × Stream
  | 0, _, buf, t => (true, buf, t)
  | left + 1, i, buf, t =>
    match readByte s t with
    | .ended _ t' => (false, buf, t')
    | .byte b t' => readPayload s left (i + 1) (buf.setIfInBounds i b) t'

/-- Confirm-Trailer (43_framing.md R99, R105), on a held block whose checksum agrees. -/
def confirmTrailer (s : State) (h : Held) (scan : Word) (t : Stream) : Attempt :=
  match readByte s t with
  | .ended _ t' => ⟨.failed .eEos 3#4, h, scan, t'⟩
  | .byte b t' =>
    if b = s.params.trailer then ⟨.valid, { h with valid := true }, scan, t'⟩
    else ⟨.failed .eTrailer 0#4, h, scan, t'⟩

/-- Verify (43_framing.md R99, R104), on a held block whose checksum byte has been read. -/
def verifyBlock (s : State) (h : Held) (scan : Word) (t : Stream) : Attempt :=
  let h := { h with csumCalc := checksum s.params h.blkType h.blkLen (h.buf.toList.take h.blkLen.toNat) }
  if h.csumRx = h.csumCalc then confirmTrailer s h scan t
  else ⟨.failed .eChecksum 0#4, h, scan, t⟩

/-- Read-Header, Read-Payload and the checksum byte (43_framing.md R99, R101, R102), from just past the sync. -/
def readFrame (s : State) (scan : Word) (t : Stream) : Attempt :=
  let h := Held.empty
  match readByte s t with
  | .ended _ t1 => ⟨.failed .eEos 3#4, h, scan, t1⟩
  | .byte typ t1 =>
    let h := { h with blkType := typ }
    match readByte s t1 with
    | .ended _ t2 => ⟨.failed .eEos 3#4, h, scan, t2⟩
    | .byte len t2 =>
      let h := { h with blkLen := len }
      match readPayload s len.toNat 0 h.buf t2 with
      | (false, buf, t3) => ⟨.failed .eEos 3#4, { h with buf := buf }, scan, t3⟩
      | (true, buf, t3) =>
        let h := { h with buf := buf }
        match readByte s t3 with
        | .ended _ t4 => ⟨.failed .eEos 3#4, h, scan, t4⟩
        | .byte rx t4 => verifyBlock s { h with csumRx := rx } scan t4

/-- `BlockAttempt()` (43_framing.md R99): the held block starts empty (R100). -/
def blockAttempt (s : State) (t : Stream) : Attempt :=
  let r := seekSync s t
  let scan := BitVec.ofNat 32 r.count
  match r.answer with
  | .atEnd => ⟨.atEnd, Held.empty, scan, r.stream⟩
  | .bound => ⟨.failed .eFraming 1#4, Held.empty, scan, r.stream⟩
  | .found => readFrame s scan r.stream

/-- What an attempt leaves in the registers: the held block, SCANCOUNT and the stream. -/
def applyAttempt (a : Attempt) (s : State) : State :=
  setStream a.stream (setScanCount a.scanCount (setHeld a.held s))

/-- `DecodeDir()` (43_framing.md R109), with DIRVALID ← 1 (R108). -/
def decodeDir (buf : Vector Byte 256) : DirEntry where
  valid := true
  name0 := packWord buf[0] buf[1] buf[2] buf[3]
  name1 := packWord buf[4] buf[5] buf[6] buf[7]
  ftype := buf[8]
  ascii := buf[9]
  gap := buf[10]
  load := bigEndian16 buf[11] buf[12]
  exec := bigEndian16 buf[13] buf[14]

/-- The loop of NEXTDIR (43_framing.md R108), one block attempt per unit of fuel: the attempt that ends it, and the
cursor at the start of that attempt. Blocks of another type are skipped, final blocks included. -/
def nextDirLoop (s : State) : Nat → Stream → Attempt × Stream
  | 0, t => (blockAttempt s t, t)
  | fuel + 1, t =>
    let a := blockAttempt s t
    match a.outcome with
    | .atEnd => (a, t)
    | .failed _ _ => (a, t)
    | .valid => if a.held.blkType = Config.dirType then (a, t) else nextDirLoop s fuel a.stream

end Sys2Proof.Machine
end

