-- ==== Sys2Proof/Machine/Framing.lean ====
section
/-! DEFINITION. The framing commands READBYTE, SEEKSYNC, NEXTBLOCK and NEXTDIR (43_framing.md). -/

namespace Sys2Proof.Machine

/-- READBYTE past the dispatch checks (43_framing.md R95). -/
def readByteCommand (s : State) : State :=
  match readByte s s.stream with
  | .ended mid t => fail .eEos (eosDetail mid) (setStream t (setResult 0#32 s))
  | .byte b t => finish .ok (setResult (b.setWidth 32) (setStream t s))

/-- READBYTE (43_framing.md R95). -/
def execReadbyte (s : State) : Host.Outcome State Fault Refusal := .next (withHandle s readByteCommand)

/-- SEEKSYNC past the dispatch checks (43_framing.md R98). -/
def seekSyncCommand (s : State) : State :=
  let r := seekSync s s.stream
  let scan := BitVec.ofNat 32 r.count
  let s := setResult scan (setScanCount scan (setStream r.stream s))
  match r.answer with
  | .found => finish .ok s
  | .atEnd => finish .atEnd (setEof true s)
  | .bound => fail .eFraming 1#4 s

/-- SEEKSYNC (43_framing.md R98). -/
def execSeeksync (s : State) : Host.Outcome State Fault Refusal := .next (withHandle s seekSyncCommand)

/-- NEXTBLOCK past the dispatch checks (43_framing.md R107); a final block sets EOF (R106). -/
def nextBlockCommand (s : State) : State :=
  let a := blockAttempt s s.stream
  let s := applyAttempt a (setResult 0#32 s)
  match a.outcome with
  | .failed c d => fail c d s
  | .atEnd => finish .atEnd (setEof true s)
  | .valid =>
    finish .ok (setResult (0#16 ++ a.held.blkLen ++ a.held.blkType)
      (setEof (a.held.blkType = s.params.eofType) s))

/-- NEXTBLOCK (43_framing.md R107). -/
def execNextblock (s : State) : Host.Outcome State Fault Refusal := .next (withHandle s nextBlockCommand)

/-- NEXTDIR past the dispatch checks (43_framing.md R108). -/
def nextDirCommand (s : State) : State :=
  let (a, cand) := nextDirLoop s (bitsLeft s s.stream) s.stream
  let s := applyAttempt a (setDir DirEntry.empty (setResult 0#32 s))
  match a.outcome with
  | .failed c d => fail c d s
  | .atEnd => finish .atEnd (setEof true s)
  | .valid =>
    if a.held.blkLen.toNat < Config.dirMinLen then fail .eDirfmt 0#4 s
    else
      finish .ok (setResult (a.held.buf[8].setWidth 32) (setEof false (setSof cand.pos cand.posBit
        (setDir (decodeDir a.held.buf) s))))

/-- NEXTDIR (43_framing.md R108). -/
def execNextdir (s : State) : Host.Outcome State Fault Refusal := .next (withHandle s nextDirCommand)

end Sys2Proof.Machine
end

