-- ==== Sys2Proof/Machine/Riff.lean ====
section
/-! DEFINITION. `RiffParse()` (40_lifecycle.md R71, 30_encoding.md R64): the RIFF/WAVE header walk, as a function of the image, ACTLEN and P_RIFF_PAD to the WAV parameter registers or an E_HEADER detail. -/

namespace Sys2Proof.Machine

/-- ASCII "RIFF" (30_encoding.md R64). -/
def riffMagic : List Byte := [0x52#8, 0x49#8, 0x46#8, 0x46#8]

/-- ASCII "WAVE" (30_encoding.md R64). -/
def waveMagic : List Byte := [0x57#8, 0x41#8, 0x56#8, 0x45#8]

/-- ASCII "fmt " (30_encoding.md R64). -/
def fmtId : List Byte := [0x66#8, 0x6D#8, 0x74#8, 0x20#8]

/-- ASCII "data" (30_encoding.md R64). -/
def dataId : List Byte := [0x64#8, 0x61#8, 0x74#8, 0x61#8]

/-- What the walk has found so far: (SRATE, BPS) of the first `fmt ` chunk, (DATAOFF, DATALEN) of the first `data`
chunk. -/
structure Chunks where
  fmt : Option (Nat × Nat)
  data : Option (Nat × Nat)
deriving DecidableEq, Repr

/-- Where the next chunk header stands (40_lifecycle.md R71): past the 8-byte header, the S payload bytes, and a pad
byte if P_RIFF_PAD and S is odd. -/
def nextChunk (pad : Bool) (p size : Nat) : Nat :=
  p + 8 + size + (if pad && size % 2 == 1 then 1 else 0)

/-- The `while` of 40_lifecycle.md R71, one chunk per unit of fuel; `none` is `fail(E_HEADER, 4)`. -/
def walkChunks (m : Memory) (pad : Bool) (len : Nat) : Nat → Nat → Chunks → Option Chunks
  | 0, _, c => some c
  | fuel + 1, p, c =>
    if len < p + 8 ∨ (c.fmt.isSome ∧ c.data.isSome) then some c
    else
      let id := m.readBytes p 4
      let size := m.readLE (p + 4) 4
      if id = fmtId ∧ c.fmt = none then
        if size < 16 ∨ len < p + 24 then none
        else walkChunks m pad len fuel (nextChunk pad p size)
          { c with fmt := some (m.readLE (p + 12) 4, m.readLE (p + 22) 2) }
      else if id = dataId ∧ c.data = none then
        walkChunks m pad len fuel (nextChunk pad p size) { c with data := some (p + 8, size) }
      else walkChunks m pad len fuel (nextChunk pad p size) c

/-- The WAV parameters from the two chunks, with the checks after the walk (40_lifecycle.md R71). -/
def wavParams (riffSize len : Nat) (c : Chunks) : Except (BitVec 4) WavParams :=
  match c.fmt, c.data with
  | none, _ => .error 2#4
  | some _, none => .error 3#4
  | some (srate, bps), some (off, size) =>
    if bps ≠ 8 ∧ bps ≠ 16 then .error 5#4
    else if srate = 0 then .error 6#4
    else .ok {
      srate := BitVec.ofNat 32 srate
      bps := BitVec.ofNat 16 bps
      riffSize := BitVec.ofNat 32 riffSize
      dataOff := BitVec.ofNat 32 off
      dataLen := BitVec.ofNat 32 size
      nsamples := BitVec.ofNat 32 (min size (len - off) / (if bps = 8 then 1 else 2)) }

/-- `RiffParse()` (40_lifecycle.md R71): the WAV parameters, or the detail of E_HEADER. -/
def riffParse (m : Memory) (pad : Bool) (len : Nat) : Except (BitVec 4) WavParams :=
  if len < 12 ∨ m.readBytes 0 4 ≠ riffMagic ∨ m.readBytes 8 4 ≠ waveMagic then .error 1#4
  else
    match walkChunks m pad len len 12 ⟨none, none⟩ with
    | none => .error 4#4
    | some c => wavParams (m.readLE 4 4) len c

end Sys2Proof.Machine
end

