-- ==== Sys2Proof/Machine/Lifecycle.lean ====
section
/-! DEFINITION. The handle lifecycle commands NOP, OPEN, CLOSE and SEEK (40_lifecycle.md). -/

namespace Sys2Proof.Machine

/-- NOP (40_lifecycle.md R67). It needs no open handle. -/
def execNop (s : State) : Host.Outcome State Fault Refusal := .next (finish .ok s)

/-- `Snapshot()` (40_lifecycle.md R69). -/
def snapshot (s : State) : State :=
  { s with handle := { s.handle with act := s.defaults } }

/-- The checks of OPEN before `Snapshot()`, in the order KIND, PARITY, IMGLEN, MODE (40_lifecycle.md R68,
60_exceptions.md R118). -/
def openCheck (s : State) : Option (Code × BitVec 4) :=
  if cfgKind s.defaults.cfg = 3#2 then some (.eIllegal, 4#4)
  else if cfgParity s.defaults.cfg = 3#2 then some (.eIllegal, 5#4)
  else if s.params.imgCapacity < s.defaults.imgLen then some (.eIllegal, 6#4)
  else if cfgMode s.defaults.cfg = 1#2 then some (.eMode, 2#4)
  else none

/-- Classification (40_lifecycle.md R70): CFG.KIND forces a kind, AUTO sniffs the RIFF magic; `none` is E_CLASSIFY. -/
def classify (s : State) : Option Kind :=
  if cfgKind s.handle.act.cfg = 1#2 then some .cas
  else if cfgKind s.handle.act.cfg = 2#2 then some .wav
  else if 4 ≤ s.handle.act.imgLen.toNat ∧ s.mem.readBytes 0 4 = riffMagic then some .wav
  else none

/-- The canonical direction that PARITY resolves at OPEN (40_lifecycle.md R72, 42_wav_demod.md R85): ODD is FALLING,
EVEN is RISING, AUTO is unresolved. -/
def parityDir (parity : BitVec 2) : Option Edge :=
  if parity = 1#2 then some .falling
  else if parity = 2#2 then some .rising
  else none

/-- `InitHandle(kind, parity)` (40_lifecycle.md R72). -/
def initHandle (k : Kind) (s : State) : State :=
  let s := { s with
    handle := { s.handle with
      kind := k, eof := false
      held := { s.handle.held with valid := false }
      dir := { s.handle.dir with valid := false }
      sofPos := s.handle.act.start, sofBit := 0#3 }
    stream := { s.stream with pos := s.handle.act.start, posBit := 0#3 } }
  match k with
  | .none => s
  | .cas => s
  | .wav => setStream { s.stream with
      track := { clearTracking s.stream.track with dir := parityDir (cfgParity s.handle.act.cfg) } } s

/-- The start of OPEN (40_lifecycle.md R68): an open handle is closed, RESULT ← 0, and the image bytes written under
the last handle are readable again (70_reset_and_hazards.md R136 "until the next `OPEN`", log 7). -/
def beginOpen (s : State) : State :=
  let s := if s.isOpen then closeHandle s else s
  setResult 0#32 { s with hazard := [] }

/-- A container of kind CAS or WAV, snapshot taken: RiffParse for WAV, then InitHandle (40_lifecycle.md R68). -/
def openKind (k : Kind) (s : State) : State :=
  match k with
  | .none => fail .eClassify 0#4 (closeHandle s)
  | .cas => finish .ok (setResult 1#32 (initHandle .cas s))
  | .wav =>
    match riffParse s.mem s.params.riffPad s.handle.act.imgLen.toNat with
    | .error d => fail .eHeader d (closeHandle s)
    | .ok w => finish .ok (setResult 2#32 (initHandle .wav { s with handle := { s.handle with wav := w } }))

/-- OPEN after its start: the checks, the snapshot, the classification (40_lifecycle.md R68, R74). -/
def openImage (s : State) : State :=
  match openCheck s with
  | some (c, d) => fail c d s
  | none => openKind ((classify (snapshot s)).getD .none) (snapshot s)

/-- OPEN (40_lifecycle.md R68). It needs no open handle. -/
def execOpen (s : State) : Host.Outcome State Fault Refusal := .next (openImage (beginOpen s))

/-- CLOSE (40_lifecycle.md R75). -/
def execClose (s : State) : Host.Outcome State Fault Refusal :=
  .next (withHandle s fun s => finish .ok (setResult 0#32 (closeHandle s)))

/-- The stream after SEEK (40_lifecycle.md R76): POS ← ARG; for CAS POSBIT ← ARGBIT, for WAV POSBIT ← 0 and the
tracking is cleared, its direction kept. -/
def seekStream (s : State) : Stream :=
  match s.handle.kind with
  | .cas => { s.stream with pos := s.arg, posBit := s.argBit }
  | .none => { s.stream with pos := s.arg, posBit := 0#3, track := clearTracking s.stream.track }
  | .wav => { s.stream with pos := s.arg, posBit := 0#3, track := clearTracking s.stream.track }

/-- SEEK (40_lifecycle.md R76). -/
def execSeek (s : State) : Host.Outcome State Fault Refusal :=
  .next (withHandle s fun s => finish .ok (setResult 0#32 (setEof false (setStream (seekStream s) s))))

end Sys2Proof.Machine
end

