-- ==== Sys2Proof/Machine/Dispatch.lean ====
section
/-! DEFINITION. One arm per command: exec, which the block's step runs on the decoded command word. -/

namespace Sys2Proof.Machine

def exec (i : Instr) (s : State) : Host.Outcome State Fault Refusal :=
  match i with
  | .nop => Sys2Proof.Machine.execNop s
  | .openHandle => Sys2Proof.Machine.execOpen s
  | .close => Sys2Proof.Machine.execClose s
  | .getbits n => Sys2Proof.Machine.execGetbits n s
  | .seek => Sys2Proof.Machine.execSeek s
  | .readbyte => Sys2Proof.Machine.execReadbyte s
  | .seeksync => Sys2Proof.Machine.execSeeksync s
  | .nextblock => Sys2Proof.Machine.execNextblock s
  | .nextdir => Sys2Proof.Machine.execNextdir s

end Sys2Proof.Machine
end

