-- ==== Sys2Proof/Machine/Registers.lean ====
section
/-! DEFINITION. The register map (10_state.md R14): which register stands at an offset, what a read of it returns when the block is idle and when it is busy, and what a write of it does. -/

namespace Sys2Proof.Machine

/-- The registers of the map (10_state.md R14); `reserved` is any reserved offset, `buf k` the word at 0x100 + 4k. -/
inductive Reg where
  | id | cfg | thresh | freqlim | start | scanmax | imglen | cmd | status | result
  | pos | posbit | sofpos | sofbit | srate | bps | riffsize | dataoff | datalen | nsamples
  | cross0 | cross1 | blkinfo | dirname0 | dirname1 | dirinfo | diraddr | wavstate | lastcycle
  | actcfg | actthresh | actfreq | actstart | actscan | errsticky | arg | argbit | scancount | actlen
  | reserved
  | buf (k : Fin 64)
deriving DecidableEq, Repr

/-- The register at an offset of the register space (10_state.md R14). -/
def regAt (offset : Nat) : Reg :=
  match offset with
  | 0x000 => .id
  | 0x004 => .cfg
  | 0x008 => .thresh
  | 0x00C => .freqlim
  | 0x010 => .start
  | 0x014 => .scanmax
  | 0x018 => .imglen
  | 0x01C => .cmd
  | 0x020 => .status
  | 0x024 => .result
  | 0x028 => .pos
  | 0x02C => .posbit
  | 0x030 => .sofpos
  | 0x034 => .sofbit
  | 0x038 => .srate
  | 0x03C => .bps
  | 0x040 => .riffsize
  | 0x044 => .dataoff
  | 0x048 => .datalen
  | 0x04C => .nsamples
  | 0x050 => .cross0
  | 0x054 => .cross1
  | 0x058 => .blkinfo
  | 0x05C => .dirname0
  | 0x060 => .dirname1
  | 0x064 => .dirinfo
  | 0x068 => .diraddr
  | 0x06C => .wavstate
  | 0x070 => .lastcycle
  | 0x074 => .actcfg
  | 0x078 => .actthresh
  | 0x07C => .actfreq
  | 0x080 => .actstart
  | 0x084 => .actscan
  | 0x088 => .errsticky
  | 0x08C => .arg
  | 0x090 => .argbit
  | 0x094 => .scancount
  | 0x098 => .actlen
  | n => if h : 0x100 ≤ n ∧ n < 0x200 then .buf ⟨(n - 0x100) / 4, by omega⟩ else .reserved

/-- The offset of a register (10_state.md R14); `reserved` stands for the first reserved offset. -/
def Reg.offset : Reg → Nat
  | .id => 0x000
  | .cfg => 0x004
  | .thresh => 0x008
  | .freqlim => 0x00C
  | .start => 0x010
  | .scanmax => 0x014
  | .imglen => 0x018
  | .cmd => 0x01C
  | .status => 0x020
  | .result => 0x024
  | .pos => 0x028
  | .posbit => 0x02C
  | .sofpos => 0x030
  | .sofbit => 0x034
  | .srate => 0x038
  | .bps => 0x03C
  | .riffsize => 0x040
  | .dataoff => 0x044
  | .datalen => 0x048
  | .nsamples => 0x04C
  | .cross0 => 0x050
  | .cross1 => 0x054
  | .blkinfo => 0x058
  | .dirname0 => 0x05C
  | .dirname1 => 0x060
  | .dirinfo => 0x064
  | .diraddr => 0x068
  | .wavstate => 0x06C
  | .lastcycle => 0x070
  | .actcfg => 0x074
  | .actthresh => 0x078
  | .actfreq => 0x07C
  | .actstart => 0x080
  | .actscan => 0x084
  | .errsticky => 0x088
  | .arg => 0x08C
  | .argbit => 0x090
  | .scancount => 0x094
  | .actlen => 0x098
  | .reserved => 0x09C
  | .buf k => 0x100 + 4 * k.val

/-- ID (10_state.md R16): a constant. -/
def idValue : Word := 0x54415045#32

/-- BUF as a word (10_state.md R34): payload bytes 4k .. 4k+3, byte 4k in bits [7:0]. -/
def bufWord (buf : Vector Byte 256) (k : Fin 64) : Word :=
  have := k.isLt
  packWord buf[4 * k.val] buf[4 * k.val + 1] buf[4 * k.val + 2] buf[4 * k.val + 3]

/-- What a read of a register returns while the block is idle (10_state.md R14 to R38): reserved bits read 0, CMD and
reserved offsets read 0 (R15). -/
def regValue (r : Reg) (s : State) : Word :=
  match r with
  | .id => idValue
  | .cfg => s.defaults.cfg.setWidth 32
  | .thresh => s.defaults.thresh.setWidth 32
  | .freqlim => s.defaults.freqLim
  | .start => s.defaults.start
  | .scanmax => s.defaults.scanMax
  | .imglen => s.defaults.imgLen
  | .cmd => 0#32
  | .status => statusWord s
  | .result => s.handle.result
  | .pos => s.stream.pos
  | .posbit => s.stream.posBit.setWidth 32
  | .sofpos => s.handle.sofPos
  | .sofbit => s.handle.sofBit.setWidth 32
  | .srate => s.handle.wav.srate
  | .bps => s.handle.wav.bps.setWidth 32
  | .riffsize => s.handle.wav.riffSize
  | .dataoff => s.handle.wav.dataOff
  | .datalen => s.handle.wav.dataLen
  | .nsamples => s.handle.wav.nsamples
  | .cross0 => s.stream.track.cross0.getD 0#32
  | .cross1 => s.stream.track.cross1.getD 0#32
  | .blkinfo => blkinfoWord s.handle.held
  | .dirname0 => s.handle.dir.name0
  | .dirname1 => s.handle.dir.name1
  | .dirinfo => 0#8 ++ s.handle.dir.gap ++ s.handle.dir.ascii ++ s.handle.dir.ftype
  | .diraddr => s.handle.dir.exec ++ s.handle.dir.load
  | .wavstate => wavstateWord s.stream.track
  | .lastcycle => s.stream.track.lastCycle
  | .actcfg => s.handle.act.cfg.setWidth 32
  | .actthresh => s.handle.act.thresh.setWidth 32
  | .actfreq => s.handle.act.freqLim
  | .actstart => s.handle.act.start
  | .actscan => s.handle.act.scanMax
  | .errsticky => s.errSticky
  | .arg => s.arg
  | .argbit => s.argBit.setWidth 32
  | .scancount => s.handle.scanCount
  | .actlen => s.handle.act.imgLen
  | .reserved => 0#32
  | .buf k => bufWord s.handle.held.buf k

/-- What a read returns while the block is busy (70_reset_and_hazards.md R134): ID is defined, STATUS has bit 0 at 1
and the other bits free, any other register is free (log 8); a reserved offset is no register and reads 0 (log 9). -/
def busyValue (r : Reg) (s : State) : Word :=
  match r with
  | .id => idValue
  | .reserved => 0#32
  | .status => Config.busyRead s.mem.unit s.hostDraws ||| 1#32
  | _ => Config.busyRead s.mem.unit s.hostDraws

/-- A host read of a register: the value goes to the host; no side effect on the block (10_state.md R15). -/
def readReg (r : Reg) (s : State) : State :=
  if s.busy then { s with busData := busyValue r s, hostDraws := s.hostDraws + 1 }
  else { s with busData := regValue r s }

/-- Is the register RW, or CMD? Every other is RO or reserved (10_state.md R14). -/
def Reg.writable : Reg → Bool
  | .cfg | .thresh | .freqlim | .start | .scanmax | .imglen | .cmd | .arg | .argbit => true
  | _ => false

/-- A write while idle: an RW register stores the value truncated to its width (00_scope.md R6, 10_state.md R15), CMD
latches the word and so sets BUSY (10_state.md R25, 70_reset_and_hazards.md R131), any other register is unchanged. -/
def storeReg (r : Reg) (v : Word) (s : State) : State :=
  match r with
  | .cfg => { s with defaults := { s.defaults with cfg := v.setWidth 7 } }
  | .thresh => { s with defaults := { s.defaults with thresh := v.setWidth 16 } }
  | .freqlim => { s with defaults := { s.defaults with freqLim := v } }
  | .start => { s with defaults := { s.defaults with start := v } }
  | .scanmax => { s with defaults := { s.defaults with scanMax := v } }
  | .imglen => { s with defaults := { s.defaults with imgLen := v } }
  | .arg => { s with arg := v }
  | .argbit => { s with argBit := v.setWidth 3 }
  | .cmd => { s with latch := some v }
  | _ => s

/-- A host write of a register: dropped, with ERRSTICKY[31] ← 1, if the block is busy and the register is RW or CMD
(70_reset_and_hazards.md R133); ignored for an RO or reserved register (10_state.md R15). -/
def writeReg (r : Reg) (v : Word) (s : State) : State :=
  if s.busy && r.writable then { s with errSticky := s.errSticky ||| wrdropMask }
  else storeReg r v s

end Sys2Proof.Machine
end

