-- ==== Sys2Proof/Machine/Agents.lean ====
section
/-! DEFINITION. The turns of the agents: the host's accesses, the platform's reset, and the block's step (70_reset_and_hazards.md R127, R130 to R134, R136; 30_encoding.md R59). -/

namespace Sys2Proof.Machine

/-- A host access to the register space: only aligned 32-bit words, inside the 512 bytes (20_memory.md R45,
10_state.md R14; log 17). -/
def hostRegAccess (offset width : Nat) (act : Reg → State → State) (s : State) : Host.Outcome State Fault Refusal :=
  if width ≠ 4 ∨ offset % 4 ≠ 0 then .refused .registerAccess
  else if 0x200 ≤ offset then .fault .registerOffset
  else .next (act (regAt offset) s)

/-- A host register read (70_reset_and_hazards.md R130). -/
def hostRegRead (offset width : Nat) (s : State) : Host.Outcome State Fault Refusal :=
  hostRegAccess offset width readReg s

/-- A host register write (70_reset_and_hazards.md R130). -/
def hostRegWrite (offset width : Nat) (v : Word) (s : State) : Host.Outcome State Fault Refusal :=
  hostRegAccess offset width (fun r s => writeReg r v s) s

/-- A host image byte read (00_scope.md R2, log 27): the byte goes to the host; no side effect, whether the block is busy
or not (20_memory.md R48). -/
def hostImageRead (a : Nat) (s : State) : Host.Outcome State Fault Refusal :=
  if s.params.imgCapacity.toNat ≤ a then .fault .imageAddress
  else .next { s with busData := (s.mem.read a).setWidth 32 }

/-- A host image byte write (20_memory.md R46). Below ACTLEN with a handle open it is a hazard: from now on the byte
reads as a free value, until the next OPEN (70_reset_and_hazards.md R136, log 7). -/
def hostImageWrite (a : Nat) (b : Byte) (s : State) : Host.Outcome State Fault Refusal :=
  if s.params.imgCapacity.toNat ≤ a then .fault .imageAddress
  else .next { s with
    mem := s.mem.write a b
    hazard := if s.isOpen && decide (a < s.handle.act.imgLen.toNat) then insertAddr s.hazard a else s.hazard }

/-- What an address of the host's address space names (20_memory.md R49): an offset of the register space (10_state.md
R14) or an address of the image memory (20_memory.md R41). -/
inductive BusTarget where
  | register (offset : Nat)
  | image (addr : Nat)
deriving DecidableEq, Repr

/-- The window an address lies in, if it lies in exactly one: REG_BASE .. REG_BASE + 511, or IMG_BASE ..
IMG_BASE + IMG_CAPACITY − 1 (20_memory.md R41, R42, R49). -/
def busTarget (p : Config.Params) (addr : Nat) : Option BusTarget :=
  let inRegisters := decide (p.regBase ≤ addr ∧ addr < p.regBase + 0x200)
  let inImage := decide (p.imgBase ≤ addr ∧ addr < p.imgBase + p.imgCapacity.toNat)
  match inRegisters, inImage with
  | true, false => some (.register (addr - p.regBase))
  | false, true => some (.image (addr - p.imgBase))
  | _, _ => none

/-- A host access through its address space: to the register space as `reg` says, to the image memory as `img` says if it
is one byte wide (20_memory.md R46, R49). -/
def busAccess (addr width : Nat) (reg img : Nat → State → Host.Outcome State Fault Refusal) (s : State) :
    Host.Outcome State Fault Refusal :=
  match busTarget s.params addr with
  | some (.register offset) => reg offset s
  | some (.image a) => if width = 1 then img a s else .refused .imageAccess
  | none => .refused .busAddress

/-- A host read through its address space. -/
def busRead (addr width : Nat) (s : State) : Host.Outcome State Fault Refusal :=
  busAccess addr width (fun offset s => hostRegRead offset width s) hostImageRead s

/-- A host write through its address space. -/
def busWrite (addr width : Nat) (v : Word) (s : State) : Host.Outcome State Fault Refusal :=
  busAccess addr width (fun offset s => hostRegWrite offset width v s) (fun a s => hostImageWrite a (v.setWidth 8) s) s

/-- Reset (70_reset_and_hazards.md R126, R127): every register at its reset value, a running command abandoned without
effect; the image memory, the parameters and the model's own fields of the world outside stay. -/
def platformReset (s : State) : State :=
  { State.reset with
    params := s.params, stream := Stream.closed s.stream.draws, mem := s.mem, hostDraws := s.hostDraws
    busData := s.busData, agenda := s.agenda }

/-- The block executes a command word: 60_exceptions.md R116, then the command's rule (70_reset_and_hazards.md R132).
An illegal word finishes with E_ILLEGAL and its detail and changes nothing else (30_encoding.md R58). -/
def runWord (w : Word) (s : State) : Host.Outcome State Fault Refusal :=
  match decode w with
  | .error r => .next (fail .eIllegal r.detail s)
  | .ok i => exec i s

/-- The block's turn: it executes the latched word if there is one, and is idle otherwise (70_reset_and_hazards.md
R130, R132; 60_exceptions.md R125; log 2). -/
def blockTurn (s : State) : Host.Outcome State Fault Refusal :=
  match s.latch with
  | none => .next s
  | some w => runWord w s

/-- WAIT (30_encoding.md R59): read STATUS until BUSY reads 0. While busy, one read of STATUS, after which the block
has its turn and the wait goes on (log 21). -/
def hostWait (s : State) : State :=
  if s.busy then
    let s := readReg .status s
    { s with agenda := .blockTurn :: .wait :: s.agenda }
  else readReg .status s

/-- One turn of the world. -/
def turn (e : Event) (s : State) : Host.Outcome State Fault Refusal :=
  match e with
  | .regRead offset width => hostRegRead offset width s
  | .regWrite offset width v => hostRegWrite offset width v s
  | .imgRead a => hostImageRead a s
  | .imgWrite a b => hostImageWrite a b s
  | .busRead addr width => busRead addr width s
  | .busWrite addr width v => busWrite addr width v s
  | .wait => .next (hostWait s)
  | .reset => .next (platformReset s)
  | .blockTurn => blockTurn s

/-- The next turn: the first of the agenda, or the block's when the agenda is empty (log 1). -/
def nextTurn (s : State) : Host.Outcome State Fault Refusal :=
  match s.agenda with
  | [] => blockTurn s
  | e :: rest => turn e { s with agenda := rest }

/-- The command word of `nbits` given bits, every bit above them 0. -/
def fetchWord (nbits w : Nat) : Word := BitVec.ofNat 32 (w % 2 ^ nbits)

/-! ## Host assembly syntax (30_encoding.md R59) -/

/-- `WR reg, v` -/
def asmWr (r : Reg) (v : Word) : List Event := [.regWrite r.offset 4 v]

/-- `RD reg` -/
def asmRd (r : Reg) : List Event := [.regRead r.offset 4]

/-- `CMD m [n]` -/
def asmCmd (i : Instr) : List Event := asmWr .cmd (encode i)

/-- `WAIT` -/
def asmWait : List Event := [.wait]

/-- `DO m [n]` -/
def asmDo (i : Instr) : List Event := asmCmd i ++ asmWait

/-- `LOADIMG a, bytes` -/
def asmLoadimg (a : Nat) : List Byte → List Event
  | [] => []
  | b :: bs => .imgWrite a b :: asmLoadimg (a + 1) bs

end Sys2Proof.Machine
end

