-- ==== Sys2Proof/Machine/Step.lean ====
section
/-! DEFINITION. One step of the machine, and where a command word is fetched from: the command latch. -/

namespace Sys2Proof.Machine

/-- One step: the next turn of the agents (70_reset_and_hazards.md R130, R132). -/
def step (s : State) : Host.Outcome State Fault Refusal := nextTurn s

/-- `s` with a command word in the command latch and the block to move: what a host's CMD write leaves
(70_reset_and_hazards.md R131, log 3), so that the very next step executes exactly that word. -/
def State.withFetchWord (s : State) (nbits w : Nat) : State :=
  { s with latch := some (fetchWord nbits w), agenda := [] }

end Sys2Proof.Machine
end

