-- ==== Sys2Proof/Machine/Platform.lean ====
section
/-! DEFINITION. INSTANCES blocks side by side (00_scope.md R5, 20_memory.md R52, 60_exceptions.md R123): each has its own registers, image and host accesses; a step of the platform is a step of one of them (log 19). -/

namespace Sys2Proof.Machine

/-- The block instances of a platform. -/
structure Platform where
  units : List State
deriving DecidableEq, Repr

/-- INSTANCES blocks right after reset, each with its parameters and with free values of its own (logs 6, 7, 8, 19). -/
def Platform.reset (ps : List Config.Params) : Platform :=
  ⟨ps.zipIdx.map fun c => { State.reset with params := c.1, mem := ⟨c.2, []⟩ }⟩

/-- Instance k takes a step; no other changes. -/
def Platform.step (p : Platform) (k : Nat) : Host.Outcome Platform Fault Refusal :=
  match p.units[k]? with
  | none => .refused .noSuchInstance
  | some s =>
    match Sys2Proof.Machine.step s with
    | .next s' => .next ⟨p.units.set k s'⟩
    | .fault r => .fault r
    | .refused r => .refused r

end Sys2Proof.Machine
end

