-- ==== Sys2Proof/Safety.lean ====
section
/-! DEFINITION. What counts as a state in good order: the invariants the rules keep (10_state.md R40, with R34, R35, R37, R41; 60_exceptions.md R113; 40_lifecycle.md R71; 42_wav_demod.md R85, R88), as one predicate that every step keeps. Below it, the terms of the claims about a CAS image, about the samples of a WAV image and about its chunks. -/

namespace Sys2Proof.Machine

/-- The image memory is canonical and holds no byte at or above IMG_CAPACITY (20_memory.md R41). -/
structure ImageInv (s : State) : Prop where
  sorted : s.mem.wf
  below : ∀ c ∈ s.mem.cells, c.1 < s.params.imgCapacity.toNat
  hazardSorted : s.hazard.Pairwise fun a b => a < b
  /-- hazards are image addresses below ACTLEN while a handle is open (70_reset_and_hazards.md R136) -/
  hazardBelow : s.isOpen = true → ∀ a ∈ s.hazard, a < s.handle.act.imgLen.toNat

/-- No handle: every handle and snapshot register reads 0 (10_state.md R40). -/
def ClosedInv (s : State) : Prop :=
  s.isOpen = false → s.handle = Handle.closed ∧ s.stream = Stream.closed s.stream.draws

/-- The WAV registers of a CAS handle read 0 (10_state.md R30, R40). -/
def CasInv (s : State) : Prop :=
  s.handle.kind = .cas → s.handle.wav = WavParams.zero ∧ s.stream.track = Tracking.zero

/-- The header values of a WAV handle, as RiffParse leaves them (40_lifecycle.md R71), with every sample below ACTLEN
(42_wav_demod.md R82). -/
structure WavHeaderInv (s : State) : Prop where
  depth : s.handle.wav.bps = 8#16 ∨ s.handle.wav.bps = 16#16
  rate : s.handle.wav.srate ≠ 0#32
  samplesInImage : s.handle.wav.dataOff.toNat + s.handle.wav.nsamples.toNat * sampleStride s.handle.wav
    ≤ s.handle.act.imgLen.toNat

/-- The crossing pair (10_state.md R31, R32, R40; 42_wav_demod.md R88): C0V implies C1V, CROSS0 < CROSS1, both
crossings lie before the cursor, and LASTCYCLE is their distance, or 0 when no cycle has been measured. -/
structure TrackInv (t : Stream) : Prop where
  ordered : ∀ a, t.track.cross0 = some a → ∃ b, t.track.cross1 = some b ∧ a < b
  behind : ∀ b, t.track.cross1 = some b → b < t.pos
  lastCycle : t.track.lastCycle =
    match t.track.cross0, t.track.cross1 with
    | some a, some b => b - a
    | _, _ => 0#32

/-- A WAV handle: its header, its bit offsets (10_state.md R40), its tracking, and the direction PARITY fixes
(42_wav_demod.md R85). -/
structure WavInv (s : State) : Prop where
  header : WavHeaderInv s
  posBit : s.stream.posBit = 0#3
  sofBit : s.handle.sofBit = 0#3
  track : TrackInv s.stream
  odd : cfgParity s.handle.act.cfg = 1#2 → s.stream.track.dir = some .falling
  even : cfgParity s.handle.act.cfg = 2#2 → s.stream.track.dir = some .rising

/-- The snapshot of an open handle passed OPEN's checks (40_lifecycle.md R68). -/
structure SnapshotInv (s : State) : Prop where
  kind : cfgKind s.handle.act.cfg ≠ 3#2
  parity : cfgParity s.handle.act.cfg ≠ 3#2
  mode : cfgMode s.handle.act.cfg ≠ 1#2
  imgLen : s.handle.act.imgLen ≤ s.params.imgCapacity

/-- The held block and the directory registers (10_state.md R34, R35, R40). -/
structure BlockInv (h : Handle) : Prop where
  /-- BLKVALID implies CSUM_RX = CSUM_CALC -/
  checked : h.held.valid = true → h.held.csumRx = h.held.csumCalc
  /-- payload byte i for i ≥ LEN reads 0 -/
  padded : ∀ i, (hi : i < 256) → h.held.blkLen.toNat ≤ i → h.held.buf[i] = 0#8
  /-- the directory registers read 0 while DIRVALID = 0 -/
  noEntry : h.dir.valid = false → h.dir = DirEntry.empty

/-- The details of each status code (60_exceptions.md R113): 0 for every code and case not listed there. -/
def legalDetail : Code → BitVec 4 → Bool
  | .ok, d => d = 0#4
  | .atEnd, d => d = 0#4
  | .eMode, d => 1#4 ≤ d && d ≤ 2#4
  | .eClassify, d => d = 0#4
  | .eHeader, d => 1#4 ≤ d && d ≤ 6#4
  | .eFraming, d => d = 1#4
  | .eChecksum, d => d = 0#4
  | .eEos, d => 1#4 ≤ d && d ≤ 3#4
  | .eTrailer, d => d = 0#4
  | .eDirfmt, d => d = 0#4
  | .eIllegal, d => 1#4 ≤ d && d ≤ 6#4

/-- ERR with its DETAIL, and ERRSTICKY's bits 0, 1 and 11..30 at 0 (10_state.md R37, 60_exceptions.md R113). -/
structure StatusInv (s : State) : Prop where
  detail : legalDetail s.err s.detail = true
  sticky : s.errSticky &&& 0x7FFFF803#32 = 0#32

/-- The invariant that every step keeps. -/
structure Inv (s : State) : Prop where
  image : ImageInv s
  closed : ClosedInv s
  cas : CasInv s
  wav : s.handle.kind = .wav → WavInv s
  snapshot : s.isOpen = true → SnapshotInv s
  block : BlockInv s.handle
  status : StatusInv s

end Sys2Proof.Machine

/-! ## The terms of the claims about a CAS image: its bit sequence, read straight from the memory -/

namespace Sys2Proof.Claims

open Sys2Proof.Machine

/-- Bit k of the bit sequence of 30_encoding.md R60 for a handle's bit order. -/
def imageBit (s : State) (k : Nat) : Bool :=
  (s.mem.read (k / 8)).getLsbD (if cfgBitord s.handle.act.cfg then k % 8 else 7 - k % 8)

/-- The CAS cursor as an index into that sequence (41_cas_bitreader.md R81). -/
def casIndex (t : Stream) : Nat := 8 * t.pos.toNat + t.posBit.toNat

/-- How many bits of the sequence lie below ACTLEN. -/
def casEnd (s : State) : Nat := 8 * s.handle.act.imgLen.toNat

/-- The stream with its CAS cursor n bits further on, all else unchanged. -/
def advance (t : Stream) (n : Nat) : Stream :=
  { t with pos := BitVec.ofNat 32 ((casIndex t + n) / 8), posBit := BitVec.ofNat 3 ((casIndex t + n) % 8) }

/-- None of the n bits from index c lies in a byte that was written under this handle (70_reset_and_hazards.md R136). -/
def CleanBits (s : State) (c n : Nat) : Prop := ∀ k, c ≤ k → k < c + n → k / 8 ∉ s.hazard

/-- The stream byte whose first bit has index c: bit j of it is the bit `ReadByte` packs there (43_framing.md R94). -/
def streamByte (s : State) (c : Nat) : Byte :=
  BitVec.ofNat 8 ((List.range 8).map fun j =>
    (imageBit s (c + j)).toNat * 2 ^ (if cfgBitord s.handle.act.cfg then j else 7 - j)).sum

/-- Bit j of the sync pattern in stream order (43_framing.md R96). -/
def syncBit (s : State) (j : Nat) : Bool :=
  (if j < 8 then s.params.sync0 else s.params.sync1).getLsbD (if cfgBitord s.handle.act.cfg then j % 8 else 7 - j % 8)

/-- k bits from index c on end in the sync pattern. -/
def MarkerAt (s : State) (c k : Nat) : Prop :=
  16 ≤ k ∧ ∀ j, j < 16 → imageBit s (c + k - 16 + j) = syncBit s j

/-- The first marker of a scan from index c ends k bits on. -/
def FirstMarker (s : State) (c k : Nat) : Prop := MarkerAt s c k ∧ ∀ j, j < k → ¬ MarkerAt s c j

/-- The bits a CAS scan can still take. -/
def casLeft (s : State) : Nat := casEnd s - casIndex s.stream

/-- k bits are within the scan bound ACTSCAN (43_framing.md R97): 0 is no bound. -/
def WithinBound (s : State) (k : Nat) : Prop := s.handle.act.scanMax = 0#32 ∨ k ≤ s.handle.act.scanMax.toNat

/-! ## The terms of the claims about a WAV image: its samples -/

/-- Sample i, from the bytes of the image (42_wav_demod.md R82, 30_encoding.md R65): u − 128 of the byte at DATAOFF + i, or
the two's complement value of the little-endian pair at DATAOFF + 2i. -/
def sampleAt (s : State) (i : Nat) : Int :=
  let base := s.handle.wav.dataOff.toNat
  if s.handle.wav.bps = 8#16 then ((s.mem.read (base + i)).toNat : Int) - 128
  else
    let u := (s.mem.read (base + 2 * i)).toNat + 256 * (s.mem.read (base + 2 * i + 1)).toNat
    if u < 32768 then (u : Int) else (u : Int) - 65536

/-- Sample i lies beyond the dead band on the side a crossing of direction e ends on (42_wav_demod.md R83). -/
def Beyond (s : State) (e : Edge) (i : Nat) : Prop :=
  match e with
  | .rising => (s.handle.act.thresh.toNat : Int) < sampleAt s i
  | .falling => sampleAt s i < -(s.handle.act.thresh.toNat : Int)

/-- The other direction. -/
def flipEdge : Edge → Edge
  | .rising => .falling
  | .falling => .rising

/-- The level after a crossing. -/
def levelAfter : Edge → Level
  | .rising => .pos
  | .falling => .neg

/-- One waveform cycle in canonical direction d: from sample p the signal stays on its side until it crosses away at f
and back at r, the first samples beyond the band to do so. -/
structure WaveCycle (s : State) (d : Edge) (p f r : Nat) : Prop where
  order : p ≤ f ∧ f < r ∧ r < s.handle.wav.nsamples.toNat
  stays : ∀ i, p ≤ i → i < f → ¬ Beyond s (flipEdge d) i
  away : Beyond s (flipEdge d) f
  returns : ∀ i, f < i → i < r → ¬ Beyond s d i
  back : Beyond s d r

/-- The level after the n samples from sample p on, from level lv before them: POS after a sample above T, NEG after one
below −T, else kept (42_wav_demod.md R83). -/
def levelFrom (s : State) : Nat → Level → Nat → Level
  | _, lv, 0 => lv
  | p, lv, n + 1 =>
    levelFrom s (p + 1)
      (if (s.handle.act.thresh.toNat : Int) < sampleAt s p then .pos
       else if sampleAt s p < -(s.handle.act.thresh.toNat : Int) then .neg else lv) n

/-- Sample i makes a crossing in direction e, for a reader at sample p whose level is lv (42_wav_demod.md R83, R84): the
level before it is the opposite one, not UNKNOWN, and the sample lies beyond the band. -/
def CrossesAt (s : State) (p : Nat) (lv : Level) (e : Edge) (i : Nat) : Prop :=
  p ≤ i ∧ i < s.handle.wav.nsamples.toNat ∧ levelFrom s p lv (i - p) = levelAfter (flipEdge e) ∧ Beyond s e i

/-- The first canonical crossing from the cursor is at sample f, in direction d (42_wav_demod.md R85, R87): the first in the
canonical direction if it is resolved, the first of either direction if it is not. -/
structure FirstCanonical (s : State) (d : Edge) (f : Nat) : Prop where
  crosses : CrossesAt s s.stream.pos.toNat s.stream.track.level d f
  canonical : s.stream.track.dir = none ∨ s.stream.track.dir = some d
  first : ∀ e i, s.stream.track.dir = none ∨ e = d → i < f →
    ¬ CrossesAt s s.stream.pos.toNat s.stream.track.level e i

/-- No cycle in canonical direction d ends from sample p on, and the level is `lv` at the end of the audio: the signal stays
on its side of the dead band, or crosses away and never back. -/
def NoCycleLeft (s : State) (d : Edge) (p : Nat) (lv : Level) : Prop :=
  (lv = levelAfter d ∧ ∀ i, p ≤ i → i < s.handle.wav.nsamples.toNat → ¬ Beyond s (flipEdge d) i) ∨
  (lv = levelAfter (flipEdge d) ∧ ∃ f, p ≤ f ∧ f < s.handle.wav.nsamples.toNat ∧ Beyond s (flipEdge d) f ∧
    (∀ i, p ≤ i → i < f → ¬ Beyond s (flipEdge d) i) ∧
    ∀ i, f < i → i < s.handle.wav.nsamples.toNat → ¬ Beyond s d i)

/-! ### The chunks of a RIFF image -/

/-- A little-endian 32-bit field of the image (20_memory.md R44). -/
def le32 (m : Memory) (a : Nat) : Word := m.read (a + 3) ++ m.read (a + 2) ++ m.read (a + 1) ++ m.read a

/-- A little-endian 16-bit field of the image. -/
def le16 (m : Memory) (a : Nat) : BitVec 16 := m.read (a + 1) ++ m.read a

/-- The chunk headers of a RIFF image from position p on stand at the positions of the list, each below `len` whole, and
the next chunk would stand at q (40_lifecycle.md R71). -/
def ChunksFrom (m : Memory) (pad : Bool) (len : Nat) : Nat → List Nat → Nat → Prop
  | p, [], q => q = p
  | p, x :: xs, q => x = p ∧ p + 8 ≤ len ∧
    ChunksFrom m pad len
      (p + 8 + (le32 m (p + 4)).toNat + (if pad ∧ (le32 m (p + 4)).toNat % 2 = 1 then 1 else 0)) xs q

/-- The first chunk of an identifier stands at x. -/
def FirstChunk (m : Memory) (l : List Nat) (ident : List Byte) (x : Nat) : Prop :=
  x ∈ l ∧ m.readBytes x 4 = ident ∧ ∀ y ∈ l, y < x → m.readBytes y 4 ≠ ident

end Sys2Proof.Claims
end

