-- ==== Sys2Proof/Certificates/Slice0/Obligations.lean ====
section
/-! DEFINITION. The statements for the provers, one `def Obligations.<Name> : Prop` each, with the vocabulary they are written in (namespace Sys2Proof.Claims). A statement whose docstring says "derived" rests on rules the spec itself marks as derived or as general knowledge, or on a log entry, which it names. -/

open Sys2Proof Sys2Proof.Machine

namespace Sys2Proof.Claims

/-- OP, N and the reserved bits of a command word, by arithmetic (30_encoding.md R55). -/
def opNat (w : Word) : Nat := w.toNat % 256
/-- N = CMD[11:8] by arithmetic. -/
def nNat (w : Word) : Nat := w.toNat / 256 % 16
/-- CMD[31:12] by arithmetic. -/
def reservedNat (w : Word) : Nat := w.toNat / 4096

/-- The command of a row of 30_encoding.md R57, by its OP and its N. -/
def rowOf (op n : Nat) : Instr :=
  match op with
  | 0 => .nop
  | 1 => .openHandle
  | 2 => .close
  | 3 => .getbits (BitVec.ofNat 4 n)
  | 4 => .seek
  | 5 => .readbyte
  | 6 => .seeksync
  | 7 => .nextblock
  | _ => .nextdir

/-- The offsets of the RW registers and of CMD (10_state.md R14). -/
def writableOffsets : List Nat := [0x004, 0x008, 0x00C, 0x010, 0x014, 0x018, 0x01C, 0x08C, 0x090]

/-- The rows of the register map with one register each: offset, register, and whether the host can write it (10_state.md
R14: RW or WO). -/
def registerTable : List (Nat × Reg × Bool) :=
  [(0x000, .id, false), (0x004, .cfg, true), (0x008, .thresh, true), (0x00C, .freqlim, true), (0x010, .start, true),
    (0x014, .scanmax, true), (0x018, .imglen, true), (0x01C, .cmd, true), (0x020, .status, false),
    (0x024, .result, false), (0x028, .pos, false), (0x02C, .posbit, false), (0x030, .sofpos, false)] ++
  [(0x034, .sofbit, false), (0x038, .srate, false), (0x03C, .bps, false), (0x040, .riffsize, false),
    (0x044, .dataoff, false), (0x048, .datalen, false), (0x04C, .nsamples, false), (0x050, .cross0, false),
    (0x054, .cross1, false), (0x058, .blkinfo, false), (0x05C, .dirname0, false), (0x060, .dirname1, false),
    (0x064, .dirinfo, false)] ++
  [(0x068, .diraddr, false), (0x06C, .wavstate, false), (0x070, .lastcycle, false), (0x074, .actcfg, false),
    (0x078, .actthresh, false), (0x07C, .actfreq, false), (0x080, .actstart, false), (0x084, .actscan, false),
    (0x088, .errsticky, false), (0x08C, .arg, true), (0x090, .argbit, true), (0x094, .scancount, false),
    (0x098, .actlen, false)]

/-- The status codes and their numbers (60_exceptions.md R112). -/
def codeTable : List (Code × Nat) :=
  [(.ok, 0x00), (.atEnd, 0x01), (.eMode, 0x02), (.eClassify, 0x03), (.eHeader, 0x04), (.eFraming, 0x05),
    (.eChecksum, 0x06), (.eEos, 0x07), (.eTrailer, 0x08), (.eDirfmt, 0x09), (.eIllegal, 0x0A)]

/-- STATUS.KIND (10_state.md R26). -/
def kindNumber : Kind → Nat
  | .none => 0
  | .cas => 1
  | .wav => 2

/-- WAVSTATE.LEVEL (10_state.md R32). -/
def levelNumber : Level → Nat
  | .unknown => 0
  | .pos => 1
  | .neg => 2

/-- WAVSTATE.DIRRES and DIR, as bits 0 and 1 (10_state.md R32). -/
def dirNumber : Option Edge → Nat
  | none => 0
  | some .rising => 1
  | some .falling => 3

/-- CFG or ACTCFG by its fields (10_state.md R17). -/
def cfgNumber (c : ConfigRegs) : Nat :=
  (cfgKind c.cfg).toNat + 4 * (cfgParity c.cfg).toNat + 16 * (cfgBitord c.cfg).toNat + 32 * (cfgMode c.cfg).toNat

/-- The registers that are one number (10_state.md R19 to R24, R27 to R31, R36 to R38), with the number. -/
def numberRegisters (s : State) : List (Reg × Nat) :=
  [(.thresh, s.defaults.thresh.toNat), (.freqlim, s.defaults.freqLim.toNat), (.start, s.defaults.start.toNat),
    (.scanmax, s.defaults.scanMax.toNat), (.imglen, s.defaults.imgLen.toNat), (.arg, s.arg.toNat),
    (.argbit, s.argBit.toNat), (.result, s.handle.result.toNat), (.pos, s.stream.pos.toNat),
    (.posbit, s.stream.posBit.toNat), (.sofpos, s.handle.sofPos.toNat), (.sofbit, s.handle.sofBit.toNat)] ++
  [(.srate, s.handle.wav.srate.toNat), (.bps, s.handle.wav.bps.toNat), (.riffsize, s.handle.wav.riffSize.toNat),
    (.dataoff, s.handle.wav.dataOff.toNat), (.datalen, s.handle.wav.dataLen.toNat),
    (.nsamples, s.handle.wav.nsamples.toNat), (.cross0, (s.stream.track.cross0.getD 0#32).toNat),
    (.cross1, (s.stream.track.cross1.getD 0#32).toNat), (.lastcycle, s.stream.track.lastCycle.toNat),
    (.scancount, s.handle.scanCount.toNat), (.errsticky, s.errSticky.toNat), (.cmd, 0)] ++
  [(.actthresh, s.handle.act.thresh.toNat), (.actfreq, s.handle.act.freqLim.toNat),
    (.actstart, s.handle.act.start.toNat), (.actscan, s.handle.act.scanMax.toNat), (.actlen, s.handle.act.imgLen.toNat)]

/-- Do the two windows of the block lie apart in the host's address space (20_memory.md R49)? -/
def WindowsApart (p : Config.Params) : Prop :=
  p.regBase + 0x200 ≤ p.imgBase ∨ p.imgBase + p.imgCapacity.toNat ≤ p.regBase

/-- The bits an RW register stores (10_state.md R17 to R24). -/
def storedBits : Reg → Word
  | .cfg => 0x7F#32
  | .thresh => 0xFFFF#32
  | .argbit => 0x7#32
  | _ => 0xFFFFFFFF#32

/-- The payload bytes of a block whose type byte starts at index c. -/
def framePayload (s : State) (c : Nat) : List Byte :=
  (List.range (streamByte s (c + 8)).toNat).map fun i => streamByte s (c + 16 + 8 * i)

/-- The held block of a frame whose type byte starts at index c, read up to its checksum (43_framing.md R99 to R104). -/
def frameHeld (s : State) (c : Nat) (valid : Bool) : Held :=
  let len := streamByte s (c + 8)
  { valid := valid
    blkType := streamByte s c
    blkLen := len
    csumRx := streamByte s (c + 16 + 8 * len.toNat)
    csumCalc := checksum s.params (streamByte s c) len (framePayload s c)
    buf := Vector.ofFn fun i : Fin 256 => if i.val < len.toNat then streamByte s (c + 16 + 8 * i.val) else 0#8 }

/-- The held block of a frame cut short whose type byte starts at index c, `left` bits of the stream being left from there
(43_framing.md R99: the fields read so far, and the rest at 0). -/
def truncatedHeld (s : State) (c left : Nat) : Held :=
  let len := if 16 ≤ left then streamByte s (c + 8) else 0#8
  { valid := false
    blkType := if 8 ≤ left then streamByte s c else 0#8
    blkLen := len
    csumRx := 0#8
    csumCalc := 0#8
    buf := Vector.ofFn fun i : Fin 256 =>
      if i.val < len.toNat ∧ 24 + 8 * i.val ≤ left then streamByte s (c + 16 + 8 * i.val) else 0#8 }

/-- The registers after a NEXTBLOCK that took `taken` bits, its Seek-Sync k of them, and holds h. -/
def attempted (k taken : Nat) (h : Held) (s : State) : State :=
  setStream (advance s.stream taken) (setScanCount (BitVec.ofNat 32 k) (setHeld h (setResult 0#32 s)))

/-- The opposite level. -/
def flipLevel : Level → Level
  | .unknown => .unknown
  | .pos => .neg
  | .neg => .pos

/-- An open WAV handle without hazard bytes whose last canonical crossing, in direction d, was at c. -/
structure AtCrossing (s : State) (d : Edge) (c : Nat) : Prop where
  kind : s.handle.kind = .wav
  clean : s.hazard = []
  dir : s.stream.track.dir = some d
  level : s.stream.track.level = levelAfter d
  cross1 : ∃ w, s.stream.track.cross1 = some w ∧ w.toNat = c
  behind : c < s.stream.pos.toNat

/-- The stream after cycles that ended at a and then r, on side d, with PEND clear. -/
def afterCycle (t : Stream) (d : Edge) (a r : Nat) : Stream :=
  { t with
    pos := BitVec.ofNat 32 (r + 1)
    track := { level := levelAfter d, dir := some d, pend := false, cross0 := some (BitVec.ofNat 32 a)
               cross1 := some (BitVec.ofNat 32 r), lastCycle := BitVec.ofNat 32 (r - a) } }

/-- The stream once the first canonical crossing, in direction d at sample f, has been read with C1V 0: it only primes
CROSS1 (42_wav_demod.md R85, R88). -/
def primedAt (s : State) (d : Edge) (f : Nat) : Stream :=
  { s.stream with
    pos := BitVec.ofNat 32 (f + 1)
    track := { s.stream.track with
      level := levelAfter d, dir := some d, cross0 := none, cross1 := some (BitVec.ofNat 32 f) } }

/-- The stream at the end of the audio, all samples read, in tracking state tr (42_wav_demod.md R91). -/
def atAudioEnd (s : State) (tr : Tracking) : Stream :=
  { s.stream with pos := s.handle.wav.nsamples, track := tr }

/-- What a stream read reports at the end of the audio: E_EOS, RESULT 0, the stream t. -/
def audioEnd (detail : BitVec 4) (t : Stream) (s : State) : State := fail .eEos detail (setResult 0#32 (setStream t s))

/-- The answer of `RiffParse()` with the first `fmt ` chunk at f and the first `data` chunk at d (40_lifecycle.md R71). -/
def parsedFrom (m : Memory) (len f d : Nat) : Except (BitVec 4) WavParams :=
  if le16 m (f + 22) ≠ 8#16 ∧ le16 m (f + 22) ≠ 16#16 then .error 5#4
  else if le32 m (f + 12) = 0#32 then .error 6#4
  else .ok {
    srate := le32 m (f + 12), bps := le16 m (f + 22), riffSize := le32 m 4
    dataOff := BitVec.ofNat 32 (d + 8), dataLen := le32 m (d + 4)
    nsamples := BitVec.ofNat 32
      (min (le32 m (d + 4)).toNat (len - (d + 8)) / (if le16 m (f + 22) = 8#16 then 1 else 2)) }

/-- Two WAV handles over images whose samples are each other's negation, all else the demodulator reads being equal but
PARITY (42_wav_demod.md R93). -/
structure Mirrored (s s' : State) : Prop where
  kind : s.handle.kind = .wav ∧ s'.handle.kind = .wav
  clean : s.hazard = [] ∧ s'.hazard = []
  wav : s'.handle.wav = s.handle.wav
  thresh : s'.handle.act.thresh = s.handle.act.thresh
  freq : s'.handle.act.freqLim = s.handle.act.freqLim
  negated : ∀ i, i < s.handle.wav.nsamples.toNat → sampleAt s' i = -sampleAt s i

/-- The mirror image of a stream: level and canonical direction swapped. -/
def mirrorStream (t : Stream) : Stream :=
  { t with track := { t.track with level := flipLevel t.track.level, dir := t.track.dir.map flipEdge } }

/-- The bytes that n READBYTE commands in a row return, if each of them ends with OK, and the state after them. -/
def readbytes : Nat → State → Option (List Byte × State)
  | 0, s => some ([], s)
  | n + 1, s =>
    match exec .readbyte s with
    | .next t =>
      if t.err = .ok then
        match readbytes n t with
        | some (bs, u) => some (t.handle.result.setWidth 8 :: bs, u)
        | none => none
      else none
    | .fault _ => none
    | .refused _ => none

/-- The bits that n commands GETBITS 1 in a row return, if each of them ends with OK, and the state after them. -/
def bitByBit : Nat → State → Option (List Bool × State)
  | 0, s => some ([], s)
  | n + 1, s =>
    match exec (.getbits 1#4) s with
    | .next t =>
      if t.err = .ok then
        match bitByBit n t with
        | some (bs, u) => some (t.handle.result.getLsbD 0 :: bs, u)
        | none => none
      else none
    | .fault _ => none
    | .refused _ => none

/-- The last 16 of the bits are the sync pattern (43_framing.md R96, R97). -/
def EndsInSync (s : State) (bs : List Bool) : Prop :=
  16 ≤ bs.length ∧ ∀ j, j < 16 → bs[bs.length - 16 + j]? = some (syncBit s j)

/-- The registers after a SEEKSYNC that took k bits and left the stream t. -/
def soughtTo (k : Nat) (t : Stream) (s : State) : State :=
  setResult (BitVec.ofNat 32 k) (setScanCount (BitVec.ofNat 32 k) (setStream t s))

/-- Has a command ended with an error (60_exceptions.md R112: codes 0x02..0x0A)? -/
def isError (c : Code) : Bool := decide (2 ≤ c.number)

end Sys2Proof.Claims

open Sys2Proof.Claims

/-! ## Encoding -/

/-- The decoder accepts exactly the words of the table: a word decodes to i just when i is well-formed and encodes to it
(30_encoding.md R55 to R58), so decoding an encoded command gives it back and no two words name one command. -/
def Obligations.DecodeAcceptsExactlyTheEncodings : Prop :=
  ∀ (w : Word) (i : Instr), decode w = .ok i ↔ (i.wellFormed = true ∧ encode i = w)

/-- The three cases of an illegal word (30_encoding.md R58). -/
def Obligations.IllegalWordsByCase : Prop :=
  ∀ w : Word,
    (decode w = .error .reservedOpcode ↔ 8 < opNat w) ∧
    (decode w = .error .reservedBits ↔ opNat w ≤ 8 ∧ (reservedNat w ≠ 0 ∨ (opNat w ≠ 3 ∧ nNat w ≠ 0))) ∧
    (decode w = .error .badCount ↔ opNat w = 3 ∧ reservedNat w = 0 ∧ (nNat w = 0 ∨ 8 < nNat w))

/-- A few words written from the table of 30_encoding.md R57 and the vectors of 95_test_vectors.md. -/
def Obligations.TableWordsDecode : Prop :=
  decode 0x00000000#32 = .ok .nop ∧ decode 0x00000001#32 = .ok .openHandle ∧ decode 0x00000002#32 = .ok .close ∧
  decode 0x00000503#32 = .ok (.getbits 5#4) ∧ decode 0x00000004#32 = .ok .seek ∧
  decode 0x00000005#32 = .ok .readbyte ∧ decode 0x00000006#32 = .ok .seeksync ∧
  decode 0x00000007#32 = .ok .nextblock ∧ decode 0x00000008#32 = .ok .nextdir

/-! ## The step and the dispatch -/

/-- The block's step runs the decoded command: with the block to move and w latched, step is exec of the command w
decodes to, or E_ILLEGAL with the word's detail (70_reset_and_hazards.md R132; whose turn it is, log 1). With BUSY = 0
the block is idle and its turn changes nothing (60_exceptions.md R125; that it answers the same state is log 2). -/
def Obligations.StepRunsTheLatchedCommand : Prop :=
  ∀ s : State,
    (∀ w, s.latch = some w →
      (s.agenda = [] → ∀ i, decode w = .ok i → step s = exec i s) ∧
      (s.agenda = [] → ∀ r, decode w = .error r → step s = .next (fail .eIllegal r.detail s)) ∧
      (∀ rest i, s.agenda = .blockTurn :: rest → decode w = .ok i → step s = exec i { s with agenda := rest }) ∧
      (∀ rest r, s.agenda = .blockTurn :: rest → decode w = .error r →
        step s = .next (fail .eIllegal r.detail { s with agenda := rest }))) ∧
    (s.busy = false →
      (s.agenda = [] → step s = .next s) ∧
      (∀ rest, s.agenda = .blockTurn :: rest → step s = .next { s with agenda := rest }))

/-- The dispatch checks of 60_exceptions.md R116, in their order; the first that fails ends the command with `fail`. -/
def Obligations.DispatchChecksInOrder : Prop :=
  ∀ (w : Word) (s : State), runWord w s =
    if 8 < opNat w then .next (fail .eIllegal 1#4 s)
    else if reservedNat w ≠ 0 ∨ (opNat w ≠ 3 ∧ nNat w ≠ 0) then .next (fail .eIllegal 2#4 s)
    else if opNat w = 3 ∧ (nNat w = 0 ∨ 8 < nNat w) then .next (fail .eIllegal 3#4 s)
    else if opNat w ≠ 0 ∧ opNat w ≠ 1 ∧ s.isOpen = false then .next (fail .eMode 1#4 s)
    else exec (rowOf (opNat w) (nNat w)) s

/-- `fail` and `finish` (60_exceptions.md R117): what they write, and that nothing else is saved. -/
def Obligations.ErrorsWriteStatusAndStickyBit : Prop :=
  ∀ (c : Code) (d : BitVec 4) (s : State),
    fail c d s = { s with err := c, detail := d, errSticky := (fail c d s).errSticky, latch := none } ∧
    (∀ k, k < 32 → (fail c d s).errSticky.getLsbD k =
      (s.errSticky.getLsbD k || (decide (k = c.number) && isError c))) ∧
    finish c s = { s with err := c, detail := 0#4, latch := none }

/-- Every command terminates, in one step, with BUSY = 0, an empty latch, and never a fault or a refusal
(70_reset_and_hazards.md R132, R138). -/
def Obligations.EveryCommandEndsIdle : Prop :=
  ∀ (i : Instr) (s : State), ∃ t, exec i s = .next t ∧ t.latch = none

/-! ## The host's accesses -/

/-- A write of CMD while idle latches the word, and no other state changes (70_reset_and_hazards.md R131). -/
def Obligations.CommandWriteLatches : Prop :=
  ∀ (s : State) (v : Word) (rest : List Event), s.agenda = .regWrite 0x01C 4 v :: rest → s.busy = false →
    ∃ t, step s = .next t ∧ t = { s with agenda := rest, latch := some v } ∧ t.busy = true

/-- A write of an RW register or CMD while busy is dropped, and ERRSTICKY[31] is set (70_reset_and_hazards.md R133). -/
def Obligations.BusyWriteIsDropped : Prop :=
  ∀ (s : State) (off : Nat) (v : Word) (rest : List Event),
    s.agenda = .regWrite off 4 v :: rest → off ∈ writableOffsets → s.busy = true →
    ∃ t, step s = .next t ∧ t = { s with agenda := rest, errSticky := t.errSticky } ∧
      ∀ k, k < 32 → t.errSticky.getLsbD k = (s.errSticky.getLsbD k || decide (k = 31))

/-- A register write (10_state.md R15, R17 to R24; CMD apart). While idle it stores the bits the register has, and every
other register reads as before. To an RO register or a reserved offset it changes nothing, idle or busy. The host's step
writes the register at its offset. -/
def Obligations.IdleWriteStoresOneRegister : Prop :=
  ∀ (v : Word) (s : State),
    (∀ r : Reg, s.busy = false → r ≠ .cmd →
      regValue r (writeReg r v s) = (if r.writable then v &&& storedBits r else regValue r s) ∧
      (∀ r', r' ≠ r → regValue r' (writeReg r v s) = regValue r' s) ∧
      writeReg r v s = { s with
        defaults := (writeReg r v s).defaults, arg := (writeReg r v s).arg, argBit := (writeReg r v s).argBit }) ∧
    (∀ r : Reg, r.writable = false → writeReg r v s = s) ∧
    (∀ (off : Nat) (rest : List Event), s.agenda = .regWrite off 4 v :: rest → off % 4 = 0 → off < 0x200 →
      step s = .next (writeReg (regAt off) v { s with agenda := rest }))

/-- The register map row by row and field by field. Each register at its offset, with its access; BUF from 0x100; no access
to an offset the map reserves reaches a register; every offset has one register (10_state.md R14). What a read returns: the
fields of CFG and ACTCFG (R17, R36), STATUS (R26; the codes of 60_exceptions.md R112), WAVSTATE (R32), BLKINFO (R33), BUF
(R34), DIRINFO and DIRADDR (R35) by their bit positions, reserved bits 0, and the registers that are one number. -/
def Obligations.RegisterMapIsFaithful : Prop :=
  (∀ e ∈ registerTable, regAt e.1 = e.2.1 ∧ e.2.1.offset = e.1 ∧ e.2.1.writable = e.2.2) ∧
  (∀ k : Fin 64, regAt (0x100 + 4 * k.val) = .buf k ∧ (Reg.buf k).offset = 0x100 + 4 * k.val ∧
    (Reg.buf k).writable = false) ∧
  (∀ off, 0x09C ≤ off → off < 0x100 → off % 4 = 0 → regAt off = .reserved) ∧
  (∀ r : Reg, regAt r.offset = r ∧ r.offset % 4 = 0 ∧ r.offset < 0x200) ∧
  (∀ off, off % 4 = 0 → off < 0x200 → regAt off ≠ .reserved → (regAt off).offset = off) ∧
  (∀ s : State,
    (regValue .cfg s).toNat = cfgNumber s.defaults ∧ (regValue .actcfg s).toNat = cfgNumber s.handle.act ∧
    (∃ code, (s.err, code) ∈ codeTable ∧ (regValue .status s).toNat =
      s.busy.toNat + 2 * s.isOpen.toNat + 4 * s.handle.eof.toNat + 8 * kindNumber s.handle.kind +
      32 * s.handle.held.valid.toNat + 64 * s.handle.dir.valid.toNat + 256 * code + 65536 * s.detail.toNat) ∧
    (regValue .wavstate s).toNat =
      levelNumber s.stream.track.level + 4 * dirNumber s.stream.track.dir + 16 * s.stream.track.pend.toNat +
      32 * s.stream.track.cross0.isSome.toNat + 64 * s.stream.track.cross1.isSome.toNat ∧
    (regValue .blkinfo s).toNat = s.handle.held.blkType.toNat + 256 * s.handle.held.blkLen.toNat +
      65536 * s.handle.held.csumRx.toNat + 16777216 * s.handle.held.csumCalc.toNat ∧
    (∀ (k : Fin 64) (j : Nat) (_ : j < 4),
      (regValue (.buf k) s).toNat / 256 ^ j % 256 = s.handle.held.buf[4 * k.val + j].toNat) ∧
    (regValue .dirinfo s).toNat =
      s.handle.dir.ftype.toNat + 256 * s.handle.dir.ascii.toNat + 65536 * s.handle.dir.gap.toNat ∧
    (regValue .diraddr s).toNat = s.handle.dir.load.toNat + 65536 * s.handle.dir.exec.toNat ∧
    regValue .dirname0 s = s.handle.dir.name0 ∧ regValue .dirname1 s = s.handle.dir.name1 ∧
    ∀ e ∈ numberRegisters s, (regValue e.1 s).toNat = e.2)

/-- A host read changes nothing of the block. Of a register, while idle, it returns the register; while busy, ID and BUSY
are defined and the rest is free (10_state.md R15, 70_reset_and_hazards.md R134; the read value's place and the draw count
are log 8 and 18). Of the image it returns the byte (00_scope.md R2, 20_memory.md R48; log 27). -/
def Obligations.HostReadsHaveNoSideEffect : Prop :=
  (∀ (s : State) (off : Nat) (rest : List Event),
    s.agenda = .regRead off 4 :: rest → off % 4 = 0 → off < 0x200 →
    ∃ t, step s = .next t ∧
      t = { s with agenda := rest, busData := t.busData, hostDraws := t.hostDraws } ∧
      (s.busy = false → t.busData = regValue (regAt off) s ∧ t.hostDraws = s.hostDraws) ∧
      (s.busy = true → t.hostDraws = s.hostDraws + 1 ∧
        (off = 0x000 → t.busData = 0x54415045#32) ∧ (off = 0x020 → t.busData.getLsbD 0 = true))) ∧
  (∀ (s : State) (a : Nat) (rest : List Event), s.agenda = .imgRead a :: rest →
    (a < s.params.imgCapacity.toNat →
      step s = .next { s with agenda := rest, busData := (s.mem.read a).setWidth 32 }) ∧
    (s.params.imgCapacity.toNat ≤ a → step s = .fault .imageAddress))

/-- An access that is not an aligned 32-bit word is refused, read or write (20_memory.md R45). -/
def Obligations.NonWordAccessIsRefused : Prop :=
  ∀ (s : State) (off width : Nat) (v : Word) (rest : List Event), (width ≠ 4 ∨ off % 4 ≠ 0) →
    (s.agenda = .regRead off width :: rest → step s = .refused .registerAccess) ∧
    (s.agenda = .regWrite off width v :: rest → step s = .refused .registerAccess)

/-- A host image write below IMG_CAPACITY is read back there and nowhere else; it marks a hazard exactly when a handle
is open and the address is below ACTLEN; at or above IMG_CAPACITY it faults (20_memory.md R41, R46,
70_reset_and_hazards.md R136; the fault is log 17). -/
def Obligations.ImageWriteReadsBack : Prop :=
  ∀ (s : State) (a : Nat) (b : Byte) (rest : List Event), s.agenda = .imgWrite a b :: rest →
    (a < s.params.imgCapacity.toNat → ∃ t, step s = .next t ∧
      t = { s with agenda := rest, mem := t.mem, hazard := t.hazard } ∧
      t.mem.read a = b ∧ (∀ x, x ≠ a → t.mem.read x = s.mem.read x) ∧
      (∀ x, x ∈ t.hazard ↔ x ∈ s.hazard ∨
        (x = a ∧ s.isOpen = true ∧ a < s.handle.act.imgLen.toNat))) ∧
    (s.params.imgCapacity.toNat ≤ a → step s = .fault .imageAddress)

/-- The host's address space (20_memory.md R49; the routing is log 20): REG_BASE + off is offset off of the register space,
IMG_BASE + a is byte a of the image, one byte wide (R46); an address outside both windows is no address of the block. -/
def Obligations.HostAddressesReachTheWindows : Prop :=
  ∀ (s : State) (addr width : Nat) (v : Word) (rest : List Event), WindowsApart s.params →
    (∀ off, off < 0x200 → addr = s.params.regBase + off →
      (s.agenda = .busRead addr width :: rest → step s = step { s with agenda := .regRead off width :: rest }) ∧
      (s.agenda = .busWrite addr width v :: rest →
        step s = step { s with agenda := .regWrite off width v :: rest })) ∧
    (∀ a, a < s.params.imgCapacity.toNat → addr = s.params.imgBase + a →
      (s.agenda = .busRead addr width :: rest →
        step s = if width = 1 then step { s with agenda := .imgRead a :: rest } else .refused .imageAccess) ∧
      (s.agenda = .busWrite addr width v :: rest →
        step s = if width = 1 then step { s with agenda := .imgWrite a (v.setWidth 8) :: rest }
          else .refused .imageAccess)) ∧
    ((addr < s.params.regBase ∨ s.params.regBase + 0x200 ≤ addr) →
      (addr < s.params.imgBase ∨ s.params.imgBase + s.params.imgCapacity.toNat ≤ addr) →
      (s.agenda = .busRead addr width :: rest → step s = .refused .busAddress) ∧
      (s.agenda = .busWrite addr width v :: rest → step s = .refused .busAddress))

/-- WAIT (30_encoding.md R59, 20_memory.md R53): from a latched command it ends, after the command, with BUSY = 0 and
the host having read the STATUS the command left (the interleaving is log 21). -/
def Obligations.WaitEndsAfterTheCommand : Prop :=
  ∀ (s : State) (w : Word), s.latch = some w → s.agenda = [.wait] →
    ∃ t u, runWord w { s with agenda := [.wait], busData := u.busData, hostDraws := s.hostDraws + 1 } = .next t ∧
      step s = .next u ∧ u.latch = some w ∧
      Host.Core.run Sys2Proof.core 3 s = .next { t with agenda := [], busData := statusWord t } ∧
      t.busy = false

/-! ## Reset -/

/-- The reset values of the register map (10_state.md R14, 70_reset_and_hazards.md R126): ID, FREQLIM = 1800, all others
0. -/
def Obligations.ResetRegisterValues : Prop :=
  ∀ r : Reg, regValue r State.reset =
    match r with
    | .id => 0x54415045#32
    | .freqlim => 0x708#32
    | _ => 0#32

/-- Platform reset, a running command or not: every register at its reset value, the latch empty, BUSY 0, the image
unchanged (70_reset_and_hazards.md R126, R127). -/
def Obligations.ResetAbandonsTheCommand : Prop :=
  ∀ (s : State) (rest : List Event), s.agenda = .reset :: rest →
    ∃ t, step s = .next t ∧ (∀ r, regValue r t = regValue r State.reset) ∧ t.latch = none ∧ t.busy = false ∧
      (∀ a, t.mem.read a = s.mem.read a) ∧ t.params = s.params ∧ t.agenda = rest

/-! ## Lifecycle -/

/-- NOP (40_lifecycle.md R67): reports OK, RESULT and every other register unchanged, no handle needed. -/
def Obligations.NopReportsOk : Prop :=
  decode 0#32 = .ok .nop ∧
  ∀ s : State, exec .nop s = .next { s with err := .ok, detail := 0#4, latch := none }

/-- CLOSE (40_lifecycle.md R75, R73): every handle and snapshot register 0; the default and argument registers, the
sticky bits and the image kept; without a handle E_MODE 1. -/
def Obligations.CloseClearsTheHandle : Prop :=
  decode 0x00000002#32 = .ok .close ∧ ∀ s : State,
    (s.isOpen = true → ∃ t, exec .close s = .next t ∧
      t = { s with
        handle := Handle.closed
        stream := { s.stream with pos := 0#32, posBit := 0#3, track := Tracking.zero }
        err := .ok, detail := 0#4, latch := none } ∧
      statusWord t = 0#32 ∧
      (∀ r, regValue r t ≠ 0#32 →
        r ∈ [.id, .cfg, .thresh, .freqlim, .start, .scanmax, .imglen, .arg, .argbit, .errsticky])) ∧
    (s.isOpen = false → exec .close s = .next (fail .eMode 1#4 s))

/-- SEEK (40_lifecycle.md R76): the cursor from ARG and ARGBIT, the WAV tracking cleared but its direction, EOF 0,
RESULT 0, nothing else; without a handle E_MODE 1. A target beyond the stream is no error: the next stream read, whichever
command it is, ends the stream. -/
def Obligations.SeekMovesTheCursor : Prop :=
  decode 0x00000004#32 = .ok .seek ∧ ∀ s : State,
    (s.handle.kind = .cas → exec .seek s = .next { s with
      handle := { s.handle with eof := false, result := 0#32 }
      stream := { s.stream with pos := s.arg, posBit := s.argBit }
      err := .ok, detail := 0#4, latch := none }) ∧
    (s.handle.kind = .wav → exec .seek s = .next { s with
      handle := { s.handle with eof := false, result := 0#32 }
      stream := { s.stream with
        pos := s.arg, posBit := 0#3
        track := { level := .unknown, dir := s.stream.track.dir, pend := false, cross0 := none, cross1 := none
                   lastCycle := 0#32 } }
      err := .ok, detail := 0#4, latch := none }) ∧
    (s.handle.kind = .none → exec .seek s = .next (fail .eMode 1#4 s)) ∧
    ((s.handle.kind = .cas ∧ s.handle.act.imgLen ≤ s.arg) ∨ (s.handle.kind = .wav ∧ s.handle.wav.nsamples ≤ s.arg) →
      ∃ t, exec .seek s = .next t ∧ t.err = .ok ∧
        (∀ n, countLegal n = true → exec (.getbits n) t = .next (fail .eEos 1#4 t)) ∧
        exec .readbyte t = .next (fail .eEos 1#4 t) ∧
        ∀ i, i = .seeksync ∨ i = .nextblock ∨ i = .nextdir →
          ∃ u, exec i t = .next u ∧ u.err = .atEnd ∧ u.handle.eof = true ∧ u.stream = t.stream)

/-- OPEN of a forced CAS image (40_lifecycle.md R68, R69, R72), whatever the state of the handle before: an open one is
closed first. The snapshot, the start cursor, and every other handle register 0. It ends the hazards
(70_reset_and_hazards.md R136; that they end before OPEN's own reads is log 7). -/
def Obligations.OpenCasCreatesTheHandle : Prop :=
  ∀ s : State, ClosedInv s →
    cfgKind s.defaults.cfg = 1#2 → cfgParity s.defaults.cfg ≠ 3#2 → cfgMode s.defaults.cfg ≠ 1#2 →
    s.defaults.imgLen ≤ s.params.imgCapacity →
    exec .openHandle s = .next { s with
      handle := { Handle.closed with kind := .cas, result := 1#32, sofPos := s.defaults.start, act := s.defaults }
      stream := { s.stream with pos := s.defaults.start, posBit := 0#3, track := Tracking.zero }
      hazard := [], err := .ok, detail := 0#4, latch := none }

/-- OPEN of a WAV image, forced or sniffed, whose header parses (40_lifecycle.md R68 to R72), whatever the state of the
handle before: an open one is closed first. OPEN reads the bytes the host wrote under the last handle, and ends the hazards
(70_reset_and_hazards.md R136; that they end before OPEN's own reads is log 7, the model's choice). -/
def Obligations.OpenWavCreatesTheHandle : Prop :=
  ∀ (s : State) (w : WavParams), ClosedInv s →
    (cfgKind s.defaults.cfg = 2#2 ∨
      (cfgKind s.defaults.cfg = 0#2 ∧ 4 ≤ s.defaults.imgLen.toNat ∧ s.mem.readBytes 0 4 = riffMagic)) →
    cfgParity s.defaults.cfg ≠ 3#2 → cfgMode s.defaults.cfg ≠ 1#2 → s.defaults.imgLen ≤ s.params.imgCapacity →
    riffParse s.mem s.params.riffPad s.defaults.imgLen.toNat = .ok w →
    exec .openHandle s = .next { s with
      handle := { Handle.closed with
        kind := .wav, result := 2#32, sofPos := s.defaults.start, wav := w, act := s.defaults }
      stream := { s.stream with
        pos := s.defaults.start, posBit := 0#3
        track := { Tracking.zero with
          dir := if cfgParity s.defaults.cfg = 1#2 then some .falling
                 else if cfgParity s.defaults.cfg = 2#2 then some .rising else none } }
      hazard := [], err := .ok, detail := 0#4, latch := none }

/-- The checks of OPEN before its snapshot, in the order KIND, PARITY, IMGLEN, MODE (40_lifecycle.md R68,
60_exceptions.md R113, R118). -/
def Obligations.OpenChecksInOrder : Prop :=
  ∀ s : State, ∃ t, exec .openHandle s = .next t ∧ t.defaults = s.defaults ∧
    (cfgKind s.defaults.cfg = 3#2 → t.err = .eIllegal ∧ t.detail = 4#4) ∧
    (cfgKind s.defaults.cfg ≠ 3#2 → cfgParity s.defaults.cfg = 3#2 → t.err = .eIllegal ∧ t.detail = 5#4) ∧
    (cfgKind s.defaults.cfg ≠ 3#2 → cfgParity s.defaults.cfg ≠ 3#2 → s.params.imgCapacity < s.defaults.imgLen →
      t.err = .eIllegal ∧ t.detail = 6#4) ∧
    (cfgKind s.defaults.cfg ≠ 3#2 → cfgParity s.defaults.cfg ≠ 3#2 → s.defaults.imgLen ≤ s.params.imgCapacity →
      cfgMode s.defaults.cfg = 1#2 → t.err = .eMode ∧ t.detail = 2#4)

/-- A failed OPEN leaves no handle: STATUS.OPEN 0, every handle and snapshot register 0, RESULT 0 (40_lifecycle.md
R74). -/
def Obligations.FailedOpenLeavesNoHandle : Prop :=
  ∀ s t : State, ClosedInv s → exec .openHandle s = .next t → t.err ≠ .ok →
    t.isOpen = false ∧ t.handle = Handle.closed ∧ t.stream = Stream.closed s.stream.draws ∧
    regValue .result t = 0#32

/-- Classification with CFG.KIND = 0 (40_lifecycle.md R70): past the checks, an image that does not start with "RIFF"
fails E_CLASSIFY, one that does is taken as WAV and fails, if it fails, as a header; a forced kind is never sniffed. A WAV image, forced or
sniffed, fails with the detail that the parse of its header gives (R71, 60_exceptions.md R113, R118), and opens else. Over an image written
under an open handle it reads the written bytes (log 7, the model's choice; 70_reset_and_hazards.md R136). -/
def Obligations.AutoSniffsTheRiffMagic : Prop :=
  ∀ s t : State, exec .openHandle s = .next t →
    cfgKind s.defaults.cfg ≠ 3#2 → cfgParity s.defaults.cfg ≠ 3#2 → cfgMode s.defaults.cfg ≠ 1#2 →
    s.defaults.imgLen ≤ s.params.imgCapacity →
    (cfgKind s.defaults.cfg = 0#2 →
      (4 ≤ s.defaults.imgLen.toNat ∧ s.mem.readBytes 0 4 = [0x52#8, 0x49#8, 0x46#8, 0x46#8] →
        (t.err = .ok ∧ t.handle.kind = .wav) ∨ t.err = .eHeader) ∧
      (¬ (4 ≤ s.defaults.imgLen.toNat ∧ s.mem.readBytes 0 4 = [0x52#8, 0x49#8, 0x46#8, 0x46#8]) →
        t.err = .eClassify ∧ t.detail = 0#4)) ∧
    (cfgKind s.defaults.cfg = 1#2 → t.err = .ok ∧ t.handle.kind = .cas) ∧
    (cfgKind s.defaults.cfg = 2#2 → (t.err = .ok ∧ t.handle.kind = .wav) ∨ t.err = .eHeader) ∧
    (cfgKind s.defaults.cfg = 2#2 ∨
        (cfgKind s.defaults.cfg = 0#2 ∧ 4 ≤ s.defaults.imgLen.toNat ∧
          s.mem.readBytes 0 4 = [0x52#8, 0x49#8, 0x46#8, 0x46#8]) →
      (∀ d, riffParse s.mem s.params.riffPad s.defaults.imgLen.toNat = .error d → t.err = .eHeader ∧ t.detail = d) ∧
      (∀ w, riffParse s.mem s.params.riffPad s.defaults.imgLen.toNat = .ok w →
        t.err = .ok ∧ t.handle.kind = .wav ∧ t.handle.wav = w))

/-- `RiffParse()` (40_lifecycle.md R71; positions and byte order are the spec's general knowledge, 30_encoding.md R64,
20_memory.md R44). No RIFF or WAVE identifier in 12 bytes is E_HEADER 1. Past them the chunks are walked by their sizes, a
pad byte after an odd one as P_RIFF_PAD says: a short first `fmt ` is 4, no `fmt ` is 2, no `data` is 3; with the first of
each, in either order, the parameters, the sample count clipped to the image. The last clause is the usual 44-byte header,
from its bytes. -/
def Obligations.WaveHeaderParses : Prop :=
  ∀ (m : Memory) (pad : Bool) (len : Nat), len < 2 ^ 32 →
    (len < 12 ∨ m.readBytes 0 4 ≠ [0x52#8, 0x49#8, 0x46#8, 0x46#8] ∨
        m.readBytes 8 4 ≠ [0x57#8, 0x41#8, 0x56#8, 0x45#8] →
      riffParse m pad len = .error 1#4) ∧
    (12 ≤ len → m.readBytes 0 4 = [0x52#8, 0x49#8, 0x46#8, 0x46#8] → m.readBytes 8 4 = [0x57#8, 0x41#8, 0x56#8, 0x45#8] →
      (∀ (l : List Nat) (q : Nat), ChunksFrom m pad len 12 l q →
        (∀ f, FirstChunk m l [0x66#8, 0x6D#8, 0x74#8, 0x20#8] f →
          ((le32 m (f + 4)).toNat < 16 ∨ len < f + 24 → riffParse m pad len = .error 4#4) ∧
          (16 ≤ (le32 m (f + 4)).toNat → f + 24 ≤ len →
            (∀ d, FirstChunk m l [0x64#8, 0x61#8, 0x74#8, 0x61#8] d → riffParse m pad len = parsedFrom m len f d) ∧
            (len < q + 8 → (∀ x ∈ l, m.readBytes x 4 ≠ [0x64#8, 0x61#8, 0x74#8, 0x61#8]) →
              riffParse m pad len = .error 3#4))) ∧
        (len < q + 8 → (∀ x ∈ l, m.readBytes x 4 ≠ [0x66#8, 0x6D#8, 0x74#8, 0x20#8]) →
          riffParse m pad len = .error 2#4)) ∧
      (44 ≤ len → m.readBytes 12 4 = [0x66#8, 0x6D#8, 0x74#8, 0x20#8] → m.readBytes 16 4 = [16#8, 0#8, 0#8, 0#8] →
        m.readBytes 36 4 = [0x64#8, 0x61#8, 0x74#8, 0x61#8] → riffParse m pad len = parsedFrom m len 12 36))

/-! ## GETBITS and READBYTE on a CAS handle -/

/-- GETBITS n on a CAS handle (41_cas_bitreader.md R80; R81, which the spec derives). With n bits left RESULT holds the
next n bits of the image's bit sequence, the first most significant, whatever BITORD is; the cursor moves n bits; nothing
else changes. With fewer left: E_EOS 1, RESULT 0, the bits left are consumed; a cursor beyond the end stays. -/
def Obligations.GetbitsReturnsImageBits : Prop :=
  ∀ (n : BitVec 4) (s : State), s.handle.kind = .cas → countLegal n = true →
    (casIndex s.stream + n.toNat ≤ casEnd s → CleanBits s (casIndex s.stream) n.toNat →
      ∃ v : Word, exec (.getbits n) s = .next (finish .ok (setResult v (setStream (advance s.stream n.toNat) s))) ∧
        (∀ j, j < n.toNat → v.getLsbD (n.toNat - 1 - j) = imageBit s (casIndex s.stream + j)) ∧
        v.toNat < 2 ^ n.toNat) ∧
    (casEnd s < casIndex s.stream + n.toNat → CleanBits s (casIndex s.stream) (casLeft s) →
      exec (.getbits n) s = .next (fail .eEos 1#4 (setResult 0#32 (setStream (advance s.stream (casLeft s)) s))))

/-- A bit of a byte written under the open handle is a bit of a fresh free value (70_reset_and_hazards.md R136; the
draw is log 7). -/
def Obligations.HazardByteReadsAsADraw : Prop :=
  ∀ s : State, s.handle.kind = .cas → s.stream.pos < s.handle.act.imgLen → s.stream.pos.toNat ∈ s.hazard →
    ∃ t, exec (.getbits 1#4) s = .next t ∧ t.err = .ok ∧ t.stream.draws = s.stream.draws + 1 ∧
      t.handle.result = (BitVec.ofBool ((Config.hazardByte s.mem.unit s.stream.draws).getLsbD
        (if cfgBitord s.handle.act.cfg then s.stream.posBit.toNat else 7 - s.stream.posBit.toNat))).setWidth 32

/-- The split into GETBITS calls does not matter, on either container (41_cas_bitreader.md R79, R80; R81, which the spec
derives): n bits and then m are the n + m bits at once, and where either read meets the end the one read ends just so. -/
def Obligations.GetbitsCallsCompose : Prop :=
  ∀ (n m k : BitVec 4) (s t : State), s.isOpen = true → countLegal n = true → countLegal m = true →
    countLegal k = true → k.toNat = n.toNat + m.toNat → exec (.getbits n) s = .next t →
    (t.err ≠ .ok → exec (.getbits k) s = .next t) ∧
    (t.err = .ok → ∃ u, exec (.getbits m) t = .next u ∧
      (u.err ≠ .ok → exec (.getbits k) s = .next u) ∧
      (u.err = .ok → exec (.getbits k) s = .next (setResult
        (BitVec.ofNat 32 (t.handle.result.toNat * 2 ^ m.toNat + u.handle.result.toNat)) u)))

/-- READBYTE on a CAS handle with 8 bits left (43_framing.md R94, R95): the first bit is bit 7 with BITORD 0 and bit 0
with BITORD 1; from a byte-aligned cursor the result is the image byte under either. With fewer left: E_EOS 1. -/
def Obligations.ReadbytePacksByBitord : Prop :=
  ∀ s : State, s.handle.kind = .cas →
    (casIndex s.stream + 8 ≤ casEnd s → CleanBits s (casIndex s.stream) 8 →
      ∃ b : Byte, exec .readbyte s = .next (finish .ok (setResult (b.setWidth 32) (setStream (advance s.stream 8) s))) ∧
        (∀ j, j < 8 → b.getLsbD (if cfgBitord s.handle.act.cfg then j else 7 - j) =
          imageBit s (casIndex s.stream + j)) ∧
        (s.stream.posBit = 0#3 → b = s.mem.read s.stream.pos.toNat)) ∧
    (casEnd s < casIndex s.stream + 8 → CleanBits s (casIndex s.stream) (casLeft s) →
      exec .readbyte s = .next (fail .eEos 1#4 (setResult 0#32 (setStream (advance s.stream (casLeft s)) s))))

/-- READBYTE reads what GETBITS 8 reads, on either container (41_cas_bitreader.md R80, 43_framing.md R94, R95): the same
status and cursor; the byte is the same with BITORD 0 and its bit reversal with BITORD 1. -/
def Obligations.ReadbyteReadsTheBitsOfGetbitsEight : Prop :=
  ∀ s : State, s.isOpen = true →
    ∃ t u, exec (.getbits 8#4) s = .next t ∧ exec .readbyte s = .next u ∧ u = setResult u.handle.result t ∧
      u.handle.result.toNat < 256 ∧
      ∀ j, j < 8 → u.handle.result.getLsbD j =
        t.handle.result.getLsbD (if cfgBitord s.handle.act.cfg then 7 - j else j)

/-! ## The WAV demodulator: the samples are `sampleAt`, read from the image's bytes (42_wav_demod.md R82; the formats of
30_encoding.md R65 are the spec's general knowledge) -/

/-- The comparator (42_wav_demod.md R83): POS above T, NEG below −T, unchanged in the dead band; a rising crossing is a
change NEG to POS, a falling one POS to NEG, and leaving UNKNOWN is none. -/
def Obligations.ComparatorHasADeadBand : Prop :=
  ∀ (thresh : Nat) (old : Level) (v : Int),
    let new := compareLevel thresh old v
    ((thresh : Int) < v → new = .pos) ∧ (v < -(thresh : Int) → new = .neg) ∧
    (-(thresh : Int) ≤ v → v ≤ (thresh : Int) → new = old ∧ crossingOf old new = none) ∧
    (crossingOf old new = some .rising ↔ old = .neg ∧ (thresh : Int) < v) ∧
    (crossingOf old new = some .falling ↔ old = .pos ∧ v < -(thresh : Int))

/-- A long cycle is a 0 bit (42_wav_demod.md R87 to R90): from the crossing at c, a cycle that ends at r with
(r − c) × ACTFREQ ≥ SRATE gives GETBITS 1 the bit 0, a short cycle before it dropped, whether that one was read by an
earlier command (PEND = 1) or is read by this one, in either canonical direction. -/
def Obligations.LongCycleIsAZeroBit : Prop :=
  ∀ (s : State) (d : Edge) (c f r : Nat), AtCrossing s d c → WaveCycle s d s.stream.pos.toNat f r →
    (s.handle.wav.srate.toNat ≤ (r - c) * s.handle.act.freqLim.toNat →
      exec (.getbits 1#4) s = .next (finish .ok (setResult 0#32 (setStream (afterCycle s.stream d c r) s)))) ∧
    ((r - c) * s.handle.act.freqLim.toNat < s.handle.wav.srate.toNat → s.stream.track.pend = false →
      ∀ f' r', WaveCycle s d (r + 1) f' r' → s.handle.wav.srate.toNat ≤ (r' - r) * s.handle.act.freqLim.toNat →
        exec (.getbits 1#4) s = .next (finish .ok (setResult 0#32 (setStream (afterCycle s.stream d r r') s))))

/-- Two consecutive short cycles are a 1 bit (42_wav_demod.md R90): with the first already seen (PEND = 1) one more
short cycle gives GETBITS 1 the bit 1; with PEND = 0 two do. -/
def Obligations.ShortCyclePairIsAOneBit : Prop :=
  ∀ (s : State) (d : Edge) (c f r : Nat), AtCrossing s d c → WaveCycle s d s.stream.pos.toNat f r →
    (r - c) * s.handle.act.freqLim.toNat < s.handle.wav.srate.toNat →
    (s.stream.track.pend = true →
      exec (.getbits 1#4) s = .next (finish .ok (setResult 1#32 (setStream (afterCycle s.stream d c r) s)))) ∧
    (s.stream.track.pend = false → ∀ f' r', WaveCycle s d (r + 1) f' r' →
      (r' - r) * s.handle.act.freqLim.toNat < s.handle.wav.srate.toNat →
      exec (.getbits 1#4) s = .next (finish .ok (setResult 1#32 (setStream (afterCycle s.stream d r r') s))))

/-- The first crossing (42_wav_demod.md R85, R87). With the canonical direction unresolved it fixes it: from the opposite
level, the first sample beyond the dead band on the side of direction d makes d canonical, whatever GETBITS asks for. From
any start, after OPEN or SEEK too (LEVEL UNKNOWN, C1V 0, a direction resolved or not), the first canonical crossing only
primes CROSS1 (R88): the command reads on from it as from that crossing, no cycle measured; and where the audio ends before
another cycle does, CROSS1 is that crossing, C0V is 0 and LASTCYCLE is as it was. -/
def Obligations.FirstCrossingResolvesTheDirection : Prop :=
  (∀ (n : BitVec 4) (s : State) (d : Edge) (f : Nat), s.handle.kind = .wav → countLegal n = true → s.hazard = [] →
    s.stream.track.dir = none → s.stream.track.level = levelAfter (flipEdge d) →
    s.stream.pos.toNat ≤ f → f < s.handle.wav.nsamples.toNat →
    (∀ i, s.stream.pos.toNat ≤ i → i < f → ¬ Beyond s d i) → Beyond s d f →
    ∃ t, exec (.getbits n) s = .next t ∧ t.stream.track.dir = some d ∧ f < t.stream.pos.toNat) ∧
  (∀ (i : Instr) (s : State) (d : Edge) (f : Nat), s.handle.kind = .wav →
    (i = .readbyte ∨ ∃ n, countLegal n = true ∧ i = .getbits n) → s.hazard = [] → s.stream.track.cross1 = none →
    FirstCanonical s d f →
    let primed := setStream (primedAt s d f) s
    AtCrossing primed d f ∧ exec i s = exec i primed ∧
    ∀ lv, NoCycleLeft s d (f + 1) lv →
      exec i s = .next (audioEnd (if s.stream.track.pend then 2#4 else 1#4)
        (atAudioEnd s { (primedAt s d f).track with level := lv }) s))

/-- The end of the audio (42_wav_demod.md R91): GETBITS and READBYTE fail E_EOS, detail 2 when one short cycle of a 1 bit
has been seen, else 1, with RESULT 0. The cursor is at NSAMPLES, or where it was if it stood there or beyond, and the
tracking is as the last sample left it: unchanged if no sample leaves the dead band; with the last level if there is no
canonical crossing any more, or if from a crossing on no cycle ends; with PEND 1 and that cycle's crossings if one short cycle does. -/
def Obligations.AudioEndReportsMidBit : Prop :=
  ∀ (i : Instr) (s : State), s.handle.kind = .wav → (i = .readbyte ∨ ∃ n, countLegal n = true ∧ i = .getbits n) →
    let tr := s.stream.track
    let detail : BitVec 4 := if tr.pend then 2#4 else 1#4
    (s.handle.wav.nsamples ≤ s.stream.pos → exec i s = .next (audioEnd detail s.stream s)) ∧
    (s.stream.pos ≤ s.handle.wav.nsamples → s.hazard = [] →
      (∀ j, s.stream.pos.toNat ≤ j → j < s.handle.wav.nsamples.toNat → ¬ Beyond s .rising j ∧ ¬ Beyond s .falling j) →
      exec i s = .next (audioEnd detail (atAudioEnd s tr) s)) ∧
    (s.stream.pos ≤ s.handle.wav.nsamples → s.hazard = [] →
      (∀ e j, tr.dir = none ∨ tr.dir = some e → ¬ CrossesAt s s.stream.pos.toNat tr.level e j) →
      exec i s = .next (audioEnd detail (atAudioEnd s { tr with
        level := levelFrom s s.stream.pos.toNat tr.level
          (s.handle.wav.nsamples.toNat - s.stream.pos.toNat) }) s)) ∧
    (∀ (d : Edge) (c : Nat), AtCrossing s d c →
      (∀ lv, s.stream.pos ≤ s.handle.wav.nsamples → NoCycleLeft s d s.stream.pos.toNat lv →
        exec i s = .next (audioEnd detail (atAudioEnd s { tr with level := lv }) s)) ∧
      (∀ f r lv, WaveCycle s d s.stream.pos.toNat f r →
        (r - c) * s.handle.act.freqLim.toNat < s.handle.wav.srate.toNat → tr.pend = false →
        NoCycleLeft s d (r + 1) lv →
        exec i s = .next (audioEnd 2#4
          (atAudioEnd s { (afterCycle s.stream d c r).track with level := lv, pend := true }) s)))

/-- Parity symmetry (42_wav_demod.md R93, which the spec derives): over negated samples, from mirrored tracking states,
GETBITS gives the same bits and status and mirrored tracking states again. -/
def Obligations.NegatedAudioDecodesAlike : Prop :=
  ∀ (n : BitVec 4) (s s' t : State), Mirrored s s' → s'.stream = mirrorStream s.stream →
    exec (.getbits n) s = .next t →
    ∃ t', exec (.getbits n) s' = .next t' ∧ t'.err = t.err ∧ t'.detail = t.detail ∧
      (countLegal n = true → t'.handle.result = t.handle.result) ∧
      Mirrored t t' ∧ t'.stream = mirrorStream t.stream

/-! ## Seek-Sync and the block state machine on a CAS handle -/

/-- SEEKSYNC (43_framing.md R96 to R98): it stops just past the first place where the last 16 bits of this scan are the
sync pattern, at any bit position; at the bound with E_FRAMING 1; at the end of the stream with END and EOF. SCANCOUNT and
RESULT are the bits taken. On a CAS handle the bits are the image's; on either container they are the bits that as many
commands GETBITS 1 return. -/
def Obligations.SeeksyncFindsTheFirstMarker : Prop :=
  (∀ s : State, s.handle.kind = .cas →
    (∀ k, CleanBits s (casIndex s.stream) k → FirstMarker s (casIndex s.stream) k → k ≤ casLeft s → WithinBound s k →
      exec .seeksync s = .next (finish .ok (soughtTo k (advance s.stream k) s))) ∧
    (∀ k, CleanBits s (casIndex s.stream) k → k = s.handle.act.scanMax.toNat → k ≠ 0 → k ≤ casLeft s →
      (∀ j, j ≤ k → ¬ MarkerAt s (casIndex s.stream) j) →
      exec .seeksync s = .next (fail .eFraming 1#4 (soughtTo k (advance s.stream k) s))) ∧
    (CleanBits s (casIndex s.stream) (casLeft s) →
      (s.handle.act.scanMax = 0#32 ∨ casLeft s < s.handle.act.scanMax.toNat) →
      (∀ j, j ≤ casLeft s → ¬ MarkerAt s (casIndex s.stream) j) →
      exec .seeksync s = .next (finish .atEnd (setEof true
        (soughtTo (casLeft s) (advance s.stream (casLeft s)) s))))) ∧
  (∀ (s t : State) (k : Nat) (bs : List Bool), s.isOpen = true → bitByBit k s = some (bs, t) →
    (∀ j, j < k → ¬ EndsInSync s (bs.take j)) →
    (EndsInSync s bs → WithinBound s k → exec .seeksync s = .next (finish .ok (soughtTo k t.stream s))) ∧
    (¬ EndsInSync s bs → k = s.handle.act.scanMax.toNat → k ≠ 0 →
      exec .seeksync s = .next (fail .eFraming 1#4 (soughtTo k t.stream s))) ∧
    (¬ EndsInSync s bs → s.handle.act.scanMax = 0#32 ∨ k < s.handle.act.scanMax.toNat →
      ∀ u, exec (.getbits 1#4) t = .next u → u.err ≠ .ok →
        exec .seeksync s = .next (finish .atEnd (setEof true (soughtTo k u.stream s)))))

/-- NEXTBLOCK on a CAS handle that finds a marker and a block read up to its checksum byte (43_framing.md R99 to R107):
the held block is the frame's; a wrong checksum is E_CHECKSUM with the cursor at the trailer; then a missing trailer is
E_EOS 3, a wrong one E_TRAILER past it, a right one a valid block, EOF saying whether its type is P_EOF_TYPE. -/
def Obligations.NextblockReadsTheFrame : Prop :=
  ∀ (s : State) (k : Nat), s.handle.kind = .cas → FirstMarker s (casIndex s.stream) k → WithinBound s k →
    let c := casIndex s.stream + k
    let h := frameHeld s c false
    let body := k + 24 + 8 * h.blkLen.toNat
    body ≤ casLeft s → CleanBits s (casIndex s.stream) (min (body + 8) (casLeft s)) →
    (h.csumRx ≠ h.csumCalc →
      exec .nextblock s = .next (fail .eChecksum 0#4 (attempted k body h s))) ∧
    (h.csumRx = h.csumCalc → casLeft s < body + 8 →
      exec .nextblock s = .next (fail .eEos 3#4 (attempted k (casLeft s) h s))) ∧
    (h.csumRx = h.csumCalc → body + 8 ≤ casLeft s →
      streamByte s (casIndex s.stream + body) ≠ s.params.trailer →
      exec .nextblock s = .next (fail .eTrailer 0#4 (attempted k (body + 8) h s))) ∧
    (h.csumRx = h.csumCalc → body + 8 ≤ casLeft s →
      streamByte s (casIndex s.stream + body) = s.params.trailer →
      exec .nextblock s = .next (finish .ok (setResult (0#16 ++ h.blkLen ++ h.blkType)
        (setEof (decide (h.blkType = s.params.eofType)) (attempted k (body + 8) (frameHeld s c true) s)))))

/-- NEXTBLOCK of a frame cut short inside its header, its payload or before its checksum byte (43_framing.md R99, R101,
R102): E_EOS 3, the cursor at the end, no valid block, the fields read so far in BLKINFO and BUF and the rest 0. On a CAS
handle the fields are the image's bytes; on either container they are the bytes that so many READBYTEs return after a
SEEKSYNC that found the marker. -/
def Obligations.NextblockOfATruncatedFrame : Prop :=
  (∀ (s : State) (k : Nat), s.handle.kind = .cas → CleanBits s (casIndex s.stream) (casLeft s) →
    FirstMarker s (casIndex s.stream) k → WithinBound s k → k ≤ casLeft s →
    (casLeft s < k + 16 ∨ casLeft s < k + 24 + 8 * (streamByte s (casIndex s.stream + k + 8)).toNat) →
    exec .nextblock s = .next (fail .eEos 3#4
      (attempted k (casLeft s) (truncatedHeld s (casIndex s.stream + k) (casLeft s - k)) s))) ∧
  (∀ (s t0 t1 u : State) (n : Nat) (bs : List Byte), s.isOpen = true → exec .seeksync s = .next t0 → t0.err = .ok →
    readbytes n t0 = some (bs, t1) → exec .readbyte t1 = .next u → u.err ≠ .ok →
    (n < 2 ∨ n < (bs.getD 1 0#8).toNat + 3) →
    exec .nextblock s = .next (fail .eEos 3#4 (setHeld
      { valid := false, blkType := bs.getD 0 0#8, blkLen := bs.getD 1 0#8, csumRx := 0#8, csumCalc := 0#8
        buf := Vector.ofFn fun i : Fin 256 => bs.getD (i.val + 2) 0#8 } u)))

/-- NEXTBLOCK scans as SEEKSYNC does, on either container (43_framing.md R97 to R99, R107): the same SCANCOUNT; where
SEEKSYNC ends with END or E_FRAMING, NEXTBLOCK ends with the same status, cursor, EOF and sticky bits, RESULT 0 and an
empty held block. -/
def Obligations.NextblockScansLikeSeeksync : Prop :=
  ∀ s t : State, s.isOpen = true → exec .seeksync s = .next t →
    ∃ u, exec .nextblock s = .next u ∧ u.handle.scanCount = t.handle.scanCount ∧
      (t.err ≠ .ok → u = setHeld Held.empty (setResult 0#32 t))

/-- NEXTBLOCK reads a frame as READBYTE would, on either container (43_framing.md R94, R99, R101 to R107): after a
SEEKSYNC that found the marker, the bytes type, length, payload, checksum and trailer that so many READBYTEs return. A
wrong checksum is E_CHECKSUM before the trailer is read, a missing trailer E_EOS 3, a wrong one E_TRAILER; else the block is
valid. -/
def Obligations.NextblockReadsWhatReadbyteReads : Prop :=
  ∀ (s t0 t1 : State) (typ len rx : Byte) (payload : List Byte), s.isOpen = true →
    exec .seeksync s = .next t0 → t0.err = .ok → payload.length = len.toNat →
    readbytes (len.toNat + 3) t0 = some (typ :: len :: (payload ++ [rx]), t1) →
    let sum := checksum s.params typ len payload
    let h : Bool → Held := fun valid =>
      { valid := valid, blkType := typ, blkLen := len, csumRx := rx, csumCalc := sum
        buf := Vector.ofFn fun i : Fin 256 => payload.getD i.val 0#8 }
    (rx ≠ sum → exec .nextblock s = .next (fail .eChecksum 0#4 (setHeld (h false) (setResult 0#32 t1)))) ∧
    (rx = sum → ∀ u : State, exec .readbyte t1 = .next u → u.err ≠ .ok →
      exec .nextblock s = .next (fail .eEos 3#4 (setHeld (h false) u))) ∧
    (rx = sum → ∀ (trl : Byte) (t2 : State), readbytes 1 t1 = some ([trl], t2) →
      (trl ≠ s.params.trailer →
        exec .nextblock s = .next (fail .eTrailer 0#4 (setHeld (h false) (setResult 0#32 t2)))) ∧
      (trl = s.params.trailer →
        exec .nextblock s = .next (setEof (decide (typ = s.params.eofType))
          (setHeld (h true) (setResult (0#16 ++ len ++ typ) t2)))))

/-- Every block attempt starts from an empty held block (43_framing.md R100): what the held block was changes nothing of
NEXTBLOCK's outcome, on either container. -/
def Obligations.EarlierBlockNeverShowsThrough : Prop :=
  ∀ (s : State) (h : Held), s.isOpen = true → exec .nextblock (setHeld h s) = exec .nextblock s

/-- NEXTDIR on a CAS handle whose first frame is a whole directory block of at least 15 bytes (43_framing.md R108, R109):
the payload's bytes in the directory registers, addresses high byte first, the start-of-file cursor at the start of the
scan, EOF 0, and nothing else changed. -/
def Obligations.NextdirReadsTheDirectoryFrame : Prop :=
  ∀ (s : State) (k : Nat), s.handle.kind = .cas → FirstMarker s (casIndex s.stream) k → WithinBound s k →
    let c := casIndex s.stream + k
    let h := frameHeld s c true
    let body := k + 24 + 8 * h.blkLen.toNat
    body + 8 ≤ casLeft s → CleanBits s (casIndex s.stream) (body + 8) → h.csumRx = h.csumCalc →
    streamByte s (casIndex s.stream + body) = s.params.trailer → h.blkType = 0x00#8 → 15 ≤ h.blkLen.toNat →
    exec .nextdir s = .next (finish .ok (setResult (h.buf[8].setWidth 32) (setEof false
      (setSof s.stream.pos s.stream.posBit (setDir
        { valid := true
          name0 := h.buf[3] ++ h.buf[2] ++ h.buf[1] ++ h.buf[0]
          name1 := h.buf[7] ++ h.buf[6] ++ h.buf[5] ++ h.buf[4]
          ftype := h.buf[8], ascii := h.buf[9], gap := h.buf[10]
          load := h.buf[11] ++ h.buf[12]
          exec := h.buf[13] ++ h.buf[14] } (attempted k (body + 8) h s))))))

/-- NEXTDIR where NEXTBLOCK would find a valid directory block of at least 15 bytes (43_framing.md R108, R109, on either
container): the payload's bytes in the directory registers, the start-of-file cursor at the start of the scan, EOF 0; the
block, SCANCOUNT and the cursor as NEXTBLOCK leaves them. -/
def Obligations.NextdirDecodesADirectoryBlock : Prop :=
  ∀ s b : State, s.isOpen = true → exec .nextblock s = .next b → b.err = .ok →
    let h := b.handle.held
    h.blkType = 0x00#8 → 15 ≤ h.blkLen.toNat →
    ∃ t, exec .nextdir s = .next t ∧ t.err = .ok ∧ t.detail = 0#4 ∧
      regValue .dirname0 t = h.buf[3] ++ h.buf[2] ++ h.buf[1] ++ h.buf[0] ∧
      regValue .dirname1 t = h.buf[7] ++ h.buf[6] ++ h.buf[5] ++ h.buf[4] ∧
      regValue .dirinfo t = 0#8 ++ h.buf[10] ++ h.buf[9] ++ h.buf[8] ∧
      regValue .diraddr t = (h.buf[13] ++ h.buf[14]) ++ (h.buf[11] ++ h.buf[12]) ∧
      regValue .result t = h.buf[8].setWidth 32 ∧
      t.handle.sofPos = s.stream.pos ∧ t.handle.sofBit = s.stream.posBit ∧
      t.handle.dir.valid = true ∧ t.handle.eof = false ∧
      t.handle.held = h ∧ t.handle.scanCount = b.handle.scanCount ∧ t.stream = b.stream

/-- NEXTDIR skips a valid block of any other type, final blocks included (43_framing.md R108): it then does just what it
would do from where NEXTBLOCK left that block, EOF apart, which a skipped block does not change. -/
def Obligations.NextdirSkipsOtherBlocks : Prop :=
  ∀ s b : State, s.isOpen = true → exec .nextblock s = .next b → b.err = .ok → b.handle.held.blkType ≠ 0x00#8 →
    exec .nextdir s = exec .nextdir (setEof s.handle.eof b)

/-- NEXTDIR where NEXTBLOCK would meet the end or an error ends as NEXTBLOCK does; a directory block shorter than 15 bytes
is E_DIRFMT with the block held and valid (43_framing.md R108). The directory registers read 0 in each case. -/
def Obligations.NextdirStopsWithoutAnEntry : Prop :=
  ∀ s b : State, s.isOpen = true → exec .nextblock s = .next b →
    (b.err ≠ .ok → exec .nextdir s = .next (setDir DirEntry.empty b)) ∧
    (b.err = .ok → b.handle.held.blkType = 0x00#8 → b.handle.held.blkLen.toNat < 15 →
      b.handle.held.valid = true ∧
      exec .nextdir s = .next (fail .eDirfmt 0#4
        (setDir DirEntry.empty (setEof s.handle.eof (setResult 0#32 b)))))

/-- The default checksum is the 8-bit sum of the type, the length and the payload (43_framing.md R103). With it a change of
exactly one bit in the type, the length or the payload changes the checksum (R111, which the spec derives), so Verify
fails. -/
def Obligations.SingleBitFlipChangesTheChecksum : Prop :=
  ∀ (p : Config.Params) (typ len : Byte) (payload : List Byte) (j : Nat), p.checksum = .sum8 → j < 8 →
    (checksum p typ len payload).toNat = (typ.toNat + len.toNat + (payload.map BitVec.toNat).sum) % 256 ∧
    checksum p (typ ^^^ (1#8 <<< j)) len payload ≠ checksum p typ len payload ∧
    checksum p typ (len ^^^ (1#8 <<< j)) payload ≠ checksum p typ len payload ∧
    ∀ (i : Nat) (b : Byte), payload[i]? = some b →
      checksum p typ len (payload.set i (b ^^^ (1#8 <<< j))) ≠ checksum p typ len payload

/-! ## Frames -/

/-- What no command changes: the image memory (20_memory.md R43), the default and argument registers (40_lifecycle.md
R73, 10_state.md R11), the parameters and the world's own fields. -/
def Obligations.CommandsLeaveImageAndDefaultsAlone : Prop :=
  ∀ (i : Instr) (s t : State), exec i s = .next t →
    t.mem = s.mem ∧ (∀ a, t.mem.read a = s.mem.read a) ∧ t.defaults = s.defaults ∧ t.arg = s.arg ∧
    t.argBit = s.argBit ∧ t.params = s.params ∧ t.hostDraws = s.hostDraws ∧ t.busData = s.busData ∧
    t.agenda = s.agenda ∧ (i ≠ .openHandle → t.hazard = s.hazard)

/-- Frame of the reading commands: the kind, the WAV parameters and the snapshot are unchanged. GETBITS and READBYTE
change RESULT alone of the handle's registers (41_cas_bitreader.md R80, 43_framing.md R95); SEEKSYNC also SCANCOUNT and
EOF (R98); NEXTBLOCK also the held block (R107); NEXTDIR also the directory registers and, only when it succeeds, the
start-of-file cursor (R108). -/
def Obligations.ReadersFrame : Prop :=
  ∀ (i : Instr) (s t : State), exec i s = .next t →
    ((i = .readbyte ∨ ∃ n, i = .getbits n) → t.handle = { s.handle with result := t.handle.result }) ∧
    (i = .seeksync → t.handle = { s.handle with
      result := t.handle.result, scanCount := t.handle.scanCount, eof := t.handle.eof }) ∧
    (i = .nextblock → t.handle = { s.handle with
      result := t.handle.result, scanCount := t.handle.scanCount, eof := t.handle.eof, held := t.handle.held }) ∧
    (i = .nextdir →
      t.handle = { s.handle with
        result := t.handle.result, scanCount := t.handle.scanCount, eof := t.handle.eof, held := t.handle.held
        dir := t.handle.dir, sofPos := t.handle.sofPos, sofBit := t.handle.sofBit } ∧
      (t.err ≠ .ok → t.handle.sofPos = s.handle.sofPos ∧ t.handle.sofBit = s.handle.sofBit))

/-- A command changes only its own container's cursor state: on a CAS handle no reading command changes WAVSTATE, the
crossings or LASTCYCLE (41_cas_bitreader.md R78); on a WAV handle none changes POSBIT (10_state.md R28, R40). -/
def Obligations.ContainersKeepToTheirOwnCursor : Prop :=
  ∀ (i : Instr) (s t : State), i ≠ .openHandle → i ≠ .close → i ≠ .seek → exec i s = .next t →
    (s.handle.kind = .cas → t.stream.track = s.stream.track) ∧
    (s.handle.kind = .wav → t.stream.posBit = s.stream.posBit) ∧
    (s.handle.kind = .none → t.stream = s.stream)

/-! ## Whole-machine rules -/

/-- The EOF flag changes only as 43_framing.md R110 (which the spec derives) lists. -/
def Obligations.EofChangesOnlyAsListed : Prop :=
  ∀ (i : Instr) (s t : State), exec i s = .next t →
    (s.handle.eof = false → t.handle.eof = true →
      (i = .nextblock ∧ t.err = .ok ∧ t.handle.held.valid = true ∧ t.handle.held.blkType = s.params.eofType) ∨
      ((i = .nextblock ∨ i = .nextdir ∨ i = .seeksync) ∧ t.err = .atEnd)) ∧
    (s.handle.eof = true → t.handle.eof = false →
      i = .openHandle ∨ i = .close ∨ i = .seek ∨
      (i = .nextblock ∧ t.err = .ok ∧ t.handle.held.blkType ≠ s.params.eofType) ∨ (i = .nextdir ∧ t.err = .ok))

/-- Every command records its error, and only its error, in ERRSTICKY (10_state.md R37, 60_exceptions.md R117). -/
def Obligations.StickyBitRecordsTheError : Prop :=
  ∀ (i : Instr) (s t : State), exec i s = .next t →
    ∀ k, k < 32 → t.errSticky.getLsbD k = (s.errSticky.getLsbD k || (decide (k = t.err.number) && isError t.err))

/-- Once resolved, the canonical direction is fixed until CLOSE or the next OPEN (42_wav_demod.md R85), and no reading
command moves the cursor back (10_state.md R13, which the spec derives): only OPEN, SEEK and CLOSE may. -/
def Obligations.DirectionStaysAndCursorNeverMovesBack : Prop :=
  ∀ (i : Instr) (s t : State), i ≠ .openHandle → i ≠ .close → exec i s = .next t →
    (∀ d, s.stream.track.dir = some d → t.stream.track.dir = some d) ∧
    (i ≠ .seek → casIndex s.stream ≤ casIndex t.stream)

/-- Changing the defaults while a handle is open has no effect on it (10_state.md R36): every command but OPEN does the
same whatever the default registers hold. Every command but SEEK does the same whatever ARG and ARGBIT hold
(00_scope.md R10, 10_state.md R24). -/
def Obligations.OnlyOpenReadsDefaultsOnlySeekReadsArguments : Prop :=
  ∀ (i : Instr) (s t : State), exec i s = .next t →
    (∀ d : ConfigRegs, i ≠ .openHandle → exec i { s with defaults := d } = .next { t with defaults := d }) ∧
    (∀ (a : Word) (b : BitVec 3), i ≠ .seek →
      exec i { s with arg := a, argBit := b } = .next { t with arg := a, argBit := b })

/-- The block reads no image byte at or above ACTLEN (10_state.md R23, 20_memory.md R41): two images that agree below it
give the same run of every command, OPEN by IMGLEN. -/
def Obligations.BytesAboveTheLengthAreNeverRead : Prop :=
  ∀ (i : Instr) (s t : State) (cells : List Host.Cell), Inv s →
    let m : Memory := { s.mem with cells := cells }
    (i ≠ .openHandle → ∀ a, a < s.handle.act.imgLen.toNat → m.read a = s.mem.read a) →
    (i = .openHandle → ∀ a, a < s.defaults.imgLen.toNat → m.read a = s.mem.read a) →
    exec i s = .next t → exec i { s with mem := m } = .next { t with mem := m }

/-- Instances share no state (20_memory.md R52): a step of one leaves every other as it was, and what it does to its own
depends on that one alone. -/
def Obligations.InstancesAreIndependent : Prop :=
  ∀ (p q : Platform) (k : Nat), p.step k = .next q →
    (∀ j, j ≠ k → q.units[j]? = p.units[j]?) ∧
    (∀ s, p.units[k]? = some s → ∃ s', step s = .next s' ∧ q.units[k]? = some s')

/-! ## The invariant -/

/-- The state right after reset is in good order. -/
def Obligations.ResetMeetsTheInvariant : Prop := Inv State.reset

/-- Every step keeps the invariant (10_state.md R40, which the spec derives, with R34, R35, R37; 60_exceptions.md R113;
42_wav_demod.md R85, R88; 20_memory.md R41), from every state that meets it. -/
def Obligations.EveryStepKeepsTheInvariant : Prop :=
  ∀ s t : State, Inv s → step s = .next t → Inv t
end

