-- ==== Sys2Proof/Laws/Bits.lean ====
section
/-! SUPPORT. The laws of packing bits (41_cas_bitreader.md R80, 43_framing.md R94) and of reading several bits. -/

namespace Sys2Proof.Machine

theorem packMsb_append (l : List Bool) (b : Bool) : packMsb (l ++ [b]) = 2 * packMsb l + b.toNat := by
  simp only [packMsb, List.foldl_append, List.foldl_cons, List.foldl_nil]

theorem packMsb_cons_acc (l : List Bool) (v : Nat) : l.foldl (fun v b => 2 * v + b.toNat) v = v * 2 ^ l.length + packMsb l := by
  induction l generalizing v with
  | nil => simp [packMsb]
  | cons b l ih =>
    have h : packMsb (b :: l) = b.toNat * 2 ^ l.length + packMsb l := by
      show l.foldl _ (2 * 0 + b.toNat) = _
      rw [ih]; simp
    rw [List.foldl_cons, ih, h, List.length_cons, pow_succ]; ring

/-- Packed bits fit their number. -/
theorem packMsb_lt (l : List Bool) : packMsb l < 2 ^ l.length := by
  induction l using List.reverseRecOn with
  | nil => simp [packMsb]
  | append_singleton l b ih =>
    have e : (l ++ [b]).length = l.length + 1 := by simp
    rw [packMsb_append, e, Nat.pow_succ]; have := b.toNat_le; omega

/-- Bit j of the sequence is the bit that `packMsb` puts `length − 1 − j` places up. -/
theorem packMsb_testBit (l : List Bool) (j : Nat) (h : j < l.length) : (packMsb l).testBit (l.length - 1 - j) = l[j] := by
  induction l using List.reverseRecOn with
  | nil => simp at h
  | append_singleton l b ih =>
    rw [packMsb_append]
    simp only [List.length_append, List.length_singleton] at h ⊢
    by_cases hj : j = l.length
    · subst hj
      simp
      cases b <;> simp
    · rw [List.getElem_append_left (by omega), ← ih (by omega)]
      have e : l.length + 1 - 1 - j = (l.length - 1 - j) + 1 := by omega
      rw [e, Nat.testBit_succ]
      congr 1
      have := b.toNat_le; omega

/-- Packing two sequences in a row. -/
theorem packMsb_add (l m : List Bool) : packMsb (l ++ m) = packMsb l * 2 ^ m.length + packMsb m := by
  rw [packMsb, List.foldl_append, packMsb_cons_acc]; rfl

/-- Bit j of the sequence is bit j of `packLsb`. -/
theorem packLsb_testBit (l : List Bool) (j : Nat) (h : j < l.length) : (packLsb l).testBit j = l[j] := by
  induction l generalizing j with
  | nil => simp at h
  | cons b l ih =>
    cases j with
    | zero => cases b <;> simp [packLsb, Nat.testBit_zero]
    | succ j =>
      rw [packLsb, Nat.testBit_succ, List.getElem_cons_succ, ← ih j (by simpa using h)]
      congr 1; have := b.toNat_le; omega

theorem packLsb_lt (l : List Bool) : packLsb l < 2 ^ l.length := by
  induction l with
  | nil => simp [packLsb]
  | cons b l ih => simp only [packLsb, List.length_cons, pow_succ]; have := b.toNat_le; omega

/-- Eight bits packed with the first one most significant, as a sum. -/
theorem packMsb_eight (f : Nat → Bool) :
    packMsb ((List.range 8).map f) = ((List.range 8).map fun j => (f j).toNat * 2 ^ (7 - j)).sum := by
  have hr : List.range 8 = [0, 1, 2, 3, 4, 5, 6, 7] := by decide
  simp only [hr, List.map_cons, List.map_nil, packMsb, List.foldl_cons, List.foldl_nil, List.sum_cons, List.sum_nil]
  ring

/-- Eight bits packed with the first one least significant, as a sum. -/
theorem packLsb_eight (f : Nat → Bool) :
    packLsb ((List.range 8).map f) = ((List.range 8).map fun j => (f j).toNat * 2 ^ j).sum := by
  have hr : List.range 8 = [0, 1, 2, 3, 4, 5, 6, 7] := by decide
  simp only [hr, List.map_cons, List.map_nil, packLsb, List.sum_cons, List.sum_nil]
  ring

/-- A read of n bits gives n bits. -/
theorem takeBits_length {s : State} {n : Nat} {t t' : Stream} {bs : List Bool} (h : takeBits s n t = .bits bs t') : bs.length = n := by
  induction n generalizing t bs t' with
  | zero => simp only [takeBits, BitsRead.bits.injEq] at h; simp [← h.1]
  | succ n ih =>
    rw [takeBits] at h
    cases hb : nextBit s t with
    | ended m u => rw [hb] at h; cases h
    | bit b u =>
      rw [hb] at h; simp only at h
      cases hr : takeBits s n u with
      | ended m v => rw [hr] at h; cases h
      | bits bs' v => rw [hr] at h; simp only [BitsRead.bits.injEq] at h; rw [← h.1]; simp [ih hr]

/-- Reading n + m bits is reading n bits and then m (41_cas_bitreader.md R81). -/
theorem takeBits_add {s : State} (n m : Nat) (t : Stream) : takeBits s (n + m) t =
    match takeBits s n t with
    | .ended mid t' => .ended mid t'
    | .bits bs t' => match takeBits s m t' with
      | .ended mid t'' => .ended mid t''
      | .bits cs t'' => .bits (bs ++ cs) t'' := by
  induction n generalizing t with
  | zero => simp [takeBits]; cases takeBits s m t <;> rfl
  | succ n ih =>
    rw [Nat.succ_add, takeBits, takeBits]
    cases nextBit s t with
    | ended mid u => rfl
    | bit b u =>
      simp only [ih]
      cases takeBits s n u with
      | ended mid u => rfl
      | bits bs v => 
        simp only
        cases takeBits s m v <;> rfl

end Sys2Proof.Machine
end

