-- ==== Sys2Proof/Laws/Cas.lean ====
section
/-! SUPPORT. The CAS bit source and the framing engine over it, as functions of the image's bit sequence (41_cas_bitreader.md R78 to R81, 43_framing.md R94 to R97), on bytes that are not hazards. -/

open Sys2Proof.Claims

namespace Sys2Proof.Machine

theorem casIndex_lt (t : Stream) : casIndex t < 2 ^ 35 := by
  have := t.pos.isLt; have := t.posBit.isLt; unfold casIndex; omega

theorem casIndex_advance {t : Stream} {n : Nat} (h : casIndex t + n < 2 ^ 35) :
    casIndex (advance t n) = casIndex t + n := by
  simp only [casIndex, advance, BitVec.toNat_ofNat] at h ⊢
  omega

theorem advance_zero (t : Stream) : advance t 0 = t := by
  have h1 : BitVec.ofNat 32 (casIndex t / 8) = t.pos := by
    apply BitVec.eq_of_toNat_eq
    have := t.posBit.isLt; have := t.pos.isLt
    simp only [BitVec.toNat_ofNat, casIndex]; omega
  have h2 : BitVec.ofNat 3 (casIndex t % 8) = t.posBit := by
    apply BitVec.eq_of_toNat_eq
    have := t.posBit.isLt
    simp only [BitVec.toNat_ofNat, casIndex]; omega
  simp only [advance, Nat.add_zero, h1, h2]

theorem advance_advance {t : Stream} {a b : Nat} (h : casIndex t + a < 2 ^ 35) :
    advance (advance t a) b = advance t (a + b) := by
  have := casIndex_advance h
  simp only [advance] at this ⊢
  simp only [this, Nat.add_assoc]

theorem casEnd_le (s : State) : casEnd s ≤ 8 * (2 ^ 32 - 1) := by
  have := s.handle.act.imgLen.isLt; unfold casEnd; omega

/-- At or beyond ACTLEN a CAS read meets the end. -/
theorem casNextBit_ended {s : State} {t : Stream} (h : casEnd s ≤ casIndex t) : casNextBit s t = .ended false t := by
  have : s.handle.act.imgLen ≤ t.pos := by
    rw [BitVec.le_def]; have := t.posBit.isLt; unfold casEnd casIndex at h; omega
  simp only [casNextBit, if_pos this]

/-- A CAS bit is the bit of the sequence at the cursor, and the cursor moves one bit on. -/
theorem casNextBit_bit {s : State} {t : Stream} (h : casIndex t < casEnd s) (hc : CleanBits s (casIndex t) 1) :
    casNextBit s t = .bit (imageBit s (casIndex t)) (advance t 1) := by
  have hb := t.posBit.isLt
  have h1 : ¬ s.handle.act.imgLen ≤ t.pos := by
    rw [BitVec.le_def]; unfold casEnd casIndex at h; omega
  have hd : casIndex t / 8 = t.pos.toNat := by unfold casIndex; omega
  have hm : casIndex t % 8 = t.posBit.toNat := by unfold casIndex; omega
  have hz : t.pos.toNat ∉ s.hazard := by
    have := hc (casIndex t) (le_refl _) (by omega); rwa [hd] at this
  have hl := casEnd_le s
  simp only [casNextBit, if_neg h1, readImage, if_neg hz, imageBit, hd, hm]
  by_cases h7 : t.posBit = 7#3
  · have hpos : BitVec.ofNat 32 ((casIndex t + 1) / 8) = t.pos + 1#32 := by
      apply BitVec.eq_of_toNat_eq
      simp only [BitVec.toNat_ofNat, BitVec.toNat_add, casIndex, h7]; omega
    have hbit : BitVec.ofNat 3 ((casIndex t + 1) % 8) = 0#3 := by
      apply BitVec.eq_of_toNat_eq
      simp only [BitVec.toNat_ofNat, casIndex, h7]; omega
    simp only [if_pos h7, advance, hpos, hbit]
  · have h7' : t.posBit.toNat ≠ 7 := fun e => h7 (BitVec.eq_of_toNat_eq (by simpa using e))
    have hpos : BitVec.ofNat 32 ((casIndex t + 1) / 8) = t.pos := by
      apply BitVec.eq_of_toNat_eq
      have := t.pos.isLt
      simp only [BitVec.toNat_ofNat, casIndex]; omega
    have hbit : BitVec.ofNat 3 ((casIndex t + 1) % 8) = t.posBit + 1#3 := by
      apply BitVec.eq_of_toNat_eq
      simp only [BitVec.toNat_ofNat, BitVec.toNat_add, casIndex]; omega
    simp only [if_neg h7, advance, hpos, hbit]

theorem nextBit_cas {s : State} (hk : s.handle.kind = .cas) (t : Stream) : nextBit s t = casNextBit s t := by
  simp only [nextBit, hk]

theorem cleanBits_sub {s : State} {c n c' n' : Nat} (h : CleanBits s c n) (h1 : c ≤ c') (h2 : c' + n' ≤ c + n) :
    CleanBits s c' n' := fun k hk hk' => h k (by omega) (by omega)

/-- n CAS bits are the next n bits of the sequence. -/
theorem takeBits_cas {s : State} (hk : s.handle.kind = .cas) (n : Nat) (t : Stream)
    (h : casIndex t + n ≤ casEnd s) (hc : CleanBits s (casIndex t) n) :
    takeBits s n t = .bits ((List.range n).map fun j => imageBit s (casIndex t + j)) (advance t n) := by
  have hl := casEnd_le s
  induction n generalizing t with
  | zero => simp [takeBits, advance_zero]
  | succ n ih =>
    have ha : casIndex (advance t 1) = casIndex t + 1 := casIndex_advance (by omega)
    rw [takeBits, nextBit_cas hk, casNextBit_bit (by omega) (cleanBits_sub hc (le_refl _) (by omega))]
    simp only
    rw [ih (advance t 1) (by omega) (cleanBits_sub hc (by omega) (by omega)), ha, advance_advance (by omega), Nat.add_comm 1 n]
    simp only [List.range_succ_eq_map, List.map_cons, List.map_map, Nat.add_zero]
    congr 2
    apply List.map_congr_left
    intro j _
    simp only [Function.comp, Nat.succ_eq_add_one]
    congr 1; omega

/-- With fewer than n bits left the read consumes them and meets the end. -/
theorem takeBits_cas_ended {s : State} (hk : s.handle.kind = .cas) (n : Nat) (t : Stream) (h0 : 0 < n)
    (h : casEnd s < casIndex t + n) (hc : CleanBits s (casIndex t) (casEnd s - casIndex t)) :
    takeBits s n t = .ended false (advance t (casEnd s - casIndex t)) := by
  have hl := casEnd_le s
  induction n generalizing t with
  | zero => omega
  | succ n ih =>
    rw [takeBits, nextBit_cas hk]
    by_cases he : casEnd s ≤ casIndex t
    · rw [casNextBit_ended he, Nat.sub_eq_zero_of_le he, advance_zero]
    · have ha : casIndex (advance t 1) = casIndex t + 1 := casIndex_advance (by omega)
      rw [casNextBit_bit (by omega) (cleanBits_sub hc (le_refl _) (by omega))]
      simp only
      rw [ih (advance t 1) (by omega) (by omega) (by rw [ha]; exact cleanBits_sub hc (by omega) (by omega)), ha,
        advance_advance (by omega)]
      simp only
      congr 2; omega

/-- The last 16 bits, or all, of the first j from index c. -/
def lastBits (s : State) (c j : Nat) : List Bool :=
  (List.range (min j 16)).map fun i => imageBit s (c + (j - min j 16) + i)

/-- The sync window slides over the bit sequence. -/
theorem slide_lastBits (s : State) (c j : Nat) : slideWindow (lastBits s c j) (imageBit s (c + j)) = lastBits s c (j + 1) := by
  apply List.ext_getElem
  · simp [slideWindow, lastBits]; omega
  · intro i h1 h2
    simp only [slideWindow, lastBits, List.getElem_drop, List.length_map, List.length_range, List.getElem_map, List.getElem_range] at h1 h2 ⊢
    rw [List.getElem_append]
    split
    · rename_i h; simp only [List.length_map, List.length_range, List.getElem_map, List.getElem_range] at h ⊢; congr 1; omega
    · rename_i h; simp at h ⊢; congr 1; omega

theorem byteBits_eq (o : Bool) (b : Byte) : byteBits o b = (List.range 8).map fun j => b.getLsbD (if o then j else 7 - j) := by
  cases o <;> rfl

theorem syncPattern_eq (s : State) : syncPattern s = (List.range 16).map (syncBit s) := by
  rw [syncPattern, byteBits_eq, byteBits_eq]
  rw [show List.range 16 = List.range 8 ++ (List.range 8).map (· + 8) by decide, List.map_append, List.map_map]
  congr 1

/-- The window equals the pattern exactly at a marker (43_framing.md R96, R97). -/
theorem marker_iff (s : State) (c k : Nat) : MarkerAt s c k ↔ (lastBits s c k).length = 16 ∧ lastBits s c k = syncPattern s := by
  have hlen : (lastBits s c k).length = min k 16 := by simp [lastBits]
  rw [hlen, syncPattern_eq]
  constructor
  · rintro ⟨h, hb⟩
    refine ⟨by omega, ?_⟩
    have : min k 16 = 16 := by omega
    simp only [lastBits, this]
    apply List.map_congr_left
    intro i hi
    simp only [List.mem_range] at hi
    rw [← hb i hi]; congr 1; omega
  · rintro ⟨h, hb⟩
    refine ⟨by omega, fun j hj => ?_⟩
    have := congrArg (fun l => l[j]?) hb
    simp [lastBits, h, hj] at this
    rw [← this]; congr 1; omega

/-- A scan goes on over bits that end no marker and stay within the bound. -/
theorem seekLoop_run {s : State} (hk : s.handle.kind = .cas) (t : Stream) (fuel : Nat) {j m : Nat} (hjm : j ≤ m)
    (hm : casIndex t + m ≤ casEnd s) (hc : CleanBits s (casIndex t) m)
    (hb : s.handle.act.scanMax = 0#32 ∨ m ≤ s.handle.act.scanMax.toNat)
    (hn : ∀ i, j < i → i ≤ m → ¬ MarkerAt s (casIndex t) i) :
    seekSyncLoop s (fuel + (m - j)) (lastBits s (casIndex t) j) j (advance t j) =
      seekSyncLoop s fuel (lastBits s (casIndex t) m) m (advance t m) := by
  have hl := casEnd_le s
  obtain ⟨d, rfl⟩ := Nat.le.dest hjm
  induction d generalizing j with
  | zero => simp
  | succ d ih =>
    have e : fuel + (j + (d + 1) - j) = (fuel + (j + 1 + d - (j + 1))) + 1 := by omega
    rw [e, seekSyncLoop]
    have ha : casIndex (advance t j) = casIndex t + j := casIndex_advance (by omega)
    have h1 : ¬ (s.handle.act.scanMax ≠ 0#32 ∧ j = s.handle.act.scanMax.toNat) := by
      rintro ⟨h0, h⟩; rcases hb with hb | hb
      · exact h0 hb
      · omega
    rw [if_neg h1, nextBit_cas hk, casNextBit_bit (by omega) (cleanBits_sub hc (by omega) (by omega))]
    rw [ha]; simp only
    rw [slide_lastBits, advance_advance (by omega), if_neg (fun h => hn (j + 1) (by omega) (by omega) ((marker_iff s _ _).mpr h))]
    have e2 : j + (d + 1) = j + 1 + d := by omega
    rw [e2] at hm hc hb hn ⊢
    exact ih (by omega) hm hc hb (fun i hi => hn i (by omega))

theorem bitsLeft_cas {s : State} (hk : s.handle.kind = .cas) (t : Stream) : bitsLeft s t = casEnd s - casIndex t := by
  simp only [bitsLeft, hk, casEnd, casIndex]; omega

theorem lastBits_zero (s : State) (c : Nat) : lastBits s c 0 = [] := by simp [lastBits]

theorem streamByte_eq (s : State) (c : Nat) :
    packByte (cfgBitord s.handle.act.cfg) ((List.range 8).map fun j => imageBit s (c + j)) = streamByte s c := by
  rw [packByte, streamByte]
  cases cfgBitord s.handle.act.cfg
  · exact congrArg (BitVec.ofNat 8) (packMsb_eight fun j => imageBit s (c + j))
  · exact congrArg (BitVec.ofNat 8) (packLsb_eight fun j => imageBit s (c + j))

/-- `ReadByte()` on a CAS handle with 8 bits left. -/
theorem readByte_cas {s : State} (hk : s.handle.kind = .cas) (t : Stream) (h : casIndex t + 8 ≤ casEnd s)
    (hc : CleanBits s (casIndex t) 8) : readByte s t = .byte (streamByte s (casIndex t)) (advance t 8) := by
  rw [readByte, takeBits_cas hk _ _ h hc, ← streamByte_eq]

theorem readByte_cas_ended {s : State} (hk : s.handle.kind = .cas) (t : Stream) (h : casEnd s < casIndex t + 8)
    (hc : CleanBits s (casIndex t) (casEnd s - casIndex t)) : readByte s t = .ended false (advance t (casEnd s - casIndex t)) := by
  rw [readByte, takeBits_cas_ended hk _ _ (by omega) h hc]

/-- The buffer once its first i bytes have been read, from index c on. -/
def fillBuf (s : State) (c i : Nat) (buf : Vector Byte 256) : Vector Byte 256 :=
  Vector.ofFn fun j : Fin 256 => if j.val < i then streamByte s (c + 8 * j.val) else buf[j.val]

theorem fillBuf_zero (s : State) (c : Nat) (buf : Vector Byte 256) : fillBuf s c 0 buf = buf := by
  apply Vector.ext
  intro j hj
  simp only [fillBuf, Vector.getElem_ofFn, Nat.not_lt_zero, if_false]

theorem fillBuf_succ (s : State) (c i : Nat) (buf : Vector Byte 256) :
    (fillBuf s c i buf).setIfInBounds i (streamByte s (c + 8 * i)) = fillBuf s c (i + 1) buf := by
  apply Vector.ext
  intro j hj
  simp only [fillBuf, Vector.getElem_setIfInBounds, Vector.getElem_ofFn]
  by_cases h : i = j
  · subst h; rw [if_pos rfl, if_pos (Nat.lt_succ_self i)]
  · rw [if_neg h]
    by_cases h1 : j < i
    · rw [if_pos h1, if_pos (by omega)]
    · rw [if_neg h1, if_neg (by omega)]

/-- The payload loop on a CAS handle whose bytes are all there. -/
theorem readPayload_cas {s : State} (hk : s.handle.kind = .cas) (t : Stream) (buf : Vector Byte 256) (left i : Nat)
    (h : casIndex t + 8 * (i + left) ≤ casEnd s) (hc : CleanBits s (casIndex t) (8 * (i + left))) :
    readPayload s left i (fillBuf s (casIndex t) i buf) (advance t (8 * i)) =
      (true, fillBuf s (casIndex t) (i + left) buf, advance t (8 * (i + left))) := by
  have hl := casEnd_le s
  induction left generalizing i with
  | zero => rfl
  | succ left ih =>
    have ha : casIndex (advance t (8 * i)) = casIndex t + 8 * i := casIndex_advance (by omega)
    rw [readPayload, readByte_cas hk _ (by omega) (by rw [ha]; exact cleanBits_sub hc (by omega) (by omega)), ha,
      advance_advance (by omega)]
    simp only
    rw [fillBuf_succ]
    have e : i + (left + 1) = i + 1 + left := by omega
    have e2 : 8 * i + 8 = 8 * (i + 1) := by omega
    rw [e] at h hc ⊢
    rw [e2]
    exact ih (i + 1) h hc

/-- The payload loop on a CAS handle whose image ends before the payload does: the buffer holds the bytes read whole. -/
theorem readPayload_cas_ended {s : State} (hk : s.handle.kind = .cas) (t : Stream) (buf : Vector Byte 256) (left i : Nat)
    (h0 : casIndex t + 8 * i ≤ casEnd s)
    (h : casEnd s < casIndex t + 8 * (i + left)) (hc : CleanBits s (casIndex t) (casEnd s - casIndex t)) :
    readPayload s left i (fillBuf s (casIndex t) i buf) (advance t (8 * i)) =
      (false, fillBuf s (casIndex t) ((casEnd s - casIndex t) / 8) buf, advance t (casEnd s - casIndex t)) := by
  have hl := casEnd_le s
  induction left generalizing i with
  | zero => omega
  | succ left ih =>
    have ha : casIndex (advance t (8 * i)) = casIndex t + 8 * i := casIndex_advance (by omega)
    by_cases he : casEnd s < casIndex t + 8 * i + 8
    · rw [readPayload, readByte_cas_ended hk _ (by omega) (by rw [ha]; exact cleanBits_sub hc (by omega) (by omega)), ha,
        advance_advance (by omega)]
      have e : 8 * i + (casEnd s - (casIndex t + 8 * i)) = casEnd s - casIndex t := by omega
      have e2 : (casEnd s - casIndex t) / 8 = i := by omega
      rw [e, e2]
    · rw [readPayload, readByte_cas hk _ (by omega) (by rw [ha]; exact cleanBits_sub hc (by omega) (by omega)), ha,
        advance_advance (by omega)]
      simp only
      rw [fillBuf_succ]
      have e : i + (left + 1) = i + 1 + left := by omega
      have e2 : 8 * i + 8 = 8 * (i + 1) := by omega
      rw [e] at h
      rw [e2]
      exact ih (i + 1) (by omega) h

theorem payload_take (s : State) (c : Nat) (len : Byte) :
    (fillBuf s c len.toNat Held.empty.buf).toList.take len.toNat = (List.range len.toNat).map fun i => streamByte s (c + 8 * i) := by
  have := len.isLt
  apply List.ext_getElem
  · simp; omega
  · intro i h1 h2
    simp at h1 h2
    simp [fillBuf, h2]

/-- Seek-Sync on a CAS handle finds the first marker (43_framing.md R97). -/
theorem seekSync_found {s : State} (hk : s.handle.kind = .cas) (t : Stream) {k : Nat} (hf : FirstMarker s (casIndex t) k)
    (hm : casIndex t + k ≤ casEnd s) (hc : CleanBits s (casIndex t) k) (hb : WithinBound s k) :
    seekSync s t = ⟨.found, k, advance t k⟩ := by
  have hl := casEnd_le s
  have h16 := hf.1.1
  have := seekLoop_run hk t (bitsLeft s t + 1 - (k - 1)) (j := 0) (m := k - 1) (by omega) (by omega) (cleanBits_sub hc (by omega) (by omega))
    (by rcases hb with h | h; exact .inl h; exact .inr (by omega)) (fun i _ hi => hf.2 i (by omega))
  rw [bitsLeft_cas hk, advance_zero, lastBits_zero] at this
  rw [seekSync, bitsLeft_cas hk]
  have e : casEnd s - casIndex t + 1 = casEnd s - casIndex t + 1 - (k - 1) + (k - 1 - 0) := by omega
  have e2 : casEnd s - casIndex t + 1 - (k - 1) = (casEnd s - casIndex t - (k - 1)) + 1 := by omega
  rw [e, this, e2, seekSyncLoop]
  have ha : casIndex (advance t (k - 1)) = casIndex t + (k - 1) := casIndex_advance (by omega)
  have h1 : ¬ (s.handle.act.scanMax ≠ 0#32 ∧ k - 1 = s.handle.act.scanMax.toNat) := by
    rintro ⟨h0, h⟩; rcases hb with hb | hb
    · exact h0 hb
    · omega
  rw [if_neg h1, nextBit_cas hk, casNextBit_bit (by omega) (cleanBits_sub hc (by omega) (by omega))]
  have e3 : k - 1 + 1 = k := by omega
  simp only
  rw [ha, slide_lastBits, advance_advance (by omega), e3, if_pos ((marker_iff s _ _).mp hf.1)]

/-- It stops at the bound. -/
theorem seekSync_bound {s : State} (hk : s.handle.kind = .cas) (t : Stream) {k : Nat} (h0 : k ≠ 0)
    (hks : k = s.handle.act.scanMax.toNat)
    (hn : ∀ i, i ≤ k → ¬ MarkerAt s (casIndex t) i)
    (hm : casIndex t + k ≤ casEnd s) (hc : CleanBits s (casIndex t) k)  :
    seekSync s t = ⟨.bound, k, advance t k⟩ := by
  have := seekLoop_run hk t (bitsLeft s t + 1 - k) (j := 0) (m := k) (by omega) (by omega) hc
    (.inr (by omega)) (fun i _ hi => hn i hi)
  rw [bitsLeft_cas hk, advance_zero, lastBits_zero] at this
  rw [seekSync, bitsLeft_cas hk]
  have e : casEnd s - casIndex t + 1 = casEnd s - casIndex t + 1 - k + (k - 0) := by omega
  have e2 : casEnd s - casIndex t + 1 - k = (casEnd s - casIndex t - k) + 1 := by omega
  rw [e, this, e2, seekSyncLoop, if_pos ⟨fun h => h0 (by rw [hks, h]; rfl), hks⟩]

/-- It meets the end of the image. -/
theorem seekSync_end {s : State} (hk : s.handle.kind = .cas) (t : Stream)
    (hb : s.handle.act.scanMax = 0#32 ∨ casEnd s - casIndex t < s.handle.act.scanMax.toNat)
    (hn : ∀ i, i ≤ casEnd s - casIndex t → ¬ MarkerAt s (casIndex t) i)
    (hc : CleanBits s (casIndex t) (casEnd s - casIndex t))  :
    seekSync s t = ⟨.atEnd, casEnd s - casIndex t, advance t (casEnd s - casIndex t)⟩ := by
  have hl := casEnd_le s
  have := casIndex_lt t
  generalize hm : casEnd s - casIndex t = m at hb hn hc ⊢
  have h1 : ¬ (s.handle.act.scanMax ≠ 0#32 ∧ m = s.handle.act.scanMax.toNat) := by
    rintro ⟨h0, h⟩; rcases hb with hb | hb
    · exact h0 hb
    · omega
  rw [seekSync, bitsLeft_cas hk, hm]
  by_cases hz : casEnd s ≤ casIndex t
  · have : m = 0 := by omega
    subst this
    rw [seekSyncLoop, if_neg h1, nextBit_cas hk, casNextBit_ended hz, advance_zero]
  · have := seekLoop_run hk t 1 (j := 0) (m := m) (by omega) (by omega) hc
      (by rcases hb with h | h; exact .inl h; exact .inr (by omega)) (fun i _ hi => hn i hi)
    rw [advance_zero, lastBits_zero] at this
    have e : m + 1 = 1 + (m - 0) := by omega
    have ha : casIndex (advance t m) = casIndex t + m := casIndex_advance (by omega)
    rw [e, this, seekSyncLoop, if_neg h1, nextBit_cas hk, casNextBit_ended (by omega)]

end Sys2Proof.Machine
end

