-- ==== Sys2Proof/Laws/Wav.lean ====
section
/-! SUPPORT. Spec lemmas of the WAV demodulator (42_wav_demod.md R82 to R91): what each loop can answer and what it leaves, said once. -/

namespace Sys2Proof.Machine

/-- What reading samples keeps of the tracking state: PEND, and a resolved direction (42_wav_demod.md R85). -/
structure SampleFrame (t t' : Stream) : Prop where
  posBit : t'.posBit = t.posBit
  pend : t'.track.pend = t.track.pend
  cross0 : t'.track.cross0 = t.track.cross0
  cross1 : t'.track.cross1 = t.track.cross1
  lastCycle : t'.track.lastCycle = t.track.lastCycle
  dir : ∀ d, t.track.dir = some d → t'.track.dir = some d
  pos : t.pos.toNat ≤ t'.pos.toNat

theorem SampleFrame.refl (t : Stream) : SampleFrame t t :=
  ⟨rfl, rfl, rfl, rfl, rfl, fun _ h => h, le_refl _⟩

theorem SampleFrame.trans {a b c : Stream} (h : SampleFrame a b) (k : SampleFrame b c) : SampleFrame a c :=
  ⟨k.posBit.trans h.posBit, k.pend.trans h.pend, k.cross0.trans h.cross0, k.cross1.trans h.cross1,
    k.lastCycle.trans h.lastCycle, fun d hd => k.dir d (h.dir d hd), le_trans h.pos k.pos⟩

theorem not_atEnd {s : State} {t : Stream} (h : ¬ s.handle.wav.nsamples ≤ t.pos) :
    t.pos.toNat < s.handle.wav.nsamples.toNat := by
  rw [BitVec.le_def] at h; omega

theorem pos_succ {s : State} {t : Stream} (h : ¬ s.handle.wav.nsamples ≤ t.pos) :
    (t.pos + 1#32).toNat = t.pos.toNat + 1 := by
  have h1 := s.handle.wav.nsamples.isLt
  have h2 := not_atEnd h
  simp only [BitVec.toNat_add, BitVec.toNat_ofNat]
  omega

theorem takeSample_pos (s : State) (t : Stream) : (takeSample s t).2.pos = t.pos + 1#32 := rfl

/-- One sample read keeps everything but the cursor, the level and the draw count. -/
theorem takeSample_frame (s : State) (t : Stream) (h : ¬ s.handle.wav.nsamples ≤ t.pos) :
    SampleFrame t (takeSample s t).2 :=
  ⟨rfl, rfl, rfl, rfl, rfl, fun _ h => h, by rw [takeSample_pos, pos_succ h]; omega⟩

/-- The stream after a crossing of direction e fixes an unresolved canonical direction (42_wav_demod.md R87). -/
def resolveDir (e : Edge) (t : Stream) : Stream :=
  { t with track := { t.track with dir := some (t.track.dir.getD e) } }

/-- One iteration of the loop of R87, its four cases said once. -/
theorem nextCanonicalCrossing_succ (s : State) (fuel : Nat) (t : Stream) :
    (s.handle.wav.nsamples ≤ t.pos ∧ nextCanonicalCrossing s (fuel + 1) t = .ended t.track.pend t) ∨
    (¬ s.handle.wav.nsamples ≤ t.pos ∧
      ((nextCanonicalCrossing s (fuel + 1) t = nextCanonicalCrossing s fuel (takeSample s t).2 ∧
          (takeSample s t).1 = none) ∨
        ∃ e, (takeSample s t).1 = some e ∧
          ((e = t.track.dir.getD e ∧
              nextCanonicalCrossing s (fuel + 1) t = .found t.pos (resolveDir e (takeSample s t).2)) ∨
            (e ≠ t.track.dir.getD e ∧ nextCanonicalCrossing s (fuel + 1) t =
              nextCanonicalCrossing s fuel (resolveDir e (takeSample s t).2))))) := by
  by_cases h : s.handle.wav.nsamples ≤ t.pos
  · exact .inl ⟨h, by rw [nextCanonicalCrossing, if_pos h]⟩
  · refine .inr ⟨h, ?_⟩
    rw [nextCanonicalCrossing, if_neg h]
    have hd : (takeSample s t).2.track.dir = t.track.dir := rfl
    obtain ⟨c, u, hts⟩ : ∃ c u, takeSample s t = (c, u) := ⟨_, _, rfl⟩
    rw [hts] at hd ⊢
    cases c with
    | none => exact .inl ⟨rfl, rfl⟩
    | some e =>
      have hd : u.track.dir = t.track.dir := hd
      rw [← hd]
      refine .inr ⟨e, rfl, ?_⟩
      by_cases he : e = u.track.dir.getD e
      · exact .inl ⟨he, if_pos he⟩
      · exact .inr ⟨he, if_neg he⟩

theorem resolveDir_frame {t u : Stream} (e : Edge) (h : SampleFrame t u) : SampleFrame t (resolveDir e u) :=
  ⟨h.posBit, h.pend, h.cross0, h.cross1, h.lastCycle,
    fun d hd => by simp [resolveDir, h.dir d hd], h.pos⟩

/-- What `NextCanonicalCrossing()` can answer (42_wav_demod.md R87). -/
theorem nextCanonicalCrossing_spec (s : State) (fuel : Nat) (t : Stream) :
    (∃ t', nextCanonicalCrossing s fuel t = .ended t.track.pend t' ∧ SampleFrame t t' ∧
        (samplesLeft s t ≤ fuel → s.handle.wav.nsamples.toNat ≤ t'.pos.toNat)) ∨
    (∃ n t', nextCanonicalCrossing s fuel t = .found n t' ∧ SampleFrame t t' ∧ t.pos.toNat ≤ n.toNat ∧
        n.toNat < s.handle.wav.nsamples.toNat ∧ t'.pos.toNat = n.toNat + 1 ∧ t'.track.dir.isSome) := by
  induction fuel generalizing t with
  | zero => exact .inl ⟨t, rfl, .refl t, fun h => by simp only [samplesLeft] at h; omega⟩
  | succ fuel ih =>
    -- the loop goes on from a stream `u` one sample further
    have go : ∀ u : Stream, SampleFrame t u → u.pos.toNat = t.pos.toNat + 1 →
        nextCanonicalCrossing s (fuel + 1) t = nextCanonicalCrossing s fuel u →
        (∃ t', nextCanonicalCrossing s (fuel + 1) t = .ended t.track.pend t' ∧ SampleFrame t t' ∧
          (samplesLeft s t ≤ fuel + 1 → s.handle.wav.nsamples.toNat ≤ t'.pos.toNat)) ∨
        (∃ n t', nextCanonicalCrossing s (fuel + 1) t = .found n t' ∧ SampleFrame t t' ∧ t.pos.toNat ≤ n.toNat ∧
          n.toNat < s.handle.wav.nsamples.toNat ∧ t'.pos.toNat = n.toNat + 1 ∧ t'.track.dir.isSome) := by
      intro u hu hup heq
      rw [heq, ← hu.pend]
      obtain ⟨t', h, hf, hl⟩ | ⟨n, t', h, hf, h1, h2⟩ := ih u
      · refine .inl ⟨t', h, hu.trans hf, fun h => hl ?_⟩
        simp only [samplesLeft] at h ⊢; omega
      · exact .inr ⟨n, t', h, hu.trans hf, by omega, h2⟩
    obtain ⟨hend, h⟩ | ⟨hend, h⟩ := nextCanonicalCrossing_succ s fuel t
    · exact .inl ⟨t, h, .refl t, fun _ => BitVec.le_def.mp hend⟩
    · have hf := takeSample_frame s t hend
      have hp : (takeSample s t).2.pos.toNat = t.pos.toNat + 1 := by rw [takeSample_pos, pos_succ hend]
      obtain ⟨h, -⟩ | ⟨e, -, ⟨-, h⟩ | ⟨-, h⟩⟩ := h
      · exact go _ hf hp h
      · exact .inr ⟨t.pos, _, h, resolveDir_frame e hf, le_refl _, not_atEnd hend, hp, rfl⟩
      · exact go _ (resolveDir_frame e hf) hp h

/-- More fuel than samples left changes nothing (R92). -/
theorem nextCanonicalCrossing_fuel (s : State) (f : Nat) (t : Stream) (hf : samplesLeft s t ≤ f) :
    nextCanonicalCrossing s f t = nextCanonicalCrossing s (samplesLeft s t) t := by
  generalize hl : samplesLeft s t = l at hf ⊢
  induction l generalizing f t with
  | zero =>
    cases f with
    | zero => rfl
    | succ f =>
      have : s.handle.wav.nsamples ≤ t.pos := by
        simp only [samplesLeft] at hl; rw [BitVec.le_def]; omega
      simp only [nextCanonicalCrossing, if_pos this]
  | succ l ih =>
    obtain ⟨f, rfl⟩ : ∃ g, f = g + 1 := ⟨f - 1, by omega⟩
    have hend : ¬ s.handle.wav.nsamples ≤ t.pos := by
      simp only [samplesLeft] at hl
      rw [BitVec.le_def]; omega
    have go : ∀ u : Stream, u.pos = t.pos + 1#32 →
        nextCanonicalCrossing s f u = nextCanonicalCrossing s l u := by
      intro u hu
      have : samplesLeft s u = l := by
        simp only [samplesLeft, hu, pos_succ hend] at hl ⊢; omega
      exact ih f u this (by omega)
    simp only [nextCanonicalCrossing, if_neg hend]
    have hp := takeSample_pos s t
    obtain ⟨c, u, hts⟩ : ∃ c u, takeSample s t = (c, u) := ⟨_, _, rfl⟩
    rw [hts] at hp ⊢
    cases c with
    | none => exact go u hp
    | some e =>
      exact if_congr Iff.rfl rfl (go _ hp)

/-- What measuring a cycle keeps: PEND and a resolved direction. -/
structure CycleFrame (t t' : Stream) : Prop where
  posBit : t'.posBit = t.posBit
  pend : t'.track.pend = t.track.pend
  dir : ∀ d, t.track.dir = some d → t'.track.dir = some d
  pos : t.pos.toNat ≤ t'.pos.toNat

theorem SampleFrame.cycle {t t' : Stream} (h : SampleFrame t t') : CycleFrame t t' := ⟨h.posBit, h.pend, h.dir, h.pos⟩

theorem CycleFrame.trans {a b c : Stream} (h : CycleFrame a b) (k : CycleFrame b c) : CycleFrame a c :=
  ⟨k.posBit.trans h.posBit, k.pend.trans h.pend, fun d hd => k.dir d (h.dir d hd), le_trans h.pos k.pos⟩

/-- The crossing pair of 42_wav_demod.md R88 and 10_state.md R40: in order, behind the cursor, LASTCYCLE their distance
(0 before a cycle is measured). -/
structure PairInv (t : Stream) : Prop where
  ordered : ∀ a, t.track.cross0 = some a → ∃ b, t.track.cross1 = some b ∧ a < b
  behind : ∀ b, t.track.cross1 = some b → b < t.pos
  lastCycle : t.track.lastCycle =
    match t.track.cross0, t.track.cross1 with
    | some a, some b => b - a
    | _, _ => 0#32

theorem SampleFrame.pair {t t' : Stream} (h : SampleFrame t t') (hi : PairInv t) : PairInv t' := by
  refine ⟨fun a ha => ?_, fun b hb => ?_, ?_⟩
  · rw [h.cross1]; exact hi.ordered a (h.cross0 ▸ ha)
  · have := hi.behind b (h.cross1 ▸ hb)
    rw [BitVec.lt_def] at this ⊢; have := h.pos; omega
  · rw [h.cross0, h.cross1, h.lastCycle]; exact hi.lastCycle

/-- One crossing of `MeasureCycle()`, its three cases (42_wav_demod.md R88). -/
theorem measureCycle_succ (s : State) (fuel : Nat) (t : Stream) :
    (∃ t', nextCanonicalCrossing s (samplesLeft s t) t = .ended t.track.pend t' ∧
      measureCycle s (fuel + 1) t = .ended t.track.pend t') ∨
    (∃ n t', nextCanonicalCrossing s (samplesLeft s t) t = .found n t' ∧ t'.track.cross1 = none ∧
      measureCycle s (fuel + 1) t = measureCycle s fuel (shiftCrossings n t')) ∨
    (∃ n t' c, nextCanonicalCrossing s (samplesLeft s t) t = .found n t' ∧ t'.track.cross1 = some c ∧
      measureCycle s (fuel + 1) t = .measured ((n.toNat : Int) - c.toNat)
        { shiftCrossings n t' with track := { (shiftCrossings n t').track with
            lastCycle := BitVec.ofInt 32 ((n.toNat : Int) - c.toNat) } }) := by
  simp only [measureCycle]
  obtain ⟨t', h, -⟩ | ⟨n, t', h, -⟩ := nextCanonicalCrossing_spec s (samplesLeft s t) t
  · exact .inl ⟨t', h, by rw [h]⟩
  · rw [h]
    cases hc : t'.track.cross1 with
    | none => exact .inr (.inl ⟨n, t', rfl, hc, by simp only [shiftCrossings, hc]⟩)
    | some c => exact .inr (.inr ⟨n, t', c, rfl, hc, by simp only [shiftCrossings, hc]⟩)

/-- What `MeasureCycle()` can answer (42_wav_demod.md R88). -/
theorem measureCycle_spec (s : State) (fuel : Nat) (t : Stream) :
    (∃ t', measureCycle s fuel t = .ended t.track.pend t' ∧ CycleFrame t t' ∧ (PairInv t → PairInv t')) ∨
    (∃ len t', measureCycle s fuel t = .measured len t' ∧ CycleFrame t t' ∧ t.pos.toNat < t'.pos.toNat ∧
        t'.pos.toNat ≤ s.handle.wav.nsamples.toNat ∧ (PairInv t → PairInv t')) := by
  induction fuel generalizing t with
  | zero => exact .inl ⟨t, rfl, (SampleFrame.refl t).cycle, id⟩
  | succ fuel ih =>
    have hs := nextCanonicalCrossing_spec s (samplesLeft s t) t
    obtain ⟨t', hx, h⟩ | ⟨n, t', hx, hc, h⟩ | ⟨n, t', c, hx, hc, h⟩ := measureCycle_succ s fuel t
    · obtain ⟨u, hu, hf, -⟩ | ⟨m, u, hu, -⟩ := hs
      · rw [hx] at hu; cases hu
        exact .inl ⟨_, h, hf.cycle, hf.pair⟩
      · rw [hx] at hu; cases hu
    · obtain ⟨u, hu, -⟩ | ⟨m, u, hu, hf, h1, h2, h3, -⟩ := hs
      · rw [hx] at hu; cases hu
      rw [hx] at hu; cases hu
      have hw : CycleFrame t (shiftCrossings n t') := ⟨hf.posBit, hf.pend, hf.dir, hf.pos⟩
      have hp : (shiftCrossings n t').pos.toNat = n.toNat + 1 := h3
      have hpair : PairInv t → PairInv (shiftCrossings n t') := fun hi => by
        refine ⟨fun a ha => ?_, fun b hb => ?_, ?_⟩
        · simp only [shiftCrossings, hc] at ha; cases ha
        · simp only [shiftCrossings, Option.some.injEq] at hb; subst hb; rw [BitVec.lt_def]; omega
        · have h0 : t.track.cross0 = none := by
            cases h0 : t.track.cross0 with
            | none => rfl
            | some a =>
              obtain ⟨b, hb, -⟩ := hi.ordered a h0
              rw [← hf.cross1, hc] at hb; cases hb
          have := hi.lastCycle
          rw [h0] at this
          simp only [shiftCrossings, hc, hf.lastCycle]; exact this
      rw [h, ← hw.pend]
      obtain ⟨v, hv, hg, hq⟩ | ⟨l, v, hv, hg, h4, h5, hq⟩ := ih (shiftCrossings n t')
      · exact .inl ⟨v, hv, hw.trans hg, hq ∘ hpair⟩
      · exact .inr ⟨l, v, hv, hw.trans hg, by omega, h5, hq ∘ hpair⟩
    · obtain ⟨u, hu, -⟩ | ⟨m, u, hu, hf, h1, h2, h3, -⟩ := hs
      · rw [hx] at hu; cases hu
      rw [hx] at hu; cases hu
      refine .inr ⟨_, _, h, ⟨hf.posBit, hf.pend, hf.dir, hf.pos⟩, ?_, ?_, fun hi => ?_⟩
      · show t.pos.toNat < t'.pos.toNat; omega
      · show t'.pos.toNat ≤ _; omega
      · have hcn : c.toNat < n.toNat := by
          have := hi.behind c (hf.cross1 ▸ hc)
          rw [BitVec.lt_def] at this; omega
        refine ⟨fun a ha => ?_, fun b hb => ?_, ?_⟩
        · simp only [shiftCrossings, hc, Option.some.injEq] at ha; subst ha
          exact ⟨n, rfl, BitVec.lt_def.mpr hcn⟩
        · simp only [shiftCrossings, Option.some.injEq] at hb; subst hb
          show n < t'.pos
          rw [BitVec.lt_def]; omega
        · simp only [shiftCrossings, hc]
          apply BitVec.eq_of_toNat_eq
          rw [BitVec.toNat_sub_of_le (BitVec.le_def.mpr hcn.le), BitVec.toNat_ofInt]
          have := n.isLt
          omega

/-- What reading a WAV bit keeps: POSBIT and a resolved direction. -/
structure WavFrame (t t' : Stream) : Prop where
  posBit : t'.posBit = t.posBit
  dir : ∀ d, t.track.dir = some d → t'.track.dir = some d
  pos : t.pos.toNat ≤ t'.pos.toNat
  pair : PairInv t → PairInv t'

theorem WavFrame.refl (t : Stream) : WavFrame t t := ⟨rfl, fun _ h => h, le_refl _, id⟩

theorem WavFrame.trans {a b c : Stream} (h : WavFrame a b) (k : WavFrame b c) : WavFrame a c :=
  ⟨k.posBit.trans h.posBit, fun d hd => k.dir d (h.dir d hd), le_trans h.pos k.pos, k.pair ∘ h.pair⟩

theorem setPend_pair {b : Bool} {t : Stream} (h : PairInv t) : PairInv (setPend b t) := ⟨h.ordered, h.behind, h.lastCycle⟩

/-- What `WavNextBit()` can answer (42_wav_demod.md R90). -/
theorem wavBitLoop_spec (s : State) (fuel : Nat) (t : Stream) :
    (∃ t', wavBitLoop s fuel t = .ended t'.track.pend t' ∧ WavFrame t t') ∨
    (∃ b t', wavBitLoop s fuel t = .bit b t' ∧ WavFrame t t' ∧ t.pos.toNat < t'.pos.toNat ∧
      t'.pos.toNat ≤ s.handle.wav.nsamples.toNat ∧ t'.track.pend = false) := by
  induction fuel generalizing t with
  | zero => exact .inl ⟨t, rfl, .refl t⟩
  | succ fuel ih =>
    obtain ⟨t', hx, hf, hp⟩ | ⟨len, t', hx, hf, h1, h2, hp⟩ := measureCycle_spec s (samplesLeft s t) t
    · exact .inl ⟨t', by simp only [wavBitLoop, hx, hf.pend], hf.posBit, hf.dir, hf.pos, hp⟩
    · have hw : ∀ b, WavFrame t (setPend b t') := fun b => ⟨hf.posBit, hf.dir, hf.pos, setPend_pair ∘ hp⟩
      by_cases hs : isShort s len = true
      · by_cases hq : t'.track.pend = true
        · exact .inr ⟨true, _, by simp only [wavBitLoop, hx, if_pos hs, if_pos hq], hw false, h1, h2, rfl⟩
        · have heq : wavBitLoop s (fuel + 1) t = wavBitLoop s fuel (setPend true t') := by
            simp only [wavBitLoop, hx, if_pos hs, if_neg hq]
          rw [heq]
          obtain ⟨u, hu, hg⟩ | ⟨b, u, hu, hg, h3, h4⟩ := ih (setPend true t')
          · exact .inl ⟨u, hu, (hw true).trans hg⟩
          · exact .inr ⟨b, u, hu, (hw true).trans hg, lt_trans h1 h3, h4⟩
      · exact .inr ⟨false, _, by simp only [wavBitLoop, hx, if_neg hs], hw false, h1, h2, rfl⟩

/-- More fuel than samples left changes nothing of `MeasureCycle()` (R92). -/
theorem measureCycle_fuel (s : State) (f : Nat) (t : Stream) (h : samplesLeft s t ≤ f) :
    measureCycle s f t = measureCycle s (samplesLeft s t) t := by
  generalize hf : samplesLeft s t = l at h ⊢
  induction l using Nat.strong_induction_on generalizing f t with
  | _ l ih =>
    cases l with
    | zero =>
      cases f with
      | zero => rfl
      | succ f => simp [measureCycle, hf, nextCanonicalCrossing]
    | succ l =>
      obtain ⟨f, rfl⟩ : ∃ g, f = g + 1 := ⟨f - 1, by omega⟩
      simp only [measureCycle]
      obtain ⟨t', hx, -⟩ | ⟨n, t', hx, -, h1, -, h3, -⟩ := nextCanonicalCrossing_spec s (samplesLeft s t) t
      · rw [hx]
      · rw [hx]
        have hl : samplesLeft s (shiftCrossings n t') ≤ l := by
          have hp : (shiftCrossings n t').pos.toNat = n.toNat + 1 := h3
          simp only [samplesLeft] at hf ⊢; omega
        simp only
        rw [ih _ (by omega) f _ rfl (by omega), ih _ (by omega) l _ rfl hl]

/-- More fuel than samples left changes nothing of `WavNextBit()` (R92). -/
theorem wavBitLoop_fuel (s : State) (f : Nat) (t : Stream) (h : samplesLeft s t ≤ f) :
    wavBitLoop s f t = wavNextBit s t := by
  unfold wavNextBit
  generalize hf : samplesLeft s t = l at h ⊢
  induction l using Nat.strong_induction_on generalizing f t with
  | _ l ih =>
    cases l with
    | zero =>
      cases f with
      | zero => rfl
      | succ f => simp [wavBitLoop, hf, measureCycle]
    | succ l =>
      obtain ⟨f, rfl⟩ : ∃ g, f = g + 1 := ⟨f - 1, by omega⟩
      simp only [wavBitLoop]
      obtain ⟨t', hx, -⟩ | ⟨len, t', hx, -, h1, -⟩ := measureCycle_spec s (samplesLeft s t) t
      · rw [hx]
      · rw [hx]
        have hl : samplesLeft s (setPend true t') ≤ l := by
          have hp : (setPend true t').pos.toNat = t'.pos.toNat := rfl
          simp only [samplesLeft] at hf ⊢; omega
        simp only
        rw [ih _ (by omega) f _ rfl (by omega), ih _ (by omega) l _ rfl hl]

end Sys2Proof.Machine
end

