-- ==== Sys2Proof/Laws/Crossings.lean ====
section
/-! SUPPORT. The crossing search over a run of samples, without hazard bytes (42_wav_demod.md R83, R87): it walks while the level stays, and meets the crossing where it flips. -/

open Sys2Proof.Claims

namespace Sys2Proof.Machine

theorem flip_flip (e : Edge) : flipEdge (flipEdge e) = e := by cases e <;> rfl

/-- Without hazard bytes a sample is the image's, and draws nothing. -/
theorem sample_clean {s : State} (hz : s.hazard = []) (d i : Nat) : sample s d i = (sampleAt s i, d) := by
  simp only [sampleAt, sample, sampleStride, readImage, hz, List.not_mem_nil, if_false]
  split
  · rw [Nat.mul_one]
  · have h0 := (s.mem.read (s.handle.wav.dataOff.toNat + 2 * i)).isLt
    rw [Nat.mul_comm i 2, BitVec.toInt_eq_toNat_cond, BitVec.toNat_append,
      ← Nat.shiftLeft_add_eq_or_of_lt (by omega), Nat.shiftLeft_eq]
    congr 1
    split <;> split <;> omega

/-- One sample read without hazard bytes. -/
theorem takeSample_clean {s : State} (hz : s.hazard = []) (t : Stream) : takeSample s t =
    (crossingOf t.track.level (compareLevel s.handle.act.thresh.toNat t.track.level (sampleAt s t.pos.toNat)),
     { t with pos := t.pos + 1#32, track := { t.track with level := compareLevel s.handle.act.thresh.toNat t.track.level (sampleAt s t.pos.toNat) } }) := by
  simp only [takeSample, sample_clean hz]

/-- A sample that is not beyond the band on the other side keeps the level (42_wav_demod.md R83). -/
theorem level_stay {s : State} {e : Edge} {i : Nat} (h : ¬ Beyond s (flipEdge e) i) :
    compareLevel s.handle.act.thresh.toNat (levelAfter e) (sampleAt s i) = levelAfter e := by
  cases e <;> simp only [Beyond, flipEdge] at h <;> simp only [compareLevel, levelAfter]
  · split_ifs <;> rfl
  · split_ifs <;> rfl

/-- One that is flips it. -/
theorem level_cross {s : State} {e : Edge} {i : Nat} (h : Beyond s (flipEdge e) i) :
    compareLevel s.handle.act.thresh.toNat (levelAfter e) (sampleAt s i) = levelAfter (flipEdge e) := by
  cases e <;> simp only [Beyond, flipEdge] at h <;> simp only [compareLevel, levelAfter, flipEdge]
  · rw [if_neg (by omega), if_pos h]
  · rw [if_pos h]

theorem crossing_stay (e : Edge) : crossingOf (levelAfter e) (levelAfter e) = none := by cases e <;> rfl
theorem crossing_cross (e : Edge) : crossingOf (levelAfter e) (levelAfter (flipEdge e)) = some (flipEdge e) := by cases e <;> rfl

theorem ofNat_toNat32 (w : Word) : BitVec.ofNat 32 w.toNat = w := by simp

/-- The crossing search walks over samples that keep the level (42_wav_demod.md R87). -/
theorem walk {s : State} (hz : s.hazard = []) (e : Edge) (fuel : Nat) (t : Stream) (f : Nat) (hl : t.track.level = levelAfter e)
    (hp : t.pos.toNat ≤ f) (hf : f < s.handle.wav.nsamples.toNat) (hs : ∀ i, t.pos.toNat ≤ i → i < f → ¬ Beyond s (flipEdge e) i) :
    nextCanonicalCrossing s (fuel + (f - t.pos.toNat)) t = nextCanonicalCrossing s fuel { t with pos := BitVec.ofNat 32 f } := by
  have hn := s.handle.wav.nsamples.isLt
  obtain ⟨d, hd⟩ := Nat.le.dest hp
  induction d generalizing t with
  | zero =>
    have h0 : t.pos.toNat = f := by omega
    rw [h0, Nat.sub_self, ← h0, ofNat_toNat32]; rfl
  | succ d ih =>
    have e1 : fuel + (f - t.pos.toNat) = (fuel + (f - (t.pos + 1#32).toNat)) + 1 := by
      simp only [BitVec.toNat_add, BitVec.toNat_ofNat]; omega
    have hend : ¬ s.handle.wav.nsamples ≤ t.pos := by rw [BitVec.le_def]; omega
    rw [e1, nextCanonicalCrossing, if_neg hend, takeSample_clean hz, hl, level_stay (hs _ (le_refl _) (by omega)), crossing_stay]
    simp only
    have hp1 : (t.pos + 1#32).toNat = t.pos.toNat + 1 := pos_succ hend
    have := ih { t with pos := t.pos + 1#32, track := { t.track with level := levelAfter e } } rfl (by show (t.pos + 1#32).toNat ≤ f; omega)
      (fun i h1 h2 => hs i (by have : (t.pos + 1#32).toNat ≤ i := h1; omega) h2) (by show (t.pos + 1#32).toNat + d = f; omega)
    rw [this]
    congr 2
    have : t.track = { t.track with level := levelAfter e } := by rw [← hl]
    exact this.symm

/-- At the first sample beyond the band on the other side it meets a crossing, which it answers if it is canonical. -/
theorem crossAt {s : State} (hz : s.hazard = []) (e : Edge) (fuel : Nat) (t : Stream) (hl : t.track.level = levelAfter e)
    (hp : t.pos.toNat < s.handle.wav.nsamples.toNat) (hb : Beyond s (flipEdge e) t.pos.toNat) :
    nextCanonicalCrossing s (fuel + 1) t =
      let u : Stream := { t with pos := t.pos + 1#32, track := { t.track with level := levelAfter (flipEdge e), dir := some (t.track.dir.getD (flipEdge e)) } }
      if flipEdge e = t.track.dir.getD (flipEdge e) then .found t.pos u else nextCanonicalCrossing s fuel u := by
  have hend : ¬ s.handle.wav.nsamples ≤ t.pos := by rw [BitVec.le_def]; omega
  rw [nextCanonicalCrossing, if_neg hend, takeSample_clean hz, hl, level_cross hb, crossing_cross]

theorem flip_ne (e : Edge) : ¬ flipEdge e = e := by cases e <;> simp [flipEdge]

/-- A cycle: the crossing search passes the crossing away and stops at the canonical one (42_wav_demod.md R87). -/
theorem cycle_found {s : State} (hz : s.hazard = []) (d : Edge) (t : Stream) (f r : Nat) (hl : t.track.level = levelAfter d) (hd : t.track.dir = some d)
    (hc : WaveCycle s d t.pos.toNat f r) :
    nextCanonicalCrossing s (samplesLeft s t) t = .found (BitVec.ofNat 32 r)
      { t with pos := BitVec.ofNat 32 (r + 1), track := { t.track with level := levelAfter d, dir := some d } } := by
  have hn := s.handle.wav.nsamples.isLt
  obtain ⟨ho1, ho2, ho3⟩ := hc.order
  have e1 : samplesLeft s t = (s.handle.wav.nsamples.toNat - f) + (f - t.pos.toNat) := by simp only [samplesLeft]; omega
  rw [e1, walk hz d _ t f hl ho1 (by omega) hc.stays]
  have e2 : s.handle.wav.nsamples.toNat - f = (s.handle.wav.nsamples.toNat - f - 1) + 1 := by omega
  have hfn : (BitVec.ofNat 32 f).toNat = f := by rw [BitVec.toNat_ofNat, Nat.mod_eq_of_lt (by omega)]
  rw [e2, crossAt hz d _ { t with pos := BitVec.ofNat 32 f } hl (by show (BitVec.ofNat 32 f).toNat < _; omega) (by show Beyond s _ (BitVec.ofNat 32 f).toNat; rw [hfn]; exact hc.away)]
  have hg : (({ t with pos := BitVec.ofNat 32 f } : Stream).track.dir.getD (flipEdge d)) = d := by show t.track.dir.getD _ = d; rw [hd]; rfl
  simp only [hd, Option.getD_some]
  rw [if_neg (flip_ne d)]
  have hf1 : (BitVec.ofNat 32 f + 1#32).toNat = f + 1 := by rw [BitVec.toNat_add, hfn]; simp only [BitVec.toNat_ofNat]; omega
  have e3 : s.handle.wav.nsamples.toNat - f - 1 = (s.handle.wav.nsamples.toNat - r) + (r - (BitVec.ofNat 32 f + 1#32).toNat) := by rw [hf1]; omega
  rw [e3]
  have hw := walk hz (flipEdge d) (s.handle.wav.nsamples.toNat - r) { t with pos := BitVec.ofNat 32 f + 1#32, track := { t.track with level := levelAfter (flipEdge d), dir := some d } } r rfl
    (by show (BitVec.ofNat 32 f + 1#32).toNat ≤ r; omega) ho3 (by
      intro i h1 h2; rw [flip_flip]; exact hc.returns i (by have : (BitVec.ofNat 32 f + 1#32).toNat ≤ i := h1; omega) h2)
  rw [hw]
  have hrn : (BitVec.ofNat 32 r).toNat = r := by rw [BitVec.toNat_ofNat, Nat.mod_eq_of_lt (by omega)]
  have e4 : s.handle.wav.nsamples.toNat - r = (s.handle.wav.nsamples.toNat - r - 1) + 1 := by omega
  rw [e4, crossAt hz (flipEdge d) _ _ rfl (by show (BitVec.ofNat 32 r).toNat < _; omega) (by show Beyond s _ (BitVec.ofNat 32 r).toNat; rw [hrn, flip_flip]; exact hc.back)]
  simp only [flip_flip, Option.getD_some, if_true]
  congr 2
  apply BitVec.eq_of_toNat_eq
  rw [BitVec.toNat_add, hrn]; simp only [BitVec.toNat_ofNat]

/-- MeasureCycle over a cycle from the crossing at c (42_wav_demod.md R88). -/
theorem measure_found {s : State} (hz : s.hazard = []) (d : Edge) (t : Stream) (c f r : Nat) (hl : t.track.level = levelAfter d) (hd : t.track.dir = some d)
    (h1 : t.track.cross1 = some (BitVec.ofNat 32 c)) (hcb : c < t.pos.toNat) (hc : WaveCycle s d t.pos.toNat f r) :
    measureCycle s (samplesLeft s t) t = .measured ((r : Int) - c)
      { t with pos := BitVec.ofNat 32 (r + 1), track := { t.track with level := levelAfter d, dir := some d, cross0 := some (BitVec.ofNat 32 c), cross1 := some (BitVec.ofNat 32 r), lastCycle := BitVec.ofNat 32 (r - c) } } := by
  have hn := s.handle.wav.nsamples.isLt
  obtain ⟨ho1, ho2, ho3⟩ := hc.order
  obtain ⟨g, hg⟩ : ∃ g, samplesLeft s t = g + 1 := ⟨samplesLeft s t - 1, by simp only [samplesLeft]; omega⟩
  rw [hg, measureCycle, cycle_found hz d t f r hl hd hc]
  simp only [shiftCrossings, h1]
  have hrn : (BitVec.ofNat 32 r).toNat = r := by rw [BitVec.toNat_ofNat, Nat.mod_eq_of_lt (by omega)]
  have hcn : (BitVec.ofNat 32 c).toNat = c := by rw [BitVec.toNat_ofNat, Nat.mod_eq_of_lt (by omega)]
  rw [hrn, hcn]
  have : BitVec.ofInt 32 ((r : Int) - c) = BitVec.ofNat 32 (r - c) := by
    rw [← Int.ofNat_sub (by omega)]; exact BitVec.ofInt_natCast ..
  rw [this]

/-- IsShort on a cycle from c to r (42_wav_demod.md R89). -/
theorem short_iff (s : State) (r c : Nat) (h : c ≤ r) : isShort s ((r : Int) - c) = decide ((r - c) * s.handle.act.freqLim.toNat < s.handle.wav.srate.toNat) := by
  rw [isShort, ← Int.ofNat_sub h, ← Int.natCast_mul]
  simp only [Nat.cast_lt]

theorem crossing_same (l : Level) : crossingOf l l = none := by cases l <;> rfl

/-- Samples that all keep the level run to the end of the audio (42_wav_demod.md R91). -/
theorem stays_end {s : State} (hz : s.hazard = []) (fuel : Nat) (t : Stream) (hp : t.pos.toNat ≤ s.handle.wav.nsamples.toNat)
    (hfu : samplesLeft s t ≤ fuel)
    (hs : ∀ i, t.pos.toNat ≤ i → i < s.handle.wav.nsamples.toNat → compareLevel s.handle.act.thresh.toNat t.track.level (sampleAt s i) = t.track.level) :
    nextCanonicalCrossing s fuel t = .ended t.track.pend { t with pos := s.handle.wav.nsamples } := by
  induction fuel generalizing t with
  | zero =>
    have : t.pos = s.handle.wav.nsamples := by apply BitVec.eq_of_toNat_eq; simp only [samplesLeft] at hfu; omega
    rw [nextCanonicalCrossing, ← this]
  | succ fuel ih =>
    rw [nextCanonicalCrossing]
    by_cases he : s.handle.wav.nsamples ≤ t.pos
    · have : t.pos = s.handle.wav.nsamples := by apply BitVec.eq_of_toNat_eq; rw [BitVec.le_def] at he; omega
      rw [if_pos he, ← this]
    · have hlt := not_atEnd he
      rw [if_neg he, takeSample_clean hz, hs _ (le_refl _) hlt, crossing_same]
      simp only
      have hp1 := pos_succ he
      have := ih { t with pos := t.pos + 1#32 } (by show (t.pos + 1#32).toNat ≤ _; omega) (by simp only [samplesLeft] at hfu ⊢; omega)
        (fun i h1 h2 => hs i (by have : (t.pos + 1#32).toNat ≤ i := h1; omega) h2)
      exact this

/-- The crossing search where no cycle is left runs to the end of the audio. -/
theorem noCycle_end {s : State} (hz : s.hazard = []) (d : Edge) (t : Stream) (lv : Level) (hl : t.track.level = levelAfter d) (hd : t.track.dir = some d)
    (hp : t.pos.toNat ≤ s.handle.wav.nsamples.toNat) (h : NoCycleLeft s d t.pos.toNat lv) :
    nextCanonicalCrossing s (samplesLeft s t) t = .ended t.track.pend { t with pos := s.handle.wav.nsamples, track := { t.track with level := lv } } := by
  have hn := s.handle.wav.nsamples.isLt
  rcases h with ⟨rfl, hs⟩ | ⟨rfl, f, h1, h2, hb, hs, hr⟩
  · rw [stays_end hz _ t hp (le_refl _) (fun i a b => by rw [hl]; exact level_stay (hs i a b)), ← hl]
  · have e1 : samplesLeft s t = (s.handle.wav.nsamples.toNat - f) + (f - t.pos.toNat) := by simp only [samplesLeft]; omega
    rw [e1, walk hz d _ t f hl h1 (by omega) hs]
    have e2 : s.handle.wav.nsamples.toNat - f = (s.handle.wav.nsamples.toNat - f - 1) + 1 := by omega
    have hfn : (BitVec.ofNat 32 f).toNat = f := by rw [BitVec.toNat_ofNat, Nat.mod_eq_of_lt (by omega)]
    rw [e2, crossAt hz d _ { t with pos := BitVec.ofNat 32 f } hl (by show (BitVec.ofNat 32 f).toNat < _; omega) (by show Beyond s _ (BitVec.ofNat 32 f).toNat; rw [hfn]; exact hb)]
    simp only [hd, Option.getD_some]
    rw [if_neg (flip_ne d)]
    have hf1 : (BitVec.ofNat 32 f + 1#32).toNat = f + 1 := by rw [BitVec.toNat_add, hfn]; simp only [BitVec.toNat_ofNat]; omega
    rw [stays_end hz _ _ (by show (BitVec.ofNat 32 f + 1#32).toNat ≤ _; omega) (by simp only [samplesLeft]; omega) (fun i a b => level_stay (e := flipEdge d) (by rw [flip_flip]; exact hr i (by have : (BitVec.ofNat 32 f + 1#32).toNat ≤ i := a; omega) b))]

/-- The bit loop where no cycle is left ends there, mid-bit if PEND is 1 (42_wav_demod.md R91). -/
theorem noCycle_bit {s : State} (hz : s.hazard = []) (d : Edge) (t : Stream) (lv : Level) (hl : t.track.level = levelAfter d) (hd : t.track.dir = some d)
    (hp : t.pos.toNat ≤ s.handle.wav.nsamples.toNat) (h : NoCycleLeft s d t.pos.toNat lv) (fuel : Nat) (hf : samplesLeft s t ≤ fuel):
    wavBitLoop s fuel t = .ended t.track.pend { t with pos := s.handle.wav.nsamples, track := { t.track with level := lv } } := by
  have hc := noCycle_end hz d t lv hl hd hp h
  by_cases h0 : samplesLeft s t = 0
  · have hpos : t.pos = s.handle.wav.nsamples := by apply BitVec.eq_of_toNat_eq; simp only [samplesLeft] at h0; omega
    rw [h0, nextCanonicalCrossing] at hc
    cases fuel with
    | zero => rw [wavBitLoop]; injection hc with a b; rw [← b]
    | succ fuel => rw [wavBitLoop, h0, measureCycle]; injection hc with a b; rw [← b]
  · obtain ⟨fuel, rfl⟩ : ∃ g, fuel = g + 1 := ⟨fuel - 1, by omega⟩
    obtain ⟨g, hg⟩ : ∃ g, samplesLeft s t = g + 1 := ⟨samplesLeft s t - 1, by omega⟩
    have : measureCycle s (samplesLeft s t) t = .ended t.track.pend { t with pos := s.handle.wav.nsamples, track := { t.track with level := lv } } := by
      rw [hg, measureCycle, hc]
    rw [wavBitLoop, this]

/-- One sample further on, a crossing is the same crossing. -/
theorem crossesAt_succ {s : State} {p i : Nat} {lv : Level} {e : Edge} (h : p < i) :
    CrossesAt s p lv e i ↔
      CrossesAt s (p + 1) (compareLevel s.handle.act.thresh.toNat lv (sampleAt s p)) e i := by
  obtain ⟨k, rfl⟩ : ∃ k, i = p + 1 + k := ⟨i - (p + 1), by omega⟩
  simp only [CrossesAt, show p + 1 + k - p = k + 1 by omega, show p + 1 + k - (p + 1) = k by omega, levelFrom,
    compareLevel, show p ≤ p + 1 + k by omega, show p + 1 ≤ p + 1 + k by omega]

/-- The crossing the comparator reports at the next sample. -/
theorem crossesAt_here {s : State} {p : Nat} {lv : Level} {e : Edge} (hp : p < s.handle.wav.nsamples.toNat) :
    CrossesAt s p lv e p ↔
      crossingOf lv (compareLevel s.handle.act.thresh.toNat lv (sampleAt s p)) = some e := by
  simp only [CrossesAt, Nat.sub_self, levelFrom, le_refl, hp, true_and, compareLevel]
  cases e <;> cases lv <;> simp only [levelAfter, flipEdge, Beyond] <;> split_ifs <;> simp [crossingOf] <;> omega

/-- The crossing search finds the first canonical crossing (42_wav_demod.md R85, R87). -/
theorem canonical_found {s : State} (hz : s.hazard = []) {d : Edge} {f : Nat} (fuel : Nat) (t : Stream)
    (hc : CrossesAt s t.pos.toNat t.track.level d f) (hd : t.track.dir = none ∨ t.track.dir = some d)
    (hf : ∀ e i, t.track.dir = none ∨ e = d → i < f → ¬ CrossesAt s t.pos.toNat t.track.level e i)
    (hfu : samplesLeft s t ≤ fuel) :
    nextCanonicalCrossing s fuel t = .found (BitVec.ofNat 32 f)
      { t with pos := BitVec.ofNat 32 (f + 1), track := { t.track with level := levelAfter d, dir := some d } } := by
  have hn := s.handle.wav.nsamples.isLt
  induction fuel generalizing t with
  | zero => obtain ⟨h1, h2, -⟩ := hc; simp only [samplesLeft] at hfu; omega
  | succ fuel ih =>
    obtain ⟨h1, h2, -⟩ := id hc
    have hend : ¬ s.handle.wav.nsamples ≤ t.pos := by rw [BitVec.le_def]; omega
    have hp1 := pos_succ hend
    rw [nextCanonicalCrossing, if_neg hend, takeSample_clean hz]
    by_cases hpf : t.pos.toNat = f
    · have hx := (crossesAt_here (by omega)).mp (show CrossesAt s t.pos.toNat t.track.level d t.pos.toNat by rw [hpf] at hc ⊢; exact hc)
      have hl : compareLevel s.handle.act.thresh.toNat t.track.level (sampleAt s t.pos.toNat) = levelAfter d := by
        have hb := hc.2.2.1; have hb2 := hc.2.2.2
        rw [hpf, Nat.sub_self] at hb; rw [hpf]
        have hb : t.track.level = levelAfter (flipEdge d) := hb
        rw [hb]; exact (level_cross (e := flipEdge d) (by rw [flip_flip]; exact hb2)).trans (by rw [flip_flip])
      have hg : t.track.dir.getD d = d := by rcases hd with h | h <;> rw [h] <;> rfl
      rw [hx, hl]
      simp only [hg, if_true]
      rw [← hpf]; congr 2
      simp
    · generalize hnew : compareLevel s.handle.act.thresh.toNat t.track.level (sampleAt s t.pos.toNat) = new
      have hlt : t.pos.toNat < f := by omega
      have step : ∀ (dir : Option Edge), (dir = t.track.dir) →
          nextCanonicalCrossing s fuel { t with pos := t.pos + 1#32, track := { t.track with level := new, dir := dir } }
            = .found (BitVec.ofNat 32 f) { t with pos := BitVec.ofNat 32 (f + 1), track := { t.track with level := levelAfter d, dir := some d } } := by
        rintro dir rfl
        refine ih { t with pos := t.pos + 1#32, track := { t.track with level := new } } ?_ hd ?_ ?_
        · show CrossesAt s (t.pos + 1#32).toNat new d f
          rw [hp1, ← hnew]; exact (crossesAt_succ hlt).mp hc
        · intro e i he hi hx
          have hx : CrossesAt s (t.pos + 1#32).toNat new e i := hx
          rw [hp1, ← hnew] at hx
          exact hf e i he hi ((crossesAt_succ (by have := hx.1; omega)).mpr hx)
        · simp only [samplesLeft] at hfu ⊢; omega
      cases hx : crossingOf t.track.level new with
      | none => exact step _ rfl
      | some e =>
        have hce := (crossesAt_here (s := s) (lv := t.track.level) (e := e) (show t.pos.toNat < _ by omega)).mpr (by rw [hnew]; exact hx)
        have hnot : ¬ (t.track.dir = none ∨ e = d) := fun h => hf e _ h hlt hce
        have hdd : t.track.dir = some d := by rcases hd with h | h; exact absurd (.inl h) hnot; exact h
        simp only [hdd, Option.getD_some]
        rw [if_neg (fun h => hnot (.inr h))]
        exact step _ hdd.symm

/-- Where no canonical crossing is left the search runs to the end of the audio (42_wav_demod.md R91). -/
theorem noCanonical_end {s : State} (hz : s.hazard = []) (fuel : Nat) (t : Stream) (hp : t.pos.toNat ≤ s.handle.wav.nsamples.toNat)
    (hf : ∀ e i, t.track.dir = none ∨ t.track.dir = some e → ¬ CrossesAt s t.pos.toNat t.track.level e i)
    (hfu : samplesLeft s t ≤ fuel) :
    nextCanonicalCrossing s fuel t = .ended t.track.pend
      { t with pos := s.handle.wav.nsamples, track := { t.track with level := levelFrom s t.pos.toNat t.track.level (samplesLeft s t) } } := by
  have hend0 : ∀ t : Stream, samplesLeft s t = 0 → t.pos.toNat ≤ s.handle.wav.nsamples.toNat →
      t = { t with pos := s.handle.wav.nsamples, track := { t.track with level := levelFrom s t.pos.toNat t.track.level (samplesLeft s t) } } := by
    intro t h0 hp
    have : t.pos = s.handle.wav.nsamples := by apply BitVec.eq_of_toNat_eq; simp only [samplesLeft] at h0; omega
    rw [h0]; show t = { t with pos := s.handle.wav.nsamples }; rw [← this]
  induction fuel generalizing t with
  | zero => rw [nextCanonicalCrossing, ← hend0 t (by omega) hp]
  | succ fuel ih =>
    rw [nextCanonicalCrossing]
    by_cases hend : s.handle.wav.nsamples ≤ t.pos
    · rw [if_pos hend, ← hend0 t (by rw [BitVec.le_def] at hend; simp only [samplesLeft]; omega) hp]
    · have hlt := not_atEnd hend
      have hp1 := pos_succ hend
      rw [if_neg hend, takeSample_clean hz]
      generalize hnew : compareLevel s.handle.act.thresh.toNat t.track.level (sampleAt s t.pos.toNat) = new
      have hs : samplesLeft s t = samplesLeft s { t with pos := t.pos + 1#32 } + 1 := by simp only [samplesLeft]; omega
      have hlv : levelFrom s t.pos.toNat t.track.level (samplesLeft s t)
          = levelFrom s (t.pos + 1#32).toNat new (samplesLeft s { t with pos := t.pos + 1#32 }) := by
        rw [hs, levelFrom, hp1, ← hnew]; rfl
      have step := ih { t with pos := t.pos + 1#32, track := { t.track with level := new } } (by show (t.pos + 1#32).toNat ≤ _; omega)
        (by
          intro e i he hx
          have hx : CrossesAt s (t.pos + 1#32).toNat new e i := hx
          rw [hp1, ← hnew] at hx
          exact hf e i he ((crossesAt_succ (by have := hx.1; omega)).mpr hx))
        (by simp only [samplesLeft] at hfu ⊢; omega)
      rw [hlv]
      cases hx : crossingOf t.track.level new with
      | none => exact step
      | some e =>
        have hce := (crossesAt_here (s := s) (lv := t.track.level) (e := e) hlt).mpr (by rw [hnew]; exact hx)
        have hnot := fun h => hf e _ h hce
        cases hdir : t.track.dir with
        | none => exact absurd (.inl hdir) hnot
        | some d =>
          have hne : ¬ e = d := by rintro rfl; exact hnot (.inr hdir)
          simp only [hdir, Option.getD_some]
          rw [if_neg hne]
          have := step; simp only [hdir] at this; exact this

end Sys2Proof.Machine
end

