-- ==== Sys2Proof/Laws/Source.lean ====
section
/-! SUPPORT. What the bit source and the framing engine read of the machine: the parameters, the snapshot, the kind, the WAV parameters and the image, and nothing else. Each function gives the same answer on `State.source s` as on `s`, so a change of any other field changes no answer. -/

namespace Sys2Proof.Machine

/-- `s` with everything the bit source and the framing engine do not read at its reset value. -/
def State.source (s : State) : State :=
  { State.reset with
    params := s.params, mem := s.mem, hazard := s.hazard
    handle := { Handle.closed with kind := s.handle.kind, act := s.handle.act, wav := s.handle.wav } }

theorem casNextBit_source (s : State) (t : Stream) : casNextBit s t = casNextBit s.source t := rfl

theorem takeSample_source (s : State) (t : Stream) : takeSample s t = takeSample s.source t := rfl

theorem samplesLeft_source (s : State) (t : Stream) : samplesLeft s t = samplesLeft s.source t := rfl

theorem nextCanonicalCrossing_source (s : State) (fuel : Nat) (t : Stream) :
    nextCanonicalCrossing s fuel t = nextCanonicalCrossing s.source fuel t := by
  induction fuel generalizing t with
  | zero => rfl
  | succ fuel ih =>
    simp only [nextCanonicalCrossing, takeSample_source s, ih]
    rfl

theorem measureCycle_source (s : State) (fuel : Nat) (t : Stream) :
    measureCycle s fuel t = measureCycle s.source fuel t := by
  induction fuel generalizing t with
  | zero => rfl
  | succ fuel ih => simp only [measureCycle, nextCanonicalCrossing_source s, samplesLeft_source s, ih]

theorem wavBitLoop_source (s : State) (fuel : Nat) (t : Stream) :
    wavBitLoop s fuel t = wavBitLoop s.source fuel t := by
  induction fuel generalizing t with
  | zero => rfl
  | succ fuel ih =>
    simp only [wavBitLoop, measureCycle_source s, samplesLeft_source s, ih]
    rfl

theorem nextBit_source (s : State) (t : Stream) : nextBit s t = nextBit s.source t := by
  have hk : s.source.handle.kind = s.handle.kind := rfl
  cases h : s.handle.kind <;>
    simp only [nextBit, hk, h, wavNextBit, wavBitLoop_source s, samplesLeft_source s, casNextBit_source s]

theorem bitsLeft_source (s : State) (t : Stream) : bitsLeft s t = bitsLeft s.source t := rfl

theorem takeBits_source (s : State) (n : Nat) (t : Stream) : takeBits s n t = takeBits s.source n t := by
  induction n generalizing t with
  | zero => rfl
  | succ n ih => simp only [takeBits, nextBit_source s, ih]

theorem readByte_source (s : State) (t : Stream) : readByte s t = readByte s.source t := by
  simp only [readByte, takeBits_source s]
  rfl

theorem seekSyncLoop_source (s : State) (fuel : Nat) (window : List Bool) (count : Nat) (t : Stream) :
    seekSyncLoop s fuel window count t = seekSyncLoop s.source fuel window count t := by
  induction fuel generalizing window count t with
  | zero => rfl
  | succ fuel ih =>
    simp only [seekSyncLoop, nextBit_source s, ih]
    rfl

theorem seekSync_source (s : State) (t : Stream) : seekSync s t = seekSync s.source t := by
  simp only [seekSync, seekSyncLoop_source s, bitsLeft_source s]

theorem readPayload_source (s : State) (left i : Nat) (buf : Vector Byte 256) (t : Stream) :
    readPayload s left i buf t = readPayload s.source left i buf t := by
  induction left generalizing i buf t with
  | zero => rfl
  | succ left ih => simp only [readPayload, readByte_source s, ih]

theorem confirmTrailer_source (s : State) (h : Held) (scan : Word) (t : Stream) :
    confirmTrailer s h scan t = confirmTrailer s.source h scan t := by
  simp only [confirmTrailer, readByte_source s]
  rfl

theorem verifyBlock_source (s : State) (h : Held) (scan : Word) (t : Stream) :
    verifyBlock s h scan t = verifyBlock s.source h scan t := by
  simp only [verifyBlock, confirmTrailer_source s]
  rfl

theorem readFrame_source (s : State) (scan : Word) (t : Stream) : readFrame s scan t = readFrame s.source scan t := by
  simp only [readFrame, readByte_source s, readPayload_source s, verifyBlock_source s]

theorem blockAttempt_source (s : State) (t : Stream) : blockAttempt s t = blockAttempt s.source t := by
  simp only [blockAttempt, seekSync_source s, readFrame_source s]

theorem nextDirLoop_source (s : State) (fuel : Nat) (t : Stream) :
    nextDirLoop s fuel t = nextDirLoop s.source fuel t := by
  induction fuel generalizing t with
  | zero => simp only [nextDirLoop, blockAttempt_source s]
  | succ fuel ih => simp only [nextDirLoop, blockAttempt_source s, ih]

/-- Two states with the same source give the same answers: rewrite one `source` into the other. -/
theorem source_eq {s s' : State} (hp : s.params = s'.params) (hm : s.mem = s'.mem) (hz : s.hazard = s'.hazard)
    (hk : s.handle.kind = s'.handle.kind) (ha : s.handle.act = s'.handle.act) (hw : s.handle.wav = s'.handle.wav) :
    s.source = s'.source := by
  simp only [State.source, hp, hm, hz, hk, ha, hw]

end Sys2Proof.Machine
end

