-- ==== Sys2Proof/Laws/State.lean ====
section
/-! SUPPORT. One lemma per field of State per named update, so that no later proof unfolds a record update. -/

namespace Sys2Proof.Machine

section
variable (s : State)

@[simp] theorem setResult_params (v : Word) : (setResult v s).params = s.params := rfl
@[simp] theorem setResult_defaults (v : Word) : (setResult v s).defaults = s.defaults := rfl
@[simp] theorem setResult_arg (v : Word) : (setResult v s).arg = s.arg := rfl
@[simp] theorem setResult_argBit (v : Word) : (setResult v s).argBit = s.argBit := rfl
@[simp] theorem setResult_handle (v : Word) : (setResult v s).handle = { s.handle with result := v } := rfl
@[simp] theorem setResult_stream (v : Word) : (setResult v s).stream = s.stream := rfl
@[simp] theorem setResult_err (v : Word) : (setResult v s).err = s.err := rfl
@[simp] theorem setResult_detail (v : Word) : (setResult v s).detail = s.detail := rfl
@[simp] theorem setResult_errSticky (v : Word) : (setResult v s).errSticky = s.errSticky := rfl
@[simp] theorem setResult_latch (v : Word) : (setResult v s).latch = s.latch := rfl
@[simp] theorem setResult_mem (v : Word) : (setResult v s).mem = s.mem := rfl
@[simp] theorem setResult_hazard (v : Word) : (setResult v s).hazard = s.hazard := rfl
@[simp] theorem setResult_hostDraws (v : Word) : (setResult v s).hostDraws = s.hostDraws := rfl
@[simp] theorem setResult_busData (v : Word) : (setResult v s).busData = s.busData := rfl
@[simp] theorem setResult_agenda (v : Word) : (setResult v s).agenda = s.agenda := rfl

@[simp] theorem setEof_params (b : Bool) : (setEof b s).params = s.params := rfl
@[simp] theorem setEof_defaults (b : Bool) : (setEof b s).defaults = s.defaults := rfl
@[simp] theorem setEof_arg (b : Bool) : (setEof b s).arg = s.arg := rfl
@[simp] theorem setEof_argBit (b : Bool) : (setEof b s).argBit = s.argBit := rfl
@[simp] theorem setEof_handle (b : Bool) : (setEof b s).handle = { s.handle with eof := b } := rfl
@[simp] theorem setEof_stream (b : Bool) : (setEof b s).stream = s.stream := rfl
@[simp] theorem setEof_err (b : Bool) : (setEof b s).err = s.err := rfl
@[simp] theorem setEof_detail (b : Bool) : (setEof b s).detail = s.detail := rfl
@[simp] theorem setEof_errSticky (b : Bool) : (setEof b s).errSticky = s.errSticky := rfl
@[simp] theorem setEof_latch (b : Bool) : (setEof b s).latch = s.latch := rfl
@[simp] theorem setEof_mem (b : Bool) : (setEof b s).mem = s.mem := rfl
@[simp] theorem setEof_hazard (b : Bool) : (setEof b s).hazard = s.hazard := rfl
@[simp] theorem setEof_hostDraws (b : Bool) : (setEof b s).hostDraws = s.hostDraws := rfl
@[simp] theorem setEof_busData (b : Bool) : (setEof b s).busData = s.busData := rfl
@[simp] theorem setEof_agenda (b : Bool) : (setEof b s).agenda = s.agenda := rfl

@[simp] theorem setStream_params (t : Stream) : (setStream t s).params = s.params := rfl
@[simp] theorem setStream_defaults (t : Stream) : (setStream t s).defaults = s.defaults := rfl
@[simp] theorem setStream_arg (t : Stream) : (setStream t s).arg = s.arg := rfl
@[simp] theorem setStream_argBit (t : Stream) : (setStream t s).argBit = s.argBit := rfl
@[simp] theorem setStream_handle (t : Stream) : (setStream t s).handle = s.handle := rfl
@[simp] theorem setStream_stream (t : Stream) : (setStream t s).stream = t := rfl
@[simp] theorem setStream_err (t : Stream) : (setStream t s).err = s.err := rfl
@[simp] theorem setStream_detail (t : Stream) : (setStream t s).detail = s.detail := rfl
@[simp] theorem setStream_errSticky (t : Stream) : (setStream t s).errSticky = s.errSticky := rfl
@[simp] theorem setStream_latch (t : Stream) : (setStream t s).latch = s.latch := rfl
@[simp] theorem setStream_mem (t : Stream) : (setStream t s).mem = s.mem := rfl
@[simp] theorem setStream_hazard (t : Stream) : (setStream t s).hazard = s.hazard := rfl
@[simp] theorem setStream_hostDraws (t : Stream) : (setStream t s).hostDraws = s.hostDraws := rfl
@[simp] theorem setStream_busData (t : Stream) : (setStream t s).busData = s.busData := rfl
@[simp] theorem setStream_agenda (t : Stream) : (setStream t s).agenda = s.agenda := rfl

@[simp] theorem setDir_params (d : DirEntry) : (setDir d s).params = s.params := rfl
@[simp] theorem setDir_defaults (d : DirEntry) : (setDir d s).defaults = s.defaults := rfl
@[simp] theorem setDir_arg (d : DirEntry) : (setDir d s).arg = s.arg := rfl
@[simp] theorem setDir_argBit (d : DirEntry) : (setDir d s).argBit = s.argBit := rfl
@[simp] theorem setDir_handle (d : DirEntry) : (setDir d s).handle = { s.handle with dir := d } := rfl
@[simp] theorem setDir_stream (d : DirEntry) : (setDir d s).stream = s.stream := rfl
@[simp] theorem setDir_err (d : DirEntry) : (setDir d s).err = s.err := rfl
@[simp] theorem setDir_detail (d : DirEntry) : (setDir d s).detail = s.detail := rfl
@[simp] theorem setDir_errSticky (d : DirEntry) : (setDir d s).errSticky = s.errSticky := rfl
@[simp] theorem setDir_latch (d : DirEntry) : (setDir d s).latch = s.latch := rfl
@[simp] theorem setDir_mem (d : DirEntry) : (setDir d s).mem = s.mem := rfl
@[simp] theorem setDir_hazard (d : DirEntry) : (setDir d s).hazard = s.hazard := rfl
@[simp] theorem setDir_hostDraws (d : DirEntry) : (setDir d s).hostDraws = s.hostDraws := rfl
@[simp] theorem setDir_busData (d : DirEntry) : (setDir d s).busData = s.busData := rfl
@[simp] theorem setDir_agenda (d : DirEntry) : (setDir d s).agenda = s.agenda := rfl

@[simp] theorem setSof_params (p : Word) (b : BitVec 3) : (setSof p b s).params = s.params := rfl
@[simp] theorem setSof_defaults (p : Word) (b : BitVec 3) : (setSof p b s).defaults = s.defaults := rfl
@[simp] theorem setSof_arg (p : Word) (b : BitVec 3) : (setSof p b s).arg = s.arg := rfl
@[simp] theorem setSof_argBit (p : Word) (b : BitVec 3) : (setSof p b s).argBit = s.argBit := rfl
@[simp] theorem setSof_handle (p : Word) (b : BitVec 3) : (setSof p b s).handle = { s.handle with sofPos := p, sofBit := b } := rfl
@[simp] theorem setSof_stream (p : Word) (b : BitVec 3) : (setSof p b s).stream = s.stream := rfl
@[simp] theorem setSof_err (p : Word) (b : BitVec 3) : (setSof p b s).err = s.err := rfl
@[simp] theorem setSof_detail (p : Word) (b : BitVec 3) : (setSof p b s).detail = s.detail := rfl
@[simp] theorem setSof_errSticky (p : Word) (b : BitVec 3) : (setSof p b s).errSticky = s.errSticky := rfl
@[simp] theorem setSof_latch (p : Word) (b : BitVec 3) : (setSof p b s).latch = s.latch := rfl
@[simp] theorem setSof_mem (p : Word) (b : BitVec 3) : (setSof p b s).mem = s.mem := rfl
@[simp] theorem setSof_hazard (p : Word) (b : BitVec 3) : (setSof p b s).hazard = s.hazard := rfl
@[simp] theorem setSof_hostDraws (p : Word) (b : BitVec 3) : (setSof p b s).hostDraws = s.hostDraws := rfl
@[simp] theorem setSof_busData (p : Word) (b : BitVec 3) : (setSof p b s).busData = s.busData := rfl
@[simp] theorem setSof_agenda (p : Word) (b : BitVec 3) : (setSof p b s).agenda = s.agenda := rfl

@[simp] theorem setScanCount_params (v : Word) : (setScanCount v s).params = s.params := rfl
@[simp] theorem setScanCount_defaults (v : Word) : (setScanCount v s).defaults = s.defaults := rfl
@[simp] theorem setScanCount_arg (v : Word) : (setScanCount v s).arg = s.arg := rfl
@[simp] theorem setScanCount_argBit (v : Word) : (setScanCount v s).argBit = s.argBit := rfl
@[simp] theorem setScanCount_handle (v : Word) : (setScanCount v s).handle = { s.handle with scanCount := v } := rfl
@[simp] theorem setScanCount_stream (v : Word) : (setScanCount v s).stream = s.stream := rfl
@[simp] theorem setScanCount_err (v : Word) : (setScanCount v s).err = s.err := rfl
@[simp] theorem setScanCount_detail (v : Word) : (setScanCount v s).detail = s.detail := rfl
@[simp] theorem setScanCount_errSticky (v : Word) : (setScanCount v s).errSticky = s.errSticky := rfl
@[simp] theorem setScanCount_latch (v : Word) : (setScanCount v s).latch = s.latch := rfl
@[simp] theorem setScanCount_mem (v : Word) : (setScanCount v s).mem = s.mem := rfl
@[simp] theorem setScanCount_hazard (v : Word) : (setScanCount v s).hazard = s.hazard := rfl
@[simp] theorem setScanCount_hostDraws (v : Word) : (setScanCount v s).hostDraws = s.hostDraws := rfl
@[simp] theorem setScanCount_busData (v : Word) : (setScanCount v s).busData = s.busData := rfl
@[simp] theorem setScanCount_agenda (v : Word) : (setScanCount v s).agenda = s.agenda := rfl

@[simp] theorem setHeld_params (h : Held) : (setHeld h s).params = s.params := rfl
@[simp] theorem setHeld_defaults (h : Held) : (setHeld h s).defaults = s.defaults := rfl
@[simp] theorem setHeld_arg (h : Held) : (setHeld h s).arg = s.arg := rfl
@[simp] theorem setHeld_argBit (h : Held) : (setHeld h s).argBit = s.argBit := rfl
@[simp] theorem setHeld_handle (h : Held) : (setHeld h s).handle = { s.handle with held := h } := rfl
@[simp] theorem setHeld_stream (h : Held) : (setHeld h s).stream = s.stream := rfl
@[simp] theorem setHeld_err (h : Held) : (setHeld h s).err = s.err := rfl
@[simp] theorem setHeld_detail (h : Held) : (setHeld h s).detail = s.detail := rfl
@[simp] theorem setHeld_errSticky (h : Held) : (setHeld h s).errSticky = s.errSticky := rfl
@[simp] theorem setHeld_latch (h : Held) : (setHeld h s).latch = s.latch := rfl
@[simp] theorem setHeld_mem (h : Held) : (setHeld h s).mem = s.mem := rfl
@[simp] theorem setHeld_hazard (h : Held) : (setHeld h s).hazard = s.hazard := rfl
@[simp] theorem setHeld_hostDraws (h : Held) : (setHeld h s).hostDraws = s.hostDraws := rfl
@[simp] theorem setHeld_busData (h : Held) : (setHeld h s).busData = s.busData := rfl
@[simp] theorem setHeld_agenda (h : Held) : (setHeld h s).agenda = s.agenda := rfl

@[simp] theorem finish_params (c : Code) : (finish c s).params = s.params := rfl
@[simp] theorem finish_defaults (c : Code) : (finish c s).defaults = s.defaults := rfl
@[simp] theorem finish_arg (c : Code) : (finish c s).arg = s.arg := rfl
@[simp] theorem finish_argBit (c : Code) : (finish c s).argBit = s.argBit := rfl
@[simp] theorem finish_handle (c : Code) : (finish c s).handle = s.handle := rfl
@[simp] theorem finish_stream (c : Code) : (finish c s).stream = s.stream := rfl
@[simp] theorem finish_err (c : Code) : (finish c s).err = c := rfl
@[simp] theorem finish_detail (c : Code) : (finish c s).detail = 0#4 := rfl
@[simp] theorem finish_errSticky (c : Code) : (finish c s).errSticky = s.errSticky := rfl
@[simp] theorem finish_latch (c : Code) : (finish c s).latch = none := rfl
@[simp] theorem finish_mem (c : Code) : (finish c s).mem = s.mem := rfl
@[simp] theorem finish_hazard (c : Code) : (finish c s).hazard = s.hazard := rfl
@[simp] theorem finish_hostDraws (c : Code) : (finish c s).hostDraws = s.hostDraws := rfl
@[simp] theorem finish_busData (c : Code) : (finish c s).busData = s.busData := rfl
@[simp] theorem finish_agenda (c : Code) : (finish c s).agenda = s.agenda := rfl

@[simp] theorem fail_params (c : Code) (d : BitVec 4) : (fail c d s).params = s.params := rfl
@[simp] theorem fail_defaults (c : Code) (d : BitVec 4) : (fail c d s).defaults = s.defaults := rfl
@[simp] theorem fail_arg (c : Code) (d : BitVec 4) : (fail c d s).arg = s.arg := rfl
@[simp] theorem fail_argBit (c : Code) (d : BitVec 4) : (fail c d s).argBit = s.argBit := rfl
@[simp] theorem fail_handle (c : Code) (d : BitVec 4) : (fail c d s).handle = s.handle := rfl
@[simp] theorem fail_stream (c : Code) (d : BitVec 4) : (fail c d s).stream = s.stream := rfl
@[simp] theorem fail_err (c : Code) (d : BitVec 4) : (fail c d s).err = c := rfl
@[simp] theorem fail_detail (c : Code) (d : BitVec 4) : (fail c d s).detail = d := rfl
@[simp] theorem fail_errSticky (c : Code) (d : BitVec 4) : (fail c d s).errSticky = s.errSticky ||| stickyMask c := rfl
@[simp] theorem fail_latch (c : Code) (d : BitVec 4) : (fail c d s).latch = none := rfl
@[simp] theorem fail_mem (c : Code) (d : BitVec 4) : (fail c d s).mem = s.mem := rfl
@[simp] theorem fail_hazard (c : Code) (d : BitVec 4) : (fail c d s).hazard = s.hazard := rfl
@[simp] theorem fail_hostDraws (c : Code) (d : BitVec 4) : (fail c d s).hostDraws = s.hostDraws := rfl
@[simp] theorem fail_busData (c : Code) (d : BitVec 4) : (fail c d s).busData = s.busData := rfl
@[simp] theorem fail_agenda (c : Code) (d : BitVec 4) : (fail c d s).agenda = s.agenda := rfl

@[simp] theorem closeHandle_params : (closeHandle s).params = s.params := rfl
@[simp] theorem closeHandle_defaults : (closeHandle s).defaults = s.defaults := rfl
@[simp] theorem closeHandle_arg : (closeHandle s).arg = s.arg := rfl
@[simp] theorem closeHandle_argBit : (closeHandle s).argBit = s.argBit := rfl
@[simp] theorem closeHandle_handle : (closeHandle s).handle = Handle.closed := rfl
@[simp] theorem closeHandle_stream : (closeHandle s).stream = Stream.closed s.stream.draws := rfl
@[simp] theorem closeHandle_err : (closeHandle s).err = s.err := rfl
@[simp] theorem closeHandle_detail : (closeHandle s).detail = s.detail := rfl
@[simp] theorem closeHandle_errSticky : (closeHandle s).errSticky = s.errSticky := rfl
@[simp] theorem closeHandle_latch : (closeHandle s).latch = s.latch := rfl
@[simp] theorem closeHandle_mem : (closeHandle s).mem = s.mem := rfl
@[simp] theorem closeHandle_hazard : (closeHandle s).hazard = s.hazard := rfl
@[simp] theorem closeHandle_hostDraws : (closeHandle s).hostDraws = s.hostDraws := rfl
@[simp] theorem closeHandle_busData : (closeHandle s).busData = s.busData := rfl
@[simp] theorem closeHandle_agenda : (closeHandle s).agenda = s.agenda := rfl

@[simp] theorem setResult_isOpen (v : Word) : (setResult v s).isOpen = s.isOpen := rfl
@[simp] theorem setResult_busy (v : Word) : (setResult v s).busy = s.busy := rfl
@[simp] theorem setEof_isOpen (b : Bool) : (setEof b s).isOpen = s.isOpen := rfl
@[simp] theorem setEof_busy (b : Bool) : (setEof b s).busy = s.busy := rfl
@[simp] theorem setStream_isOpen (t : Stream) : (setStream t s).isOpen = s.isOpen := rfl
@[simp] theorem setStream_busy (t : Stream) : (setStream t s).busy = s.busy := rfl
@[simp] theorem setDir_isOpen (d : DirEntry) : (setDir d s).isOpen = s.isOpen := rfl
@[simp] theorem setDir_busy (d : DirEntry) : (setDir d s).busy = s.busy := rfl
@[simp] theorem setSof_isOpen (p : Word) (b : BitVec 3) : (setSof p b s).isOpen = s.isOpen := rfl
@[simp] theorem setSof_busy (p : Word) (b : BitVec 3) : (setSof p b s).busy = s.busy := rfl
@[simp] theorem setScanCount_isOpen (v : Word) : (setScanCount v s).isOpen = s.isOpen := rfl
@[simp] theorem setScanCount_busy (v : Word) : (setScanCount v s).busy = s.busy := rfl
@[simp] theorem setHeld_isOpen (h : Held) : (setHeld h s).isOpen = s.isOpen := rfl
@[simp] theorem setHeld_busy (h : Held) : (setHeld h s).busy = s.busy := rfl
@[simp] theorem finish_isOpen (c : Code) : (finish c s).isOpen = s.isOpen := rfl
@[simp] theorem finish_busy (c : Code) : (finish c s).busy = false := rfl
@[simp] theorem fail_isOpen (c : Code) (d : BitVec 4) : (fail c d s).isOpen = s.isOpen := rfl
@[simp] theorem fail_busy (c : Code) (d : BitVec 4) : (fail c d s).busy = false := rfl
@[simp] theorem closeHandle_isOpen : (closeHandle s).isOpen = false := rfl
@[simp] theorem closeHandle_busy : (closeHandle s).busy = s.busy := rfl

@[simp] theorem applyAttempt_handle (a : Attempt) :
    (applyAttempt a s).handle = { s.handle with held := a.held, scanCount := a.scanCount } := rfl
@[simp] theorem applyAttempt_stream (a : Attempt) : (applyAttempt a s).stream = a.stream := rfl
@[simp] theorem applyAttempt_params (a : Attempt) : (applyAttempt a s).params = s.params := rfl
@[simp] theorem applyAttempt_defaults (a : Attempt) : (applyAttempt a s).defaults = s.defaults := rfl
@[simp] theorem applyAttempt_arg (a : Attempt) : (applyAttempt a s).arg = s.arg := rfl
@[simp] theorem applyAttempt_argBit (a : Attempt) : (applyAttempt a s).argBit = s.argBit := rfl
@[simp] theorem applyAttempt_err (a : Attempt) : (applyAttempt a s).err = s.err := rfl
@[simp] theorem applyAttempt_detail (a : Attempt) : (applyAttempt a s).detail = s.detail := rfl
@[simp] theorem applyAttempt_errSticky (a : Attempt) : (applyAttempt a s).errSticky = s.errSticky := rfl
@[simp] theorem applyAttempt_latch (a : Attempt) : (applyAttempt a s).latch = s.latch := rfl
@[simp] theorem applyAttempt_mem (a : Attempt) : (applyAttempt a s).mem = s.mem := rfl
@[simp] theorem applyAttempt_hazard (a : Attempt) : (applyAttempt a s).hazard = s.hazard := rfl
@[simp] theorem applyAttempt_hostDraws (a : Attempt) : (applyAttempt a s).hostDraws = s.hostDraws := rfl
@[simp] theorem applyAttempt_busData (a : Attempt) : (applyAttempt a s).busData = s.busData := rfl
@[simp] theorem applyAttempt_agenda (a : Attempt) : (applyAttempt a s).agenda = s.agenda := rfl

@[simp] theorem snapshot_handle : (snapshot s).handle = { s.handle with act := s.defaults } := rfl
@[simp] theorem snapshot_params : (snapshot s).params = s.params := rfl
@[simp] theorem snapshot_defaults : (snapshot s).defaults = s.defaults := rfl
@[simp] theorem snapshot_arg : (snapshot s).arg = s.arg := rfl
@[simp] theorem snapshot_argBit : (snapshot s).argBit = s.argBit := rfl
@[simp] theorem snapshot_err : (snapshot s).err = s.err := rfl
@[simp] theorem snapshot_detail : (snapshot s).detail = s.detail := rfl
@[simp] theorem snapshot_errSticky : (snapshot s).errSticky = s.errSticky := rfl
@[simp] theorem snapshot_latch : (snapshot s).latch = s.latch := rfl
@[simp] theorem snapshot_mem : (snapshot s).mem = s.mem := rfl
@[simp] theorem snapshot_hazard : (snapshot s).hazard = s.hazard := rfl
@[simp] theorem snapshot_hostDraws : (snapshot s).hostDraws = s.hostDraws := rfl
@[simp] theorem snapshot_busData : (snapshot s).busData = s.busData := rfl
@[simp] theorem snapshot_agenda : (snapshot s).agenda = s.agenda := rfl
@[simp] theorem snapshot_stream : (snapshot s).stream = s.stream := rfl

end

end Sys2Proof.Machine
end

