-- ==== Sys2Proof/Laws/Engine.lean ====
section
/-! SUPPORT. One induction for the whole engine: a reflexive and transitive relation between streams that every bit read keeps is kept by every read of the framing engine and by every reading command; and what each shared operation of the engine can answer. -/

namespace Sys2Proof.Machine

/-- The stream a bit read leaves. -/
def BitRead.stream : BitRead → Stream
  | .bit _ t => t
  | .ended _ t => t

/-- The stream a read of several bits leaves. -/
def BitsRead.stream : BitsRead → Stream
  | .bits _ t => t
  | .ended _ t => t

/-- The stream a byte read leaves. -/
def ByteRead.stream : ByteRead → Stream
  | .byte _ t => t
  | .ended _ t => t

/-- A relation between streams that `NextBit()` keeps. -/
structure StreamRel (s : State) (R : Stream → Stream → Prop) : Prop where
  refl : ∀ t, R t t
  trans : ∀ a b c, R a b → R b c → R a c
  next : ∀ t, R t (nextBit s t).stream

section
variable {s : State} {R : Stream → Stream → Prop} (h : StreamRel s R)
include h

theorem takeBits_rel (n : Nat) (t : Stream) : R t (takeBits s n t).stream := by
  induction n generalizing t with
  | zero => exact h.refl t
  | succ n ih =>
    have h1 := h.next t
    rw [takeBits]
    cases hb : nextBit s t with
    | ended mid u => rw [hb] at h1; exact h1
    | bit b u =>
      rw [hb] at h1
      have h2 := h.trans _ _ _ h1 (ih u)
      simp only at h2 ⊢
      cases hr : takeBits s n u with
      | ended mid v => rw [hr] at h2; exact h2
      | bits bs v => rw [hr] at h2; exact h2

theorem readByte_rel (t : Stream) : R t (readByte s t).stream := by
  have h1 := takeBits_rel h 8 t
  rw [readByte]
  cases hr : takeBits s 8 t with
  | ended mid v => rw [hr] at h1; exact h1
  | bits bs v => rw [hr] at h1; exact h1

theorem seekSyncLoop_rel (fuel : Nat) (window : List Bool) (count : Nat) (t : Stream) :
    R t (seekSyncLoop s fuel window count t).stream := by
  induction fuel generalizing window count t with
  | zero => exact h.refl t
  | succ fuel ih =>
    have h1 := h.next t
    rw [seekSyncLoop]
    split
    · exact h.refl t
    · cases hb : nextBit s t with
      | ended mid u => rw [hb] at h1; exact h1
      | bit b u =>
        rw [hb] at h1
        simp only
        split
        · exact h1
        · exact h.trans _ _ _ h1 (ih _ _ u)

theorem seekSync_rel (t : Stream) : R t (seekSync s t).stream := seekSyncLoop_rel h _ _ _ t

theorem readPayload_rel (left i : Nat) (buf : Vector Byte 256) (t : Stream) :
    R t (readPayload s left i buf t).2.2 := by
  induction left generalizing i buf t with
  | zero => exact h.refl t
  | succ left ih =>
    have h1 := readByte_rel h t
    rw [readPayload]
    cases hb : readByte s t with
    | ended mid u => rw [hb] at h1; exact h1
    | byte b u => rw [hb] at h1; exact h.trans _ _ _ h1 (ih _ _ u)

theorem confirmTrailer_rel (held : Held) (scan : Word) (t : Stream) : R t (confirmTrailer s held scan t).stream := by
  have h1 := readByte_rel h t
  rw [confirmTrailer]
  cases hb : readByte s t with
  | ended mid u => rw [hb] at h1; exact h1
  | byte b u =>
    rw [hb] at h1
    simp only
    split <;> exact h1

theorem verifyBlock_rel (held : Held) (scan : Word) (t : Stream) : R t (verifyBlock s held scan t).stream := by
  rw [verifyBlock]
  simp only
  split
  · exact confirmTrailer_rel h _ _ t
  · exact h.refl t

theorem readFrame_rel (scan : Word) (t : Stream) : R t (readFrame s scan t).stream := by
  have h1 := readByte_rel h t
  rw [readFrame]
  cases hb : readByte s t with
  | ended mid u => rw [hb] at h1; exact h1
  | byte typ u =>
    rw [hb] at h1
    have h2 := h.trans _ _ _ h1 (readByte_rel h u)
    simp only
    cases hb2 : readByte s u with
    | ended mid v => rw [hb2] at h2; exact h2
    | byte len v =>
      rw [hb2] at h2
      have h3 := h.trans _ _ _ h2 (readPayload_rel h len.toNat 0 Held.empty.buf v)
      simp only at h3 ⊢
      rcases hp : readPayload s len.toNat 0 Held.empty.buf v with ⟨ok, buf, w⟩
      rw [hp] at h3
      cases ok with
      | false => exact h3
      | true =>
        have h4 := h.trans _ _ _ h3 (readByte_rel h w)
        simp only at h4 ⊢
        cases hb4 : readByte s w with
        | ended mid x => rw [hb4] at h4; exact h4
        | byte rx x => rw [hb4] at h4; exact h.trans _ _ _ h4 (verifyBlock_rel h _ _ x)

theorem blockAttempt_rel (t : Stream) : R t (blockAttempt s t).stream := by
  have h1 := seekSync_rel h t
  rw [blockAttempt]
  rcases hr : seekSync s t with ⟨a, n, u⟩
  rw [hr] at h1
  cases a with
  | atEnd => exact h1
  | bound => exact h1
  | found => exact h.trans _ _ _ h1 (readFrame_rel h _ u)

theorem nextDirLoop_rel (fuel : Nat) (t : Stream) : R t (nextDirLoop s fuel t).1.stream := by
  induction fuel generalizing t with
  | zero => exact blockAttempt_rel h t
  | succ fuel ih =>
    have h1 := blockAttempt_rel h t
    rw [nextDirLoop]
    split
    · exact h1
    · exact h1
    · split
      · exact h1
      · exact h.trans _ _ _ h1 (ih _)

end

/-! ## What a block attempt can answer -/

/-- What a block attempt leaves in the held block (43_framing.md R99 to R105): how it ended fixes whether the block is
valid, and a valid block has a right checksum. -/
structure AttemptSpec (a : Attempt) : Prop where
  valid : a.outcome = .valid ↔ a.held.valid = true
  checked : a.held.valid = true → a.held.csumRx = a.held.csumCalc
  padded : ∀ i, (hi : i < 256) → a.held.blkLen.toNat ≤ i → a.held.buf[i] = 0#8
  atEnd : a.outcome = .atEnd → a.held = Held.empty
  failed : ∀ c d, a.outcome = .failed c d →
    (c = .eFraming ∧ d = 1#4) ∨ (c = .eChecksum ∧ d = 0#4) ∨ (c = .eEos ∧ d = 3#4) ∨ (c = .eTrailer ∧ d = 0#4)

/-- Reading the payload writes only the bytes below its end. -/
theorem readPayload_above (s : State) (left i : Nat) (buf : Vector Byte 256) (t : Stream) (k : Nat) (hk : k < 256)
    (h : i + left ≤ k) : (readPayload s left i buf t).2.1[k] = buf[k] := by
  induction left generalizing i buf t with
  | zero => rfl
  | succ left ih =>
    rw [readPayload]
    cases readByte s t with
    | ended mid u => rfl
    | byte b u =>
      simp only
      rw [ih (i + 1) _ u (by omega), Vector.getElem_setIfInBounds, if_neg (by omega)]

theorem confirmTrailer_spec (s : State) (held : Held) (scan : Word) (t : Stream) (hv : held.valid = false)
    (hc : held.csumRx = held.csumCalc) (hp : ∀ i, (hi : i < 256) → held.blkLen.toNat ≤ i → held.buf[i] = 0#8) :
    AttemptSpec (confirmTrailer s held scan t) := by
  rw [confirmTrailer]
  cases readByte s t with
  | ended mid u => exact ⟨by simp [hv], by simp [hv], hp, by simp, by simp⟩
  | byte b u =>
    simp only
    split
    · exact ⟨by simp, fun _ => hc, hp, by simp, by simp⟩
    · exact ⟨by simp [hv], by simp [hv], hp, by simp, by simp⟩

theorem verifyBlock_spec (s : State) (held : Held) (scan : Word) (t : Stream) (hv : held.valid = false)
    (hp : ∀ i, (hi : i < 256) → held.blkLen.toNat ≤ i → held.buf[i] = 0#8) :
    AttemptSpec (verifyBlock s held scan t) := by
  rw [verifyBlock]
  simp only
  split
  · rename_i hc; exact confirmTrailer_spec s _ scan t hv hc hp
  · exact ⟨by simp [hv], by simp [hv], hp, by simp, by simp⟩

theorem readFrame_spec (s : State) (scan : Word) (t : Stream) : AttemptSpec (readFrame s scan t) := by
  have h0 : ∀ i, (hi : i < 256) → Held.empty.buf[i] = 0#8 := fun i hi => by simp [Held.empty]
  have hv : Held.empty.valid = false := rfl
  rw [readFrame]
  cases readByte s t with
  | ended mid u => exact ⟨by simp [hv], by simp [hv], fun i hi _ => h0 i hi, by simp, by simp⟩
  | byte typ u =>
    simp only
    cases readByte s u with
    | ended mid v => exact ⟨by simp [hv], by simp [hv], fun i hi _ => h0 i hi, by simp, by simp⟩
    | byte len v =>
      simp only
      have hp : ∀ i, (hi : i < 256) → len.toNat ≤ i → (readPayload s len.toNat 0 Held.empty.buf v).2.1[i] = 0#8 := by
        intro i hi hle
        rw [readPayload_above s _ _ _ v i hi (by omega), h0]
      generalize readPayload s len.toNat 0 Held.empty.buf v = r at hp ⊢
      obtain ⟨ok, buf, w⟩ := r
      cases ok with
      | false => exact ⟨by simp [hv], by simp [hv], hp, by simp, by simp⟩
      | true =>
        simp only
        cases readByte s w with
        | ended mid x => exact ⟨by simp [hv], by simp [hv], hp, by simp, by simp⟩
        | byte rx x => exact verifyBlock_spec s _ scan x hv hp

/-- What `BlockAttempt()` can answer. -/
theorem blockAttempt_spec (s : State) (t : Stream) : AttemptSpec (blockAttempt s t) := by
  have h0 : ∀ i, (hi : i < 256) → Held.empty.buf[i] = 0#8 := fun i hi => by simp [Held.empty]
  have hv : Held.empty.valid = false := rfl
  rw [blockAttempt]
  split
  · exact ⟨by simp [hv], by simp [hv], fun i hi _ => h0 i hi, by simp, by simp⟩
  · exact ⟨by simp [hv], by simp [hv], fun i hi _ => h0 i hi, by simp, by simp⟩
  · exact readFrame_spec s _ _

/-- What the loop of NEXTDIR can answer: a block attempt of its own, made from the candidate stream. -/
theorem nextDirLoop_attempt (s : State) (fuel : Nat) (t : Stream) :
    (nextDirLoop s fuel t).1 = blockAttempt s (nextDirLoop s fuel t).2 := by
  induction fuel generalizing t with
  | zero => rfl
  | succ fuel ih =>
    rw [nextDirLoop]
    split
    · rfl
    · rfl
    · split
      · rfl
      · exact ih _

end Sys2Proof.Machine
end

