-- ==== Sys2Proof/Laws/Exec.lean ====
section
/-! SUPPORT. What each command's exec is, past the dispatch checks, and what every command does to the stream: the lemmas that later proofs cite instead of unfolding exec. -/

namespace Sys2Proof.Machine

theorem isOpen_iff (s : State) : s.isOpen = true ↔ s.handle.kind ≠ .none := by
  cases h : s.handle.kind <;> simp [State.isOpen, h]

theorem countLegal_iff (n : BitVec 4) : countLegal n = true ↔ 1 ≤ n.toNat ∧ n.toNat ≤ 8 := by
  simp only [countLegal, Config.getbitsMax, Bool.and_eq_true, decide_eq_true_eq]
  exact ⟨fun h => ⟨h.1, of_decide_eq_true h.2⟩, fun h => ⟨h.1, decide_eq_true h.2⟩⟩

section
variable {s : State} (h : s.isOpen = true)
include h

theorem exec_close_open : exec .close s = .next (finish .ok (setResult 0#32 (closeHandle s))) := by
  simp only [exec, execClose, withHandle, h, if_true]

theorem exec_seek_open :
    exec .seek s = .next (finish .ok (setResult 0#32 (setEof false (setStream (seekStream s) s)))) := by
  simp only [exec, execSeek, withHandle, h, if_true]

theorem exec_getbits_open {n : BitVec 4} (hn : countLegal n = true) :
    exec (.getbits n) s = .next (getBits n.toNat s) := by
  simp only [exec, execGetbits, withHandle, hn, h, if_true]

theorem exec_readbyte_open : exec .readbyte s = .next (readByteCommand s) := by
  simp only [exec, execReadbyte, withHandle, h, if_true]

theorem exec_seeksync_open : exec .seeksync s = .next (seekSyncCommand s) := by
  simp only [exec, execSeeksync, withHandle, h, if_true]

theorem exec_nextblock_open : exec .nextblock s = .next (nextBlockCommand s) := by
  simp only [exec, execNextblock, withHandle, h, if_true]

theorem exec_nextdir_open : exec .nextdir s = .next (nextDirCommand s) := by
  simp only [exec, execNextdir, withHandle, h, if_true]

end

/-- Without a handle every command but NOP and OPEN fails: E_MODE 1, or E_ILLEGAL 3 for an ill-formed count
(60_exceptions.md R116). -/
theorem exec_closed {s : State} (h : s.isOpen = false) (i : Instr) (hn : i ≠ .nop) (ho : i ≠ .openHandle) :
    exec i s = .next (if i.wellFormed then fail .eMode 1#4 s else fail .eIllegal 3#4 s) := by
  cases i <;>
    simp_all [exec, execClose, execSeek, execReadbyte, execSeeksync, execNextblock, execNextdir, execGetbits,
      withHandle, Instr.wellFormed]
  rfl

/-- A GETBITS with an ill-formed count fails before the handle check. -/
theorem exec_getbits_illegal {n : BitVec 4} (h : countLegal n = false) (s : State) :
    exec (.getbits n) s = .next (fail .eIllegal 3#4 s) := by
  simp [exec, execGetbits, h]

/-- Every command ends in a next state (70_reset_and_hazards.md R138). -/
theorem exec_next (i : Instr) (s : State) : ∃ t, exec i s = .next t := by
  cases i <;> exact ⟨_, rfl⟩

/-! ## The stream -/

section
variable {s : State} {R : Stream → Stream → Prop} (h : StreamRel s R)
include h

theorem getBits_rel (n : Nat) : R s.stream (getBits n s).stream := by
  have := takeBits_rel h n s.stream
  rw [getBits]
  cases hr : takeBits s n s.stream <;> rw [hr] at this <;> exact this

theorem readByteCommand_rel : R s.stream (readByteCommand s).stream := by
  have := readByte_rel h s.stream
  rw [readByteCommand]
  cases hr : readByte s s.stream <;> rw [hr] at this <;> exact this

theorem seekSyncCommand_rel : R s.stream (seekSyncCommand s).stream := by
  have := seekSync_rel h s.stream
  rw [seekSyncCommand]
  cases hr : (seekSync s s.stream).answer <;> exact this

theorem nextBlockCommand_rel : R s.stream (nextBlockCommand s).stream := by
  have := blockAttempt_rel h s.stream
  rw [nextBlockCommand]
  cases hr : (blockAttempt s s.stream).outcome <;> exact this

theorem nextDirCommand_rel : R s.stream (nextDirCommand s).stream := by
  have := nextDirLoop_rel h (bitsLeft s s.stream) s.stream
  rw [nextDirCommand]
  generalize nextDirLoop s (bitsLeft s s.stream) s.stream = r at this
  obtain ⟨a, c⟩ := r
  simp only at this ⊢
  cases a.outcome with
  | valid => simp only; split <;> exact this
  | atEnd => exact this
  | failed c d => exact this

/-- Every command but OPEN, CLOSE and SEEK moves the stream only by reading bits. -/
theorem exec_rel {i : Instr} {t : State} (ho : i ≠ .openHandle) (hc : i ≠ .close) (hs : i ≠ .seek)
    (he : exec i s = .next t) : R s.stream t.stream := by
  cases hop : s.isOpen with
  | false =>
    cases i with
    | nop => cases he; exact h.refl _
    | openHandle => exact absurd rfl ho
    | close => exact absurd rfl hc
    | seek => exact absurd rfl hs
    | getbits n | readbyte | seeksync | nextblock | nextdir =>
      rw [exec_closed hop _ (by simp) (by simp)] at he
      cases he; split <;> exact h.refl _
  | true =>
    cases i with
    | nop => cases he; exact h.refl _
    | openHandle => exact absurd rfl ho
    | close => exact absurd rfl hc
    | seek => exact absurd rfl hs
    | getbits n =>
      cases hn : countLegal n with
      | false => rw [exec_getbits_illegal hn] at he; cases he; exact h.refl _
      | true => rw [exec_getbits_open hop hn] at he; cases he; exact getBits_rel h _
    | readbyte => rw [exec_readbyte_open hop] at he; cases he; exact readByteCommand_rel h
    | seeksync => rw [exec_seeksync_open hop] at he; cases he; exact seekSyncCommand_rel h
    | nextblock => rw [exec_nextblock_open hop] at he; cases he; exact nextBlockCommand_rel h
    | nextdir => rw [exec_nextdir_open hop] at he; cases he; exact nextDirCommand_rel h

end

end Sys2Proof.Machine
end

