-- ==== Sys2Proof/Laws/Frames.lean ====
section
/-! SUPPORT. The framing engine over the bits and bytes the source gives, on either container (43_framing.md R96 to R102): Seek-Sync over a run of bits, and a frame over a run of bytes, whole or cut short. -/

open Sys2Proof.Claims

namespace Sys2Proof.Machine

/-- The last 16 bits of a run: the sync window after it. -/
def last16 (l : List Bool) : List Bool := l.drop (l.length - 16)

theorem slide_last16 (l : List Bool) (b : Bool) : slideWindow (last16 l) b = last16 (l ++ [b]) := by
  simp only [slideWindow, last16, List.length_drop, List.length_append, List.length_cons, List.length_nil]
  rw [← List.drop_append_of_le_length (by omega), List.drop_drop]
  by_cases h : 16 ≤ l.length
  · rw [show l.length - 16 + (l.length - (l.length - 16) + 1 - 16) = l.length + (0 + 1) - 16 by omega]
  · rw [show l.length - 16 + (l.length - (l.length - 16) + 1 - 16) = l.length + (0 + 1) - 16 by omega]

/-- Seek-Sync passes over a run of bits that completes no pattern and stays within the bound. -/
theorem loop_run {s : State} (bs : List Bool) (fuel : Nat) (pre : List Bool) (t u : Stream) (h : takeBits s bs.length t = .bits bs u)
    (hb : s.handle.act.scanMax = 0#32 ∨ pre.length + bs.length ≤ s.handle.act.scanMax.toNat)
    (hn : ∀ j, 0 < j → j ≤ bs.length → ¬ ((last16 (pre ++ bs.take j)).length = 16 ∧ last16 (pre ++ bs.take j) = syncPattern s)) :
    seekSyncLoop s (fuel + bs.length) (last16 pre) pre.length t = seekSyncLoop s fuel (last16 (pre ++ bs)) (pre ++ bs).length u := by
  induction bs generalizing pre t with
  | nil => simp only [List.length_nil, takeBits, BitsRead.bits.injEq] at h; simp [h.2]
  | cons b bs ih =>
    simp only [List.length_cons, takeBits] at h
    cases hr : nextBit s t with
    | ended mid t' => rw [hr] at h; cases h
    | bit b' t' =>
      rw [hr] at h; simp only at h
      cases hq : takeBits s bs.length t' with
      | ended mid t'' => rw [hq] at h; cases h
      | bits cs t'' =>
        rw [hq] at h; simp only [BitsRead.bits.injEq, List.cons.injEq] at h
        obtain ⟨⟨rfl, rfl⟩, rfl⟩ := h
        rw [List.length_cons, ← Nat.add_assoc, seekSyncLoop]
        simp only [List.length_cons] at hb
        rw [if_neg (by rintro ⟨h0, h1⟩; rcases hb with hb | hb; exact h0 hb; omega), hr]
        simp only
        rw [slide_last16, if_neg (fun hx => hn 1 (by omega) (by simp) (by simpa using hx))]
        have := ih (pre ++ [b']) t' hq (by rcases hb with hb | hb; exact .inl hb; right; simp; omega)
          (fun j h1 h2 => by
            have := hn (j + 1) (by omega) (by simp; omega)
            simpa using this)
        simp only [List.length_append, List.length_cons, List.length_nil] at this
        rw [this, List.append_assoc, List.length_append, List.length_cons]; simp only [List.cons_append, List.nil_append]
        rw [show pre.length + (0 + 1) + cs.length = pre.length + (cs.length + 1) by omega]

/-- n bytes in a row, if the source has them. -/
def readN (s : State) : Nat → Stream → Option (List Byte × Stream)
  | 0, t => some ([], t)
  | n + 1, t => match readByte s t with
    | .ended _ _ => none
    | .byte b t' => match readN s n t' with
      | none => none
      | some (bs, u) => some (b :: bs, u)

theorem readN_source (s : State) (n : Nat) (t : Stream) : readN s n t = readN s.source n t := by
  induction n generalizing t with
  | zero => rfl
  | succ n ih => simp only [readN, readByte_source s, ih]

theorem readN_add (s : State) (n m : Nat) (t u : Stream) (bs : List Byte) (h : readN s (n + m) t = some (bs, u)) :
    ∃ v, readN s n t = some (bs.take n, v) ∧ readN s m v = some (bs.drop n, u) := by
  induction n generalizing t bs with
  | zero => exact ⟨t, rfl, by simpa using h⟩
  | succ n ih =>
    rw [Nat.succ_add, readN] at h
    cases hb : readByte s t with
    | ended _ _ => rw [hb] at h; cases h
    | byte b t' =>
      rw [hb] at h; simp only at h
      cases hr : readN s (n + m) t' with
      | none => rw [hr] at h; cases h
      | some p =>
        obtain ⟨cs, w⟩ := p
        rw [hr] at h; simp only [Option.some.injEq, Prod.mk.injEq] at h
        obtain ⟨rfl, rfl⟩ := h
        obtain ⟨v, h1, h2⟩ := ih t' cs hr
        exact ⟨v, by simp [readN, hb, h1], by simpa using h2⟩

theorem readN_len {s : State} {n : Nat} {t u : Stream} {bs : List Byte} (h : readN s n t = some (bs, u)) : bs.length = n := by
  induction n generalizing t bs with
  | zero => simp only [readN, Option.some.injEq, Prod.mk.injEq] at h; rw [← h.1]; rfl
  | succ n ih =>
    rw [readN] at h
    cases hb : readByte s t with
    | ended _ _ => rw [hb] at h; cases h
    | byte b t' =>
      rw [hb] at h; simp only at h
      cases hr : readN s n t' with
      | none => rw [hr] at h; cases h
      | some p =>
        obtain ⟨cs, v⟩ := p
        rw [hr] at h; simp only [Option.some.injEq, Prod.mk.injEq] at h
        obtain ⟨h1, rfl⟩ := h
        rw [← h1, List.length_cons, ih hr]

theorem readN_one {s : State} {t u : Stream} {b : Byte} (h : readN s 1 t = some ([b], u)) : readByte s t = .byte b u := by
  rw [readN] at h
  cases hb : readByte s t with
  | ended _ _ => rw [hb] at h; cases h
  | byte c v => rw [hb] at h; simp [readN] at h; rw [h.1, h.2]

/-- The buffer with the bytes bs from index i on. -/
def fillList (bs : List Byte) (i : Nat) (buf : Vector Byte 256) : Vector Byte 256 :=
  Vector.ofFn fun j : Fin 256 => if i ≤ j.val ∧ j.val < i + bs.length then bs.getD (j.val - i) 0#8 else buf[j.val]

theorem fillList_nil (i : Nat) (buf : Vector Byte 256) : fillList [] i buf = buf := by
  apply Vector.ext; intro j hj; simp [fillList]

theorem fillList_cons (b : Byte) (bs : List Byte) (i : Nat) (buf : Vector Byte 256) (h : i + bs.length < 256) :
    fillList (b :: bs) i buf = fillList bs (i + 1) (buf.setIfInBounds i b) := by
  apply Vector.ext; intro j hj
  simp only [fillList, Vector.getElem_ofFn, Vector.getElem_setIfInBounds, List.length_cons]
  by_cases h1 : j = i
  · subst h1; simp
  · split
    · rename_i hx
      rw [if_pos (by omega)]
      obtain ⟨d, hd⟩ : ∃ d, j - i = d + 1 := ⟨j - i - 1, by omega⟩
      have : j - (i + 1) = d := by omega
      rw [hd, this]; simp
    · rw [if_neg (by omega), if_neg (by omega)]

theorem fillList_empty (bs : List Byte) : fillList bs 0 Held.empty.buf = Vector.ofFn fun i : Fin 256 => bs.getD i.val 0#8 := by
  apply Vector.ext; intro j hj
  simp only [fillList, Vector.getElem_ofFn]
  by_cases hj' : j < bs.length
  · simp [hj']
  · simp [hj', Held.empty]

/-- The payload loop over n bytes. -/
theorem readPayload_readN (s : State) (n i : Nat) (buf : Vector Byte 256) (t u : Stream) (bs : List Byte)
    (h : readN s n t = some (bs, u)) (hn : i + n ≤ 256) : readPayload s n i buf t = (true, fillList bs i buf, u) ∧ bs.length = n := by
  induction n generalizing t bs i buf with
  | zero =>
    simp only [readN, Option.some.injEq, Prod.mk.injEq] at h; obtain ⟨rfl, rfl⟩ := h
    rw [fillList_nil]; exact ⟨rfl, rfl⟩
  | succ n ih =>
    rw [readN] at h
    cases hb : readByte s t with
    | ended _ _ => rw [hb] at h; cases h
    | byte b t' =>
      rw [hb] at h; simp only at h
      cases hr : readN s n t' with
      | none => rw [hr] at h; cases h
      | some p =>
        obtain ⟨cs, w⟩ := p
        rw [hr] at h; simp only [Option.some.injEq, Prod.mk.injEq] at h
        obtain ⟨rfl, rfl⟩ := h
        obtain ⟨h1, h2⟩ := ih (i + 1) (buf.setIfInBounds i b) t' cs hr (by omega)
        rw [readPayload, hb]; simp only
        rw [h1, fillList_cons _ _ _ _ (by omega)]
        exact ⟨rfl, by simp [h2]⟩

/-- The payload loop over a source that ends after n bytes. -/
theorem readPayload_cut (s : State) (n left i : Nat) (buf : Vector Byte 256) (t u w : Stream) (bs : List Byte) (mid : Bool)
    (h : readN s n t = some (bs, u)) (hw : readByte s u = .ended mid w) (hlt : n < left) (hn : i + left ≤ 256) : readPayload s left i buf t = (false, fillList bs i buf, w) := by
  induction n generalizing t bs i buf left with
  | zero =>
    simp only [readN, Option.some.injEq, Prod.mk.injEq] at h; obtain ⟨rfl, rfl⟩ := h
    obtain ⟨l, rfl⟩ : ∃ l, left = l + 1 := ⟨left - 1, by omega⟩
    rw [fillList_nil, readPayload, hw]
  | succ n ih =>
    obtain ⟨l, rfl⟩ : ∃ l, left = l + 1 := ⟨left - 1, by omega⟩
    rw [readN] at h
    cases hb : readByte s t with
    | ended _ _ => rw [hb] at h; cases h
    | byte b t' =>
      rw [hb] at h; simp only at h
      cases hr : readN s n t' with
      | none => rw [hr] at h; cases h
      | some p =>
        obtain ⟨cs, w'⟩ := p
        rw [hr] at h; simp only [Option.some.injEq, Prod.mk.injEq] at h
        obtain ⟨rfl, rfl⟩ := h
        have h1 := ih l (i + 1) (buf.setIfInBounds i b) t' cs hr (by omega) (by omega)
        have := readN_len hr
        rw [readPayload, hb]; simp only
        rw [h1, fillList_cons _ _ _ _ (by omega)]

/-- The held block of a frame cut short after the bytes bs (43_framing.md R99). -/
def cutHeld (bs : List Byte) : Held :=
 { valid := false, blkType := bs.getD 0 0#8, blkLen := bs.getD 1 0#8, csumRx := 0#8, csumCalc := 0#8
   buf := Vector.ofFn fun i : Fin 256 => bs.getD (i.val + 2) 0#8 }

/-- A frame over a source that ends before its checksum byte. -/
theorem frame_cut (s : State) (scan : Word) (t u w : Stream) (n : Nat) (bs : List Byte) (mid : Bool) (h : readN s n t = some (bs, u)) (hw : readByte s u = .ended mid w)
   (hn : n < 2 ∨ n < (bs.getD 1 0#8).toNat + 3) : readFrame s scan t = ⟨.failed .eEos 3#4, cutHeld bs, scan, w⟩ := by
  have hlen := readN_len h
  have hz : (Vector.ofFn fun _ : Fin 256 => 0#8) = Vector.replicate 256 0#8 := by apply Vector.ext; intro i hi; simp
  rw [readFrame]
  match n, h, hlen with
  | 0, h, _ =>
    simp only [readN, Option.some.injEq, Prod.mk.injEq] at h; obtain ⟨rfl, rfl⟩ := h
    rw [hw]; simp [cutHeld, Held.empty, hz]
  | 1, h, _ =>
    simp only [readN] at h
    cases hb : readByte s t with
    | ended _ _ => rw [hb] at h; cases h
    | byte b t' =>
      rw [hb] at h; simp only [Option.some.injEq, Prod.mk.injEq] at h; obtain ⟨rfl, rfl⟩ := h
      simp only [hw]; simp [cutHeld, Held.empty, hz]
  | m + 2, h, hlen =>
    have e : m + 2 = 1 + (1 + m) := by omega
    rw [e] at h
    obtain ⟨v1, h1, hN⟩ := readN_add _ _ _ _ _ _ h
    obtain ⟨v2, h2, hN⟩ := readN_add _ _ _ _ _ _ hN
    match bs, hlen with
    | a :: b :: cs, hlen =>
    simp only [List.take_succ_cons, List.take_zero, List.drop_succ_cons, List.drop_zero] at h1 h2 hN
    have g1 := readN_one h1
    have g2 := readN_one h2
    have hb : m < b.toNat + 1 := by simp at hn; omega
    have hL := b.isLt
    simp only [g1, g2]
    by_cases hm : m < b.toNat
    · rw [readPayload_cut s m b.toNat 0 _ _ _ _ _ _ hN hw hm (by omega)]
      simp only [fillList_empty]
      rfl
    · have hm : m = b.toNat := by omega
      subst hm
      rw [(readPayload_readN s b.toNat 0 _ _ _ _ hN (by omega)).1]
      simp only [hw, fillList_empty]
      rfl

end Sys2Proof.Machine
end

