-- ==== Sys2Proof/Laws/Memory.lean ====
section
/-! SUPPORT. The laws of the image memory: a write is read back there and nowhere else, and every memory operation keeps the canonical form. -/

namespace Sys2Proof.Machine

theorem findCell_insertCell (l : List Host.Cell) (a : Nat) (v : Byte) (x : Nat) :
    findCell (insertCell l a v) x = if x = a then some v else findCell l x := by
  induction l with
  | nil =>
    simp only [insertCell, findCell]
    split_ifs <;> first | rfl | omega
  | cons c l ih =>
    obtain ⟨y, b⟩ := c
    simp only [insertCell]
    split_ifs <;> simp only [findCell] <;> (try rw [ih]) <;> split_ifs <;> first | rfl | omega

@[simp] theorem read_write_same (m : Memory) (a : Nat) (v : Byte) : (m.write a v).read a = v := by
  simp [Memory.read, Memory.write, findCell_insertCell]

theorem read_write_other (m : Memory) (a : Nat) (v : Byte) {x : Nat} (h : x ≠ a) :
    (m.write a v).read x = m.read x := by
  simp [Memory.read, Memory.write, findCell_insertCell, h]

@[simp] theorem write_unit (m : Memory) (a : Nat) (v : Byte) : (m.write a v).unit = m.unit := rfl

/-- Every cell after a write is the written one or one of before. -/
theorem mem_insertCell {l : List Host.Cell} {a : Nat} {v : Byte} {c : Host.Cell} (h : c ∈ insertCell l a v) :
    c = (a, v) ∨ c ∈ l := by
  induction l with
  | nil => simpa [insertCell] using h
  | cons d l ih =>
    obtain ⟨y, b⟩ := d
    simp only [insertCell] at h
    split at h
    · simp only [List.mem_cons] at h ⊢; tauto
    · split at h
      · simp only [List.mem_cons] at h ⊢; tauto
      · simp only [List.mem_cons] at h ⊢
        rcases h with h | h
        · tauto
        · have := ih h; tauto

theorem insertCell_sorted {l : List Host.Cell} (h : l.Pairwise fun c d => c.1 < d.1) (a : Nat) (v : Byte) :
    (insertCell l a v).Pairwise fun c d => c.1 < d.1 := by
  induction l with
  | nil => simp [insertCell]
  | cons d l ih =>
    obtain ⟨y, b⟩ := d
    have hd := List.pairwise_cons.mp h
    simp only [insertCell]
    split
    · rename_i hlt
      refine List.pairwise_cons.mpr ⟨fun c hc => ?_, h⟩
      rcases List.mem_cons.mp hc with rfl | hc
      · exact hlt
      · exact lt_trans hlt (hd.1 c hc)
    · split
      · rename_i heq
        exact List.pairwise_cons.mpr ⟨fun c hc => by simpa [heq] using hd.1 c hc, hd.2⟩
      · rename_i h1 h2
        refine List.pairwise_cons.mpr ⟨fun c hc => ?_, ih hd.2⟩
        rcases mem_insertCell hc with rfl | hc
        · show y < a; omega
        · exact hd.1 c hc

/-- A write keeps the canonical form. -/
theorem write_wf {m : Memory} (h : m.wf) (a : Nat) (v : Byte) : (m.write a v).wf := insertCell_sorted h a v

theorem mem_insertAddr (l : List Nat) (a x : Nat) : x ∈ insertAddr l a ↔ x ∈ l ∨ x = a := by
  induction l with
  | nil => simp [insertAddr]
  | cons y l ih =>
    simp only [insertAddr]
    split
    · simp only [List.mem_cons]; tauto
    · split
      · rename_i h; subst h; simp only [List.mem_cons]; tauto
      · simp only [List.mem_cons, ih]; tauto

/-- Inserting an address keeps the list strictly rising. -/
theorem insertAddr_sorted {l : List Nat} (h : l.Pairwise (· < ·)) (a : Nat) : (insertAddr l a).Pairwise (· < ·) := by
  induction l with
  | nil => simp [insertAddr]
  | cons y l ih =>
    have hd := List.pairwise_cons.mp h
    simp only [insertAddr]
    split
    · rename_i hlt
      refine List.pairwise_cons.mpr ⟨fun c hc => ?_, h⟩
      rcases List.mem_cons.mp hc with rfl | hc
      · exact hlt
      · exact lt_trans hlt (hd.1 c hc)
    · split
      · exact h
      · refine List.pairwise_cons.mpr ⟨fun c hc => ?_, ih hd.2⟩
        rcases (mem_insertAddr l a c).mp hc with hc | rfl
        · exact hd.1 c hc
        · omega

/-- Reading a byte that was not written under the open handle draws nothing and is the memory's byte. -/
theorem readImage_clean {s : State} {a : Nat} (h : a ∉ s.hazard) (d : Nat) : readImage s d a = (s.mem.read a, d) := by
  simp [readImage, h]

/-- The image memory after reset is canonical. -/
theorem reset_mem_wf : State.reset.mem.wf := List.Pairwise.nil

end Sys2Proof.Machine
end

