-- ==== Sys2Proof/Laws/PerInstr.lean ====
section
/-! SUPPORT. Statements about every command as syntax, one lemma per constructor. EncodeFields: the word of a command has the command's OP, its N and reserved bits 0 (30_encoding.md R55). -/

namespace Sys2Proof.Laws.EncodeFields

/-- The three fields of the encoded word. -/
def Statement (i : Instr) : Prop :=
  opField (encode i) = opcodeOf i ∧ nField (encode i) = countOf i ∧ reservedField (encode i) = 0#20

theorem nop : Statement .nop := by unfold Statement; decide

theorem openHandle : Statement .openHandle := by unfold Statement; decide

theorem close : Statement .close := by unfold Statement; decide

theorem getbits (n : BitVec 4) : Statement (.getbits n) := by
  revert n; unfold Statement; decide

theorem seek : Statement .seek := by unfold Statement; decide

theorem readbyte : Statement .readbyte := by unfold Statement; decide

theorem seeksync : Statement .seeksync := by unfold Statement; decide

theorem nextblock : Statement .nextblock := by unfold Statement; decide

theorem nextdir : Statement .nextdir := by unfold Statement; decide

end Sys2Proof.Laws.EncodeFields
end

