-- ==== Sys2Proof/Laws/Progress.lean ====
section
/-! SUPPORT. Every bit read takes the stream nearer to its end (42_wav_demod.md R92, 70_reset_and_hazards.md R138), so the fuel of the scanning loops never cuts a scan short (log 15). -/

namespace Sys2Proof.Machine

/-- A CAS bit moves the cursor one bit on (41_cas_bitreader.md R78), and nothing of the tracking state. -/
theorem casNextBit_step (s : State) (t : Stream) :
    (s.handle.act.imgLen ≤ t.pos ∧ casNextBit s t = .ended false t) ∨
    (¬ s.handle.act.imgLen ≤ t.pos ∧ ∃ b t', casNextBit s t = .bit b t' ∧ t'.track = t.track ∧
      8 * t'.pos.toNat + t'.posBit.toNat = 8 * t.pos.toNat + t.posBit.toNat + 1) := by
  by_cases h : s.handle.act.imgLen ≤ t.pos
  · exact .inl ⟨h, by rw [casNextBit, if_pos h]⟩
  · refine .inr ⟨h, ?_⟩
    have hl := s.handle.act.imgLen.isLt
    have hb := t.posBit.isLt
    rw [BitVec.le_def] at h
    rw [casNextBit, if_neg (by rw [BitVec.le_def]; exact h)]
    simp only
    by_cases h7 : t.posBit = 7#3
    · rw [if_pos h7]
      exact ⟨_, _, rfl, rfl, by simp only [h7, BitVec.toNat_add, BitVec.toNat_ofNat]; omega⟩
    · have h7' : t.posBit.toNat ≠ 7 := fun e => h7 (BitVec.eq_of_toNat_eq (by simpa using e))
      rw [if_neg h7]
      exact ⟨_, _, rfl, rfl, by simp only [BitVec.toNat_add, BitVec.toNat_ofNat]; omega⟩

/-- `NextBit()` that answers a bit leaves fewer bits; one that meets the end leaves no more. -/
theorem nextBit_progress (s : State) (t : Stream) :
    (∃ b t', nextBit s t = .bit b t' ∧ bitsLeft s t' < bitsLeft s t) ∨
    (∃ mid t', nextBit s t = .ended mid t' ∧ bitsLeft s t' ≤ bitsLeft s t) := by
  cases hk : s.handle.kind with
  | none => exact .inr ⟨false, t, by simp only [nextBit, hk], le_refl _⟩
  | cas =>
    simp only [nextBit, bitsLeft, hk]
    obtain ⟨-, h⟩ | ⟨hlt, b, t', h, -, hp⟩ := casNextBit_step s t
    · exact .inr ⟨false, t, h, le_refl _⟩
    · refine .inl ⟨b, t', h, ?_⟩
      rw [BitVec.le_def] at hlt
      have := t.posBit.isLt; have := t'.posBit.isLt
      omega
  | wav =>
    simp only [nextBit, bitsLeft, hk, wavNextBit, samplesLeft]
    obtain ⟨t', h, hf⟩ | ⟨b, t', h, -, h1, h2, -⟩ := wavBitLoop_spec s (s.handle.wav.nsamples.toNat - t.pos.toNat) t
    · exact .inr ⟨_, t', h, by have := hf.pos; omega⟩
    · exact .inl ⟨b, t', h, by omega⟩

/-- The engine never has more bits left than it had. -/
theorem bitsLeft_rel (s : State) : StreamRel s fun t t' => bitsLeft s t' ≤ bitsLeft s t where
  refl _ := le_refl _
  trans _ _ _ h k := le_trans k h
  next t := by
    obtain ⟨b, t', h, hl⟩ | ⟨mid, t', h, hl⟩ := nextBit_progress s t <;> rw [h]
    · exact hl.le
    · exact hl

/-- At the end of the stream no bit is left to read. -/
theorem nextBit_of_bitsLeft {s : State} {t : Stream} (h : bitsLeft s t = 0) :
    ∃ mid t', nextBit s t = .ended mid t' ∧ bitsLeft s t' = 0 := by
  obtain ⟨b, t', -, hl⟩ | ⟨mid, t', hb, hl⟩ := nextBit_progress s t
  · omega
  · exact ⟨mid, t', hb, by omega⟩

/-- More fuel than bits left changes nothing of a scan (43_framing.md R97). -/
theorem seekSyncLoop_fuel (s : State) (f : Nat) (window : List Bool) (count : Nat) (t : Stream) (h : bitsLeft s t < f) :
    seekSyncLoop s f window count t = seekSyncLoop s (bitsLeft s t + 1) window count t := by
  generalize hl : bitsLeft s t = l at h ⊢
  induction l using Nat.strong_induction_on generalizing f window count t with
  | _ l ih =>
    obtain ⟨f, rfl⟩ : ∃ g, f = g + 1 := ⟨f - 1, by omega⟩
    rw [seekSyncLoop, seekSyncLoop]
    obtain ⟨b, t', hb, hlt⟩ | ⟨mid, t', hb, -⟩ := nextBit_progress s t
    · have go : ∀ w n, seekSyncLoop s f w n t' = seekSyncLoop s l w n t' := by
        intro w n
        rw [ih _ (by omega) f w n t' rfl (by omega)]
        by_cases he : l = bitsLeft s t' + 1
        · rw [he]
        · rw [ih _ (by omega) l w n t' rfl (by omega)]
      simp only [hb, go]
    · simp only [hb]

/-- A scan that finds the marker has taken a bit. -/
theorem seekSyncLoop_found {s : State} {f : Nat} {window : List Bool} {count : Nat} {t : Stream}
    (h : (seekSyncLoop s f window count t).answer = .found) :
    bitsLeft s (seekSyncLoop s f window count t).stream < bitsLeft s t := by
  induction f generalizing window count t with
  | zero => exact absurd h (by simp [seekSyncLoop])
  | succ f ih =>
    rw [seekSyncLoop] at h ⊢
    split at h
    · cases h
    · rename_i hb
      rw [if_neg hb]
      obtain ⟨b, t', hb, hlt⟩ | ⟨mid, t', hb, -⟩ := nextBit_progress s t
      · rw [hb] at h ⊢
        simp only at h ⊢
        split at h
        · rename_i hw; rw [if_pos hw]; exact hlt
        · rename_i hw; rw [if_neg hw]; exact lt_trans (ih h) hlt
      · rw [hb] at h; cases h

/-- A valid block has taken a bit. -/
theorem blockAttempt_progress {s : State} {t : Stream} (h : (blockAttempt s t).outcome = .valid) :
    bitsLeft s (blockAttempt s t).stream < bitsLeft s t := by
  have hf := @seekSyncLoop_found s (bitsLeft s t + 1) [] 0 t
  have hr := readFrame_rel (bitsLeft_rel s) (BitVec.ofNat 32 (seekSync s t).count) (seekSync s t).stream
  have he : blockAttempt s t = match (seekSync s t).answer with
    | .atEnd => ⟨.atEnd, Held.empty, BitVec.ofNat 32 (seekSync s t).count, (seekSync s t).stream⟩
    | .bound => ⟨.failed .eFraming 1#4, Held.empty, BitVec.ofNat 32 (seekSync s t).count, (seekSync s t).stream⟩
    | .found => readFrame s (BitVec.ofNat 32 (seekSync s t).count) (seekSync s t).stream := rfl
  change (seekSync s t).answer = .found → bitsLeft s (seekSync s t).stream < bitsLeft s t at hf
  rw [he] at h ⊢
  cases ha : (seekSync s t).answer with
  | atEnd => rw [ha] at h; cases h
  | bound => rw [ha] at h; cases h
  | found => exact lt_of_le_of_lt hr (hf ha)

/-- More fuel than bits left changes nothing of NEXTDIR's loop (43_framing.md R108). -/
theorem nextDirLoop_fuel (s : State) (f : Nat) (t : Stream) (h : bitsLeft s t ≤ f) :
    nextDirLoop s f t = nextDirLoop s (bitsLeft s t) t := by
  generalize hl : bitsLeft s t = l at h ⊢
  induction l using Nat.strong_induction_on generalizing f t with
  | _ l ih =>
    have hp := @blockAttempt_progress s t
    cases f with
    | zero =>
      have : l = 0 := by omega
      subst this; rfl
    | succ f =>
      cases l with
      | zero =>
        rw [nextDirLoop, nextDirLoop]
        cases ho : (blockAttempt s t).outcome with
        | valid => exact absurd (hp ho) (by omega)
        | atEnd => simp only
        | failed c d => simp only
      | succ l =>
        rw [nextDirLoop, nextDirLoop]
        cases ho : (blockAttempt s t).outcome with
        | atEnd => simp only
        | failed c d => simp only
        | valid =>
          have hlt := hp ho
          simp only
          split
          · rfl
          · rw [ih _ (by omega) f _ rfl (by omega), ih _ (by omega) l _ rfl (by omega)]

end Sys2Proof.Machine
end

