-- ==== Sys2Proof/Laws/Riff.lean ====
section
/-! SUPPORT. What `RiffParse()` can answer (40_lifecycle.md R71), and that it reads only bytes below the length it is given. -/

open Sys2Proof.Claims

namespace Sys2Proof.Machine

theorem littleEndian_lt (l : List Byte) : littleEndian l < 256 ^ l.length := by
  induction l with
  | nil => simp [littleEndian]
  | cons b l ih =>
    have := b.isLt
    simp only [littleEndian, List.length_cons, Nat.pow_succ]
    omega

theorem readLE_lt (m : Memory) (a n : Nat) : m.readLE a n < 256 ^ n := by
  have := littleEndian_lt (m.readBytes a n)
  simpa [Memory.readLE, Memory.readBytes] using this

/-- What the chunk walk has found stays in range: numbers of their field's width, a data chunk that starts inside the
image. -/
structure ChunksInv (len : Nat) (c : Chunks) : Prop where
  fmt : ∀ rate bps, c.fmt = some (rate, bps) → rate < 2 ^ 32 ∧ bps < 2 ^ 16
  data : ∀ off size, c.data = some (off, size) → off ≤ len ∧ size < 2 ^ 32

theorem walkChunks_inv (m : Memory) (pad : Bool) (len fuel p : Nat) (c c' : Chunks) (hc : ChunksInv len c)
    (h : walkChunks m pad len fuel p c = some c') : ChunksInv len c' := by
  induction fuel generalizing p c with
  | zero => cases h; exact hc
  | succ fuel ih =>
    have hs : m.readLE (p + 4) 4 < 2 ^ 32 := readLE_lt m _ 4
    rw [walkChunks] at h
    split at h
    · cases h; exact hc
    · rename_i hp
      simp only at h
      split at h
      · split at h
        · cases h
        · refine ih _ { c with fmt := some (m.readLE (p + 12) 4, m.readLE (p + 22) 2) } ⟨fun rate bps hx => ?_, hc.data⟩ h
          simp only [Option.some.injEq, Prod.mk.injEq] at hx
          exact ⟨hx.1 ▸ readLE_lt m _ 4, hx.2 ▸ readLE_lt m _ 2⟩
      · split at h
        · refine ih _ { c with data := some (p + 8, m.readLE (p + 4) 4) } ⟨hc.fmt, fun off size hx => ?_⟩ h
          simp only [Option.some.injEq, Prod.mk.injEq] at hx
          exact ⟨by omega, by omega⟩
        · exact ih _ _ hc h

/-- A parsed header: a legal depth, a rate, and every sample inside the first `len` bytes (42_wav_demod.md R82). -/
structure ParsedHeader (len : Nat) (w : WavParams) : Prop where
  depth : w.bps = 8#16 ∨ w.bps = 16#16
  rate : w.srate ≠ 0#32
  samplesInImage : w.dataOff.toNat + w.nsamples.toNat * sampleStride w ≤ len

/-- What `RiffParse()` can answer: a header in good order, or one of the details of E_HEADER (60_exceptions.md R113). -/
theorem riffParse_spec (m : Memory) (pad : Bool) (len : Nat) (hlen : len < 2 ^ 32) :
    (∃ w, riffParse m pad len = .ok w ∧ ParsedHeader len w) ∨
    (∃ d, riffParse m pad len = .error d ∧ 1#4 ≤ d ∧ d ≤ 6#4) := by
  rw [riffParse]
  split
  · exact .inr ⟨1#4, rfl, by decide, by decide⟩
  · cases hw : walkChunks m pad len len 12 ⟨none, none⟩ with
    | none => exact .inr ⟨4#4, rfl, by decide, by decide⟩
    | some c =>
      have hc := walkChunks_inv m pad len len 12 _ _ ⟨fun _ _ h => (by cases h), fun _ _ h => (by cases h)⟩ hw
      obtain ⟨fmt, data⟩ := c
      simp only [wavParams]
      cases fmt with
      | none => exact .inr ⟨2#4, rfl, by decide, by decide⟩
      | some f =>
        obtain ⟨rate, bps⟩ := f
        cases data with
        | none => exact .inr ⟨3#4, rfl, by decide, by decide⟩
        | some d =>
          obtain ⟨off, size⟩ := d
          obtain ⟨hr, hb⟩ := hc.fmt rate bps rfl
          obtain ⟨ho, hs⟩ := hc.data off size rfl
          simp only
          by_cases h1 : bps ≠ 8 ∧ bps ≠ 16
          · rw [if_pos h1]; exact .inr ⟨5#4, rfl, by decide, by decide⟩
          · rw [if_neg h1]
            by_cases h2 : rate = 0
            · rw [if_pos h2]; exact .inr ⟨6#4, rfl, by decide, by decide⟩
            · rw [if_neg h2]
              refine .inl ⟨_, rfl, ?_, ?_, ?_⟩
              · have : bps = 8 ∨ bps = 16 := by omega
                rcases this with rfl | rfl
                · exact .inl rfl
                · exact .inr rfl
              · intro h
                have := congrArg BitVec.toNat h
                simp only [BitVec.toNat_ofNat] at this
                omega
              · simp only [BitVec.toNat_ofNat, sampleStride]
                have hb8 : (BitVec.ofNat 16 bps = 8#16) ↔ bps = 8 := by
                  constructor
                  · intro h
                    have := congrArg BitVec.toNat h
                    simp only [BitVec.toNat_ofNat] at this
                    omega
                  · rintro rfl; rfl
                by_cases h8 : bps = 8
                · rw [if_pos h8, if_pos (hb8.mpr h8), Nat.div_one, Nat.mod_eq_of_lt (by omega),
                    Nat.mod_eq_of_lt (by omega)]
                  omega
                · rw [if_neg h8, if_neg (fun h => h8 (hb8.mp h)), Nat.mod_eq_of_lt (by omega),
                    Nat.mod_eq_of_lt (by omega)]
                  omega

/-! ## Bytes above the length are not read -/

section
variable {m m' : Memory} {len : Nat} (h : ∀ a, a < len → m'.read a = m.read a)
include h

theorem readBytes_congr {a n : Nat} (hn : a + n ≤ len) : m'.readBytes a n = m.readBytes a n := by
  apply List.map_congr_left
  intro i hi
  simp only [List.mem_range] at hi
  exact h _ (by omega)

theorem readLE_congr {a n : Nat} (hn : a + n ≤ len) : m'.readLE a n = m.readLE a n := by
  simp only [Memory.readLE, readBytes_congr h hn]

theorem walkChunks_congr (pad : Bool) (fuel p : Nat) (c : Chunks) :
    walkChunks m' pad len fuel p c = walkChunks m pad len fuel p c := by
  induction fuel generalizing p c with
  | zero => rfl
  | succ fuel ih =>
    rw [walkChunks, walkChunks]
    split
    · rfl
    · rename_i hp
      rw [readBytes_congr h (by omega), readLE_congr h (by omega)]
      simp only [ih]
      split
      · split
        · rfl
        · rw [readLE_congr h (by omega), readLE_congr h (by omega)]
      · rfl

/-- `RiffParse()` is a function of the bytes below the length (20_memory.md R41). -/
theorem riffParse_congr (pad : Bool) : riffParse m' pad len = riffParse m pad len := by
  rw [riffParse, riffParse]
  by_cases hl : len < 12
  · rw [if_pos (.inl hl), if_pos (.inl hl)]
  · rw [readBytes_congr h (by omega), readBytes_congr h (by omega), readLE_congr h (by omega), walkChunks_congr h]

end

theorem le32_toNat (m : Memory) (a : Nat) : (le32 m a).toNat = m.readLE a 4 := by
  have h0 := (m.read a).isLt; have h1 := (m.read (a+1)).isLt; have h2 := (m.read (a+2)).isLt; have h3 := (m.read (a+3)).isLt
  rw [le32]
  simp only [BitVec.toNat_append, Memory.readLE, Memory.readBytes, show List.range 4 = [0,1,2,3] by decide, List.map_cons, List.map_nil, littleEndian, Nat.add_zero]
  rw [← Nat.shiftLeft_add_eq_or_of_lt (by omega), ← Nat.shiftLeft_add_eq_or_of_lt (by omega), ← Nat.shiftLeft_add_eq_or_of_lt (by omega)]
  simp only [Nat.shiftLeft_eq]; omega

theorem le16_toNat (m : Memory) (a : Nat) : (le16 m a).toNat = m.readLE a 2 := by
  have h0 := (m.read a).isLt; have h1 := (m.read (a+1)).isLt
  rw [le16]
  simp only [BitVec.toNat_append, Memory.readLE, Memory.readBytes, show List.range 2 = [0,1] by decide, List.map_cons, List.map_nil, littleEndian, Nat.add_zero]
  rw [← Nat.shiftLeft_add_eq_or_of_lt (by omega)]
  simp only [Nat.shiftLeft_eq]; omega

/-- ChunksFrom steps as nextChunk does. -/
theorem next_eq (m : Memory) (pad : Bool) (p : Nat) :
   p + 8 + (le32 m (p + 4)).toNat + (if pad ∧ (le32 m (p + 4)).toNat % 2 = 1 then 1 else 0) = nextChunk pad p (m.readLE (p+4) 4) := by
  rw [nextChunk, le32_toNat]; cases pad <;> simp

theorem chunks_ge {m : Memory} {pad : Bool} {len p q : Nat} {l : List Nat} (h : ChunksFrom m pad len p l q) : (∀ x ∈ l, p ≤ x) := by
  induction l generalizing p with
  | nil => simp
  | cons y ys ih =>
    obtain ⟨rfl, h1, h2⟩ := h
    intro x hx
    rcases List.mem_cons.mp hx with rfl | hx
    · exact le_refl _
    · have := ih h2 x hx; omega

theorem first_cons {m : Memory} {pad : Bool} {len q x f : Nat} {xs : List Nat} {i : List Byte} (h : ChunksFrom m pad len x (x :: xs) q)
   (hf : FirstChunk m (x :: xs) i f) : (f = x ∧ m.readBytes x 4 = i) ∨ (m.readBytes x 4 ≠ i ∧ FirstChunk m xs i f) := by
  obtain ⟨h1, h2, h3⟩ := hf
  rcases List.mem_cons.mp h1 with rfl | h1
  · exact .inl ⟨rfl, h2⟩
  · right
    have := chunks_ge h.2.2 f h1
    exact ⟨h3 x (by simp) (by omega), h1, h2, fun y hy => h3 y (by simp [hy])⟩

section Walk

variable {m : Memory} {pad : Bool} {len q : Nat}

/-- The walk over chunks among which a first good `fmt ` and a first `data` stand finds just those two. -/
theorem walk_ok {f d : Nat} (hs : 16 ≤ m.readLE (f + 4) 4) (hl : f + 24 ≤ len) (l : List Nat) (p fuel : Nat) (c : Chunks) (h : ChunksFrom m pad len p l q)
   (hf : c.fmt = some (m.readLE (f + 12) 4, m.readLE (f + 22) 2) ∨ (c.fmt = none ∧ FirstChunk m l fmtId f))
   (hd : c.data = some (d + 8, m.readLE (d + 4) 4) ∨ (c.data = none ∧ FirstChunk m l dataId d)) (hfu : len ≤ fuel + p) :
   walkChunks m pad len fuel p c = some ⟨some (m.readLE (f + 12) 4, m.readLE (f + 22) 2), some (d + 8, m.readLE (d + 4) 4)⟩ := by
  induction l generalizing p c fuel with
  | nil =>
    rcases hf with hf | ⟨-, hf⟩
    · rcases hd with hd | ⟨-, hd⟩
      · obtain ⟨a, b⟩ := c; simp only at hf hd; subst hf hd
        cases fuel with
        | zero => rfl
        | succ fuel => rw [walkChunks, if_pos (.inr (by simp))]
      · simp [FirstChunk] at hd
    · simp [FirstChunk] at hf
  | cons x xs ih =>
    have hx := h
    obtain ⟨rfl, h1, h2⟩ := h
    rw [next_eq] at h2
    obtain ⟨fuel, rfl⟩ : ∃ g, fuel = g + 1 := ⟨fuel - 1, by omega⟩
    have hfu' : len ≤ fuel + nextChunk pad x (m.readLE (x + 4) 4) := by unfold nextChunk; omega
    obtain ⟨a, b⟩ := c
    rw [walkChunks]
    by_cases hboth : (a.isSome ∧ b.isSome)
    · rw [if_pos (.inr hboth)]
      rcases hf with hf | ⟨hf, -⟩ <;> rcases hd with hd | ⟨hd, -⟩ <;> simp only at hf hd <;> subst hf hd <;> simp at hboth ⊢
    rw [if_neg (by rintro (h | h); · omega
                   · exact hboth h)]
    simp only
    by_cases hid : m.readBytes x 4 = fmtId
    · have hnd : m.readBytes x 4 ≠ dataId := by rw [hid]; decide
      have hd' : b = some (d + 8, m.readLE (d + 4) 4) ∨ (b = none ∧ FirstChunk m xs dataId d) := by
        rcases hd with hd | ⟨hd, hd2⟩
        · exact .inl hd
        · rcases first_cons hx hd2 with ⟨-, h⟩ | ⟨-, h⟩
          · exact absurd h hnd
          · exact .inr ⟨hd, h⟩
      rcases hf with hf | ⟨hf, hf2⟩
      · simp only at hf; subst hf
        rw [if_neg (by simp), if_neg (by simp [hnd])]
        exact ih _ _ _ h2 (.inl rfl) hd' hfu'
      · simp only at hf; subst hf
        rcases first_cons hx hf2 with ⟨rfl, -⟩ | ⟨h, -⟩
        · rw [if_pos ⟨hid, rfl⟩, if_neg (by omega)]
          exact ih _ _ _ h2 (.inl rfl) hd' hfu'
        · exact absurd hid h
    · rw [if_neg (by simp [hid])]
      have hf' : a = some (m.readLE (f + 12) 4, m.readLE (f + 22) 2) ∨ (a = none ∧ FirstChunk m xs fmtId f) := by
        rcases hf with hf | ⟨hf, hf2⟩
        · exact .inl hf
        · rcases first_cons hx hf2 with ⟨-, h⟩ | ⟨-, h⟩
          · exact absurd h hid
          · exact .inr ⟨hf, h⟩
      by_cases hdi : m.readBytes x 4 = dataId
      · rcases hd with hd | ⟨hd, hd2⟩
        · simp only at hd; subst hd
          rw [if_neg (by simp)]
          exact ih _ _ _ h2 hf' (.inl rfl) hfu'
        · simp only at hd; subst hd
          rcases first_cons hx hd2 with ⟨rfl, -⟩ | ⟨h, -⟩
          · rw [if_pos ⟨hdi, rfl⟩]
            exact ih _ _ _ h2 hf' (.inl rfl) hfu'
          · exact absurd hdi h
      · rw [if_neg (by simp [hdi])]
        refine ih _ _ _ h2 hf' ?_ hfu'
        rcases hd with hd | ⟨hd, hd2⟩
        · exact .inl hd
        · rcases first_cons hx hd2 with ⟨-, h⟩ | ⟨-, h⟩
          · exact absurd h hdi
          · exact .inr ⟨hd, h⟩

/-- A first `fmt ` chunk that is short or does not fit is E_HEADER 4. -/
theorem walk_bad {f : Nat} (hbad : m.readLE (f + 4) 4 < 16 ∨ len < f + 24) (l : List Nat) (p fuel : Nat) (c : Chunks) (h : ChunksFrom m pad len p l q)
   (hf : c.fmt = none) (hf2 : FirstChunk m l fmtId f) (hfu : len ≤ fuel + p) :
   walkChunks m pad len fuel p c = none := by
  induction l generalizing p c fuel with
  | nil => simp [FirstChunk] at hf2
  | cons x xs ih =>
    have hx := h
    obtain ⟨rfl, h1, h2⟩ := h
    rw [next_eq] at h2
    obtain ⟨fuel, rfl⟩ : ∃ g, fuel = g + 1 := ⟨fuel - 1, by omega⟩
    have hfu' : len ≤ fuel + nextChunk pad x (m.readLE (x + 4) 4) := by unfold nextChunk; omega
    obtain ⟨a, b⟩ := c
    simp only at hf; subst hf
    rw [walkChunks, if_neg (by simp; omega)]
    simp only
    rcases first_cons hx hf2 with ⟨rfl, hid⟩ | ⟨hid, hf2⟩
    · rw [if_pos ⟨hid, trivial⟩, if_pos hbad]
    · rw [if_neg (by simp [hid])]
      split
      · exact ih _ _ _ h2 rfl hf2 hfu'
      · exact ih _ _ _ h2 rfl hf2 hfu'

/-- No `fmt ` chunk: the walk ends without one. -/
theorem walk_nofmt (l : List Nat) (p fuel : Nat) (c : Chunks) (h : ChunksFrom m pad len p l q)
   (hf : c.fmt = none) (hf2 : ∀ x ∈ l, m.readBytes x 4 ≠ fmtId) (hq : len < q + 8) (hfu : len ≤ fuel + p) :
   ∃ c', walkChunks m pad len fuel p c = some c' ∧ c'.fmt = none := by
  induction l generalizing p c fuel with
  | nil =>
    have h : q = p := h
    subst h
    cases fuel with
    | zero => exact ⟨c, rfl, hf⟩
    | succ fuel => rw [walkChunks, if_pos (.inl hq)]; exact ⟨c, rfl, hf⟩
  | cons x xs ih =>
    obtain ⟨rfl, h1, h2⟩ := h
    rw [next_eq] at h2
    obtain ⟨fuel, rfl⟩ : ∃ g, fuel = g + 1 := ⟨fuel - 1, by omega⟩
    have hfu' : len ≤ fuel + nextChunk pad x (m.readLE (x + 4) 4) := by unfold nextChunk; omega
    obtain ⟨a, b⟩ := c
    simp only at hf; subst hf
    have hid := hf2 x (by simp)
    rw [walkChunks, if_neg (by simp; omega)]
    simp only
    rw [if_neg (by simp [hid])]
    split
    · exact ih _ _ _ h2 rfl (fun y hy => hf2 y (by simp [hy])) hfu'
    · exact ih _ _ _ h2 rfl (fun y hy => hf2 y (by simp [hy])) hfu'

/-- A good `fmt ` and no `data` chunk. -/
theorem walk_nodata {f : Nat} (hs : 16 ≤ m.readLE (f + 4) 4) (hl : f + 24 ≤ len) (l : List Nat) (p fuel : Nat) (c : Chunks) (h : ChunksFrom m pad len p l q)
   (hf : (∃ v, c.fmt = some v) ∨ (c.fmt = none ∧ FirstChunk m l fmtId f)) (hd : c.data = none)
   (hf2 : ∀ x ∈ l, m.readBytes x 4 ≠ dataId) (hq : len < q + 8) (hfu : len ≤ fuel + p) :
   ∃ v, walkChunks m pad len fuel p c = some ⟨some v, none⟩ := by
  induction l generalizing p c fuel with
  | nil =>
    have h : q = p := h
    subst h
    obtain ⟨a, b⟩ := c; simp only at hd; subst hd
    rcases hf with ⟨v, hf⟩ | ⟨-, hf⟩
    · simp only at hf; subst hf
      cases fuel with
      | zero => exact ⟨v, rfl⟩
      | succ fuel => rw [walkChunks, if_pos (.inl hq)]; exact ⟨v, rfl⟩
    · simp [FirstChunk] at hf
  | cons x xs ih =>
    have hx := h
    obtain ⟨rfl, h1, h2⟩ := h
    rw [next_eq] at h2
    obtain ⟨fuel, rfl⟩ : ∃ g, fuel = g + 1 := ⟨fuel - 1, by omega⟩
    have hfu' : len ≤ fuel + nextChunk pad x (m.readLE (x + 4) 4) := by unfold nextChunk; omega
    obtain ⟨a, b⟩ := c
    simp only at hd; subst hd
    have hid := hf2 x (by simp)
    have hxs : ∀ y ∈ xs, m.readBytes y 4 ≠ dataId := fun y hy => hf2 y (by simp [hy])
    rw [walkChunks, if_neg (by simp; omega)]
    simp only
    rcases hf with ⟨v, hf⟩ | ⟨hf, hfc⟩
    · simp only at hf; subst hf
      rw [if_neg (by simp), if_neg (by simp [hid])]
      exact ih _ _ _ h2 (.inl ⟨v, rfl⟩) rfl hxs hfu'
    · simp only at hf; subst hf
      rcases first_cons hx hfc with ⟨rfl, hi⟩ | ⟨hi, hfc⟩
      · rw [if_pos ⟨hi, rfl⟩, if_neg (by omega)]
        exact ih _ _ _ h2 (.inl ⟨_, rfl⟩) rfl hxs hfu'
      · rw [if_neg (by simp [hi]), if_neg (by simp [hid])]
        exact ih _ _ _ h2 (.inr ⟨rfl, hfc⟩) rfl hxs hfu'

end Walk

end Sys2Proof.Machine
end

