-- ==== Sys2Proof/Tests/Slice0.lean ====
section
/-! SUPPORT. Tests: the ill-formed commands that WellFormed refuses; one written-out word per command; small one-step tests whose expected values are those of spec/95_test_vectors.md (each names its vector) or are computed by hand from the rule it names; and for every obligation with hypotheses a named witness, a concrete state and operands that meet them. -/

open Sys2Proof Sys2Proof.Machine Sys2Proof.Claims

namespace Sys2Proof.Tests

-- one theorem at a time: each kernel evaluation waits for all the theorems before it
set_option Elab.async false

/-! ## Small states -/

/-- Bytes from numbers. -/
def bytes (l : List Nat) : List Byte := l.map (BitVec.ofNat 8)

/-- An image from address 0. -/
def image (l : List Nat) : Memory := ⟨0, (bytes l).zipIdx.map fun c => (c.2, c.1)⟩

/-- A snapshot of configuration cfg over an image of n bytes. -/
def snap (cfg n : Nat) : ConfigRegs :=
  { ConfigRegs.reset with cfg := BitVec.ofNat 7 cfg, imgLen := BitVec.ofNat 32 n }

/-- An open CAS handle over an image, the cursor at bit k, with configuration cfg. -/
def cas (cfg : Nat) (l : List Nat) (k : Nat) : State :=
  { State.reset with
    mem := image l
    defaults := snap cfg l.length
    handle := { Handle.closed with kind := .cas, act := snap cfg l.length }
    stream := { Stream.closed 0 with pos := BitVec.ofNat 32 (k / 8), posBit := BitVec.ofNat 3 (k % 8) } }

/-- An open WAV handle at 9600 Hz over 8-bit samples from image address 0, sample p next, in tracking state tr. -/
def wav (l : List Nat) (p : Nat) (tr : Tracking) : State :=
  { State.reset with
    mem := image l
    defaults := snap 2 l.length
    handle := { Handle.closed with
      kind := .wav, act := snap 2 l.length
      wav := { srate := 9600#32, bps := 8#16, riffSize := 0#32, dataOff := 0#32
               dataLen := BitVec.ofNat 32 l.length, nsamples := BitVec.ofNat 32 l.length } }
    stream := { Stream.closed 0 with pos := BitVec.ofNat 32 p, track := tr } }

/-- The same over n 16-bit samples, two bytes each. -/
def wav16 (l : List Nat) (n p : Nat) (tr : Tracking) : State :=
  let s := wav l p tr
  { s with handle := { s.handle with wav := { s.handle.wav with bps := 16#16, nsamples := BitVec.ofNat 32 n } } }

/-- Tracking with the last rising crossing at sample c. -/
def rose (c : Nat) (pend : Bool) : Tracking :=
  { Tracking.zero with level := .pos, dir := some .rising, pend := pend, cross1 := some (BitVec.ofNat 32 c) }

/-- A closed machine with an image and default configuration. -/
def idle (cfg : Nat) (l : List Nat) : State := { State.reset with mem := image l, defaults := snap cfg l.length }

/-- The machine with the given coming turns. -/
def withTurns (es : List Event) (s : State) : State := { s with agenda := es }

/-- The scan bound of an open handle. -/
def bounded (n : Nat) (s : State) : State :=
  { s with handle := { s.handle with act := { s.handle.act with scanMax := BitVec.ofNat 32 n } } }

/-- A property of the state a command leaves. -/
def after (i : Instr) (s : State) (p : State → Bool) : Bool :=
  match exec i s with
  | .next t => p t
  | .fault _ => false
  | .refused _ => false

/-- The register values a command leaves. -/
def reads (i : Instr) (s : State) (l : List (Reg × Nat)) : Bool :=
  after i s fun t => l.all fun c => (regValue c.1 t).toNat == c.2

/-- BLOCK(1, 01 02 03 04) of 95_test_vectors.md §0: type 1, four payload bytes, checksum 0F. -/
def block : List Nat := [0x55, 0x3C, 0x01, 0x04, 0x01, 0x02, 0x03, 0x04, 0x0F, 0x55]

/-- The directory block of vector V1: name "TEST", all other fields 0, checksum CF. -/
def dirBlock : List Nat :=
  [0x55, 0x3C, 0x00, 0x0F, 0x54, 0x45, 0x53, 0x54, 0x20, 0x20, 0x20, 0x20, 0, 0, 0, 0, 0, 0, 0, 0xCF, 0x55]

/-- The 44-byte header of WAVE8(9600, 1 sample) (95_test_vectors.md §0), with its sample. -/
def wave8 : List Nat :=
  [0x52, 0x49, 0x46, 0x46, 0x25, 0, 0, 0, 0x57, 0x41, 0x56, 0x45, 0x66, 0x6D, 0x74, 0x20, 0x10, 0, 0, 0, 1, 0, 1, 0] ++
  [0x80, 0x25, 0, 0, 0x80, 0x25, 0, 0, 1, 0, 8, 0, 0x64, 0x61, 0x74, 0x61, 1, 0, 0, 0, 0xC0]

/-- Samples of a long cycle from a rising crossing at sample 0: four high, four low, one high. -/
def longCycle : List Nat := [0xC0, 0xC0, 0xC0, 0xC0, 0x40, 0x40, 0x40, 0x40, 0xC0]

/-- A short cycle and then a long one, from a rising crossing at sample 0. -/
def mixedCycles : List Nat :=
  [0xC0, 0xC0, 0x40, 0x40, 0xC0, 0xC0, 0xC0, 0xC0, 0x40, 0x40, 0x40, 0x40, 0xC0]

/-- "RIFF", a size and "WAVE", and then chunks. -/
def riff (chunks : List Nat) : List Nat :=
  [0x52, 0x49, 0x46, 0x46, 0, 0, 0, 0, 0x57, 0x41, 0x56, 0x45] ++ chunks

/-- A chunk of identifier "LIST" and one payload byte. -/
def oddChunk : List Nat := [0x4C, 0x49, 0x53, 0x54, 1, 0, 0, 0, 0xAA]

/-- A `data` chunk of one byte. -/
def dataChunk : List Nat := [0x64, 0x61, 0x74, 0x61, 1, 0, 0, 0, 0xC0]

/-- A `fmt ` chunk: 9600 Hz, 8 bits. -/
def fmtChunk : List Nat :=
  [0x66, 0x6D, 0x74, 0x20, 16, 0, 0, 0, 1, 0, 1, 0, 0x80, 0x25, 0, 0, 0x80, 0x25, 0, 0, 1, 0, 8, 0]

/-- Two short cycles from a rising crossing at sample 0. -/
def shortCycles : List Nat := [0xC0, 0xC0, 0x40, 0x40, 0xC0, 0xC0, 0x40, 0x40, 0xC0]

/-! ## WellFormed refuses each ill-formed command -/

theorem test_wellFormed_refuses_count_zero : (Instr.getbits 0#4).wellFormed = false := by decide
theorem test_wellFormed_refuses_count_above_eight :
    (Instr.getbits 9#4).wellFormed = false ∧ (Instr.getbits 15#4).wellFormed = false := by decide
theorem test_wellFormed_admits_counts :
    (Instr.getbits 1#4).wellFormed = true ∧ (Instr.getbits 8#4).wellFormed = true := by decide

/-! ## Decoding: words written out from the table of 30_encoding.md R55, R57 -/

theorem test_decode_nop : decode 0b00000000000000000000_0000_00000000#32 = .ok .nop := by rfl
theorem test_decode_open : decode 0b00000000000000000000_0000_00000001#32 = .ok .openHandle := by rfl
theorem test_decode_close : decode 0b00000000000000000000_0000_00000010#32 = .ok .close := by rfl
theorem test_decode_getbits : decode 0b00000000000000000000_0101_00000011#32 = .ok (.getbits 5#4) := by rfl
theorem test_decode_getbits_eight : decode 0b00000000000000000000_1000_00000011#32 = .ok (.getbits 8#4) := by rfl
theorem test_decode_seek : decode 0b00000000000000000000_0000_00000100#32 = .ok .seek := by rfl
theorem test_decode_readbyte : decode 0b00000000000000000000_0000_00000101#32 = .ok .readbyte := by rfl
theorem test_decode_seeksync : decode 0b00000000000000000000_0000_00000110#32 = .ok .seeksync := by rfl
theorem test_decode_nextblock : decode 0b00000000000000000000_0000_00000111#32 = .ok .nextblock := by rfl
theorem test_decode_nextdir : decode 0b00000000000000000000_0000_00001000#32 = .ok .nextdir := by rfl
/-- Vectors X2, X3. -/
theorem test_decode_reserved_opcode :
    decode 0x00000009#32 = .error .reservedOpcode ∧ decode 0x000000FF#32 = .error .reservedOpcode := ⟨rfl, rfl⟩
/-- Vectors X4, X5. -/
theorem test_decode_reserved_bits :
    decode 0x00001001#32 = .error .reservedBits ∧ decode 0x00000101#32 = .error .reservedBits := ⟨rfl, rfl⟩
/-- Vector X6. -/
theorem test_decode_bad_count :
    decode 0x00000003#32 = .error .badCount ∧ decode 0x00000903#32 = .error .badCount ∧
      decode 0x00000F03#32 = .error .badCount := ⟨rfl, rfl, rfl⟩
theorem test_decodeTableWord : decodeTableWord 32 0x803 = some (.getbits 8#4) := by decide

/-! ## One step of each command -/

/-- STATUS after NOP (40_lifecycle.md R67). -/
theorem test_nop : reads .nop (cas 1 [0xA5] 0) [(.status, 0x0A), (.result, 0)] = true := by decide +kernel

/-- Vector L1, with its image of one byte. -/
theorem test_open_cas :
    reads .openHandle (idle 1 [0]) [(.status, 0x0A), (.result, 1), (.pos, 0), (.actlen, 1), (.actfreq, 0x708)]
      = true := by decide +kernel
/-- A sniffed WAV image (95_test_vectors.md §0: DATAOFF = 0x2C). -/
theorem test_open_wav :
    reads .openHandle (idle 0 wave8)
      [(.status, 0x12), (.result, 2), (.srate, 9600), (.bps, 8), (.dataoff, 0x2C), (.nsamples, 1), (.riffsize, 37)]
      = true := by decide +kernel

/-- Vector L8. -/
theorem test_close : reads .close (cas 1 [0xA5] 3) [(.status, 0), (.actlen, 0), (.posbit, 0)] = true := by decide +kernel
/-- Vector X8. -/
theorem test_close_without_a_handle :
    reads .close State.reset [(.status, 0x10200), (.errsticky, 4)] = true := by decide +kernel

/-- Bits 5 to 7 of A5 are 1, 0, 1 (41_cas_bitreader.md R80). -/
theorem test_getbits : reads (.getbits 3#4) (cas 1 [0xA5, 0x3C] 5) [(.result, 5), (.pos, 1), (.posbit, 0)] = true := by
  decide +kernel
/-- The first bit is most significant under BITORD 1 too: A5 is read 1, 0, 1, 0 (41_cas_bitreader.md R80). -/
theorem test_getbits_lsb_first : reads (.getbits 4#4) (cas 0x11 [0xA5] 0) [(.result, 0xA), (.posbit, 4)] = true := by
  decide +kernel

/-- Vector L9's SEEK: ARG 1, ARGBIT 5. -/
theorem test_seek_cas :
    reads .seek { cas 1 [0xA5, 0x3C] 0 with arg := 1#32, argBit := 5#3 } [(.pos, 1), (.posbit, 5), (.status, 0x0A)]
      = true := by decide +kernel
/-- Vector L13: DIRRES is kept (WAVSTATE 4 with direction RISING), the crossings are cleared. -/
theorem test_seek_wav :
    reads .seek (wav longCycle 1 (rose 0 true)) [(.pos, 0), (.cross1, 0), (.wavstate, 4)] = true := by decide +kernel

/-- READBYTE of A5 under both bit orders (43_framing.md R94). -/
theorem test_readbyte :
    reads .readbyte (cas 1 [0xA5] 0) [(.result, 0xA5)] = true ∧
      reads .readbyte (cas 0x11 [0xB1] 0) [(.result, 0xB1)] = true := by decide +kernel
/-- At the end: E_EOS 1 (43_framing.md R95). -/
theorem test_readbyte_at_the_end :
    reads .readbyte (cas 1 [0xA5] 4) [(.result, 0), (.status, 0x1070A), (.pos, 1), (.errsticky, 0x80)] = true := by
  decide +kernel

/-- The marker 55 3C three bits late (43_framing.md R97): 19 bits taken. -/
theorem test_seeksync : reads .seeksync (cas 1 [0x0A, 0xA7, 0x80] 0) [(.result, 19), (.scancount, 19), (.status, 0x0A)]
    = true := by decide +kernel
/-- No marker: END, EOF, all 8 bits taken (43_framing.md R98). -/
theorem test_seeksync_end : reads .seeksync (cas 1 [0x55] 0) [(.result, 8), (.status, 0x10E)] = true := by decide +kernel

/-- A valid block of type 1 and length 4 (43_framing.md R107): STATUS 0x2A. -/
theorem test_nextblock :
    reads .nextblock (cas 1 block 0) [(.result, 0x401), (.status, 0x2A), (.blkinfo, 0x0F0F0401), (.buf 0, 0x04030201)]
      = true := by decide +kernel
/-- A wrong checksum leaves the cursor at the trailer and BLKVALID 0 (43_framing.md R104). -/
theorem test_nextblock_checksum :
    reads .nextblock (cas 1 (block.set 8 0x0E) 0) [(.status, 0x60A), (.pos, 9), (.blkinfo, 0x0F0E0401)] = true := by
  decide +kernel

/-- Vector V1's directory: STATUS 0x6A, "TEST" in DIRNAME0. -/
theorem test_nextdir :
    reads .nextdir (cas 1 dirBlock 0)
      [(.status, 0x6A), (.dirname0, 0x54534554), (.dirname1, 0x20202020), (.pos, 21)] = true := by decide +kernel
/-- Blocks of another type are skipped (43_framing.md R108): from BLOCK(1, …) on, END. -/
theorem test_nextdir_end : reads .nextdir (cas 1 block 0) [(.status, 0x10E), (.dirname0, 0)] = true := by decide +kernel

/-! ## Witnesses: every obligation with hypotheses has a state and operands that meet them -/

theorem test_witness_step_ok : (cas 1 [0xA5] 0).agenda = [] ∧
    ({ cas 1 [0xA5] 0 with latch := some 0x803#32 } : State).latch = some 0x803#32 ∧
    decode 0x803#32 = .ok (.getbits 8#4) := ⟨rfl, rfl, rfl⟩
theorem test_witness_step_illegal : ({ State.reset with latch := some 0x9#32 } : State).latch = some 0x9#32 ∧
    State.reset.agenda = [] ∧ decode 0x9#32 = .error .reservedOpcode := ⟨rfl, rfl, rfl⟩
theorem test_witness_step_turn :
    (withTurns [.blockTurn] { State.reset with latch := some 0x1#32 }).agenda = .blockTurn :: [] ∧
    decode 0x1#32 = .ok .openHandle := ⟨rfl, rfl⟩
theorem test_witness_step_illegal_turn :
    (withTurns [.blockTurn, .wait] { State.reset with latch := some 0x9#32 }).agenda = .blockTurn :: [.wait] ∧
    decode 0x9#32 = .error .reservedOpcode := ⟨rfl, rfl⟩
theorem test_witness_step_idle : State.reset.busy = false ∧ State.reset.agenda = [] ∧
    (withTurns [.blockTurn] State.reset).agenda = .blockTurn :: [] := by decide

theorem test_witness_command_write :
    (withTurns [.regWrite 0x01C 4 0x1#32] State.reset).agenda = .regWrite 0x01C 4 0x1#32 :: [] ∧
    (withTurns [.regWrite 0x01C 4 0x1#32] State.reset).busy = false := by decide
theorem test_witness_busy_write :
    (withTurns [.regWrite 0x090 4 0x7#32] { State.reset with latch := some 0x1#32 }).agenda
      = .regWrite 0x090 4 0x7#32 :: [] ∧ 0x004 ∈ writableOffsets ∧ 0x090 ∈ writableOffsets ∧
    ({ State.reset with latch := some 0x1#32 } : State).busy = true := by decide
theorem test_witness_idle_write : State.reset.busy = false ∧ Reg.argbit ≠ .cmd ∧ Reg.argbit.writable = true ∧
    Reg.status.writable = false ∧ Reg.reserved.writable = false ∧
    (withTurns [.regWrite 0x1FC 4 7#32] State.reset).agenda = .regWrite 0x1FC 4 7#32 :: [] ∧ 0x1FC % 4 = 0 ∧
    (withTurns [.regWrite 0x000 4 7#32] State.reset).agenda = .regWrite 0x000 4 7#32 :: [] := by decide
theorem test_witness_register_map : 0x09C % 4 = 0 ∧ 0x0FC % 4 = 0 ∧ 0x0FC < 0x100 ∧ regAt 0x09C = .reserved ∧
    regAt 0x0FC = .reserved ∧ regAt 0x098 ≠ .reserved ∧ regAt 0x1FC ≠ .reserved := by decide
theorem test_witness_host_read_idle :
    (withTurns [.regRead 0x1FC 4] State.reset).agenda = .regRead 0x1FC 4 :: [] ∧ 0x1FC % 4 = 0 ∧ 0x1FC < 0x200 ∧
    (withTurns [.regRead 0x1FC 4] State.reset).busy = false := by decide
theorem test_witness_host_read_busy :
    (withTurns [.regRead 0x020 4] { State.reset with latch := some 0x1#32 }).agenda = .regRead 0x020 4 :: [] ∧
    (withTurns [.regRead 0x020 4] { State.reset with latch := some 0x1#32 }).busy = true := by decide
theorem test_witness_host_image_read :
    (withTurns [.imgRead 0] (cas 1 [0xA5] 0)).agenda = .imgRead 0 :: [] ∧ 0 < (cas 1 [0xA5] 0).params.imgCapacity.toNat ∧
    (withTurns [.imgRead 0xFFFFFFFF] State.reset).agenda = .imgRead 0xFFFFFFFF :: [] ∧
    State.reset.params.imgCapacity.toNat ≤ 0xFFFFFFFF := by decide
/-- The first and last address of each window, and the first beyond. -/
theorem test_witness_windows : WindowsApart State.reset.params ∧
    (0x1FF < 0x200 ∧ 0x1FF = State.reset.params.regBase + 0x1FF) ∧
    (0 < State.reset.params.imgCapacity.toNat ∧ 0x200 = State.reset.params.imgBase + 0) ∧
    (State.reset.params.regBase + 0x200 ≤ 0x1000001FF ∧
      State.reset.params.imgBase + State.reset.params.imgCapacity.toNat ≤ 0x1000001FF) ∧
    (withTurns [.busRead 0x1FC 4] State.reset).agenda = .busRead 0x1FC 4 :: [] ∧
    (withTurns [.busWrite 0x200 1 7#32] State.reset).agenda = .busWrite 0x200 1 7#32 :: [] := by
  unfold WindowsApart; decide
theorem test_witness_nonword : (2 ≠ 4 ∨ 0x004 % 4 ≠ 0) ∧ (4 ≠ 4 ∨ 0x005 % 4 ≠ 0) ∧
    (withTurns [.regRead 0x005 4] State.reset).agenda = .regRead 0x005 4 :: [] ∧
    (withTurns [.regWrite 0x004 2 0x1#32] State.reset).agenda = .regWrite 0x004 2 0x1#32 :: [] := by decide
theorem test_witness_image_write :
    (withTurns [.imgWrite 0 0x55#8] (cas 1 [0xA5] 0)).agenda = .imgWrite 0 0x55#8 :: [] ∧
    0 < (cas 1 [0xA5] 0).params.imgCapacity.toNat ∧ (cas 1 [0xA5] 0).isOpen = true ∧
    0 < (cas 1 [0xA5] 0).handle.act.imgLen.toNat := by decide
theorem test_witness_image_write_outside :
    (withTurns [.imgWrite 0xFFFFFFFF 0x55#8] State.reset).agenda = .imgWrite 0xFFFFFFFF 0x55#8 :: [] ∧
    State.reset.params.imgCapacity.toNat ≤ 0xFFFFFFFF := by decide
theorem test_witness_wait : (withTurns [.wait] { State.reset with latch := some 0x1#32 }).latch = some 0x1#32 ∧
    (withTurns [.wait] { State.reset with latch := some 0x1#32 }).agenda = [.wait] := ⟨rfl, rfl⟩
theorem test_witness_reset : (withTurns [.reset] { cas 1 [0xA5] 3 with latch := some 0x1#32 }).agenda = .reset :: [] := rfl

theorem test_witness_close : (cas 1 [0xA5] 0).isOpen = true ∧ State.reset.isOpen = false := by decide
theorem test_witness_seek : (cas 1 [0xA5] 0).handle.kind = .cas ∧ (wav longCycle 1 (rose 0 false)).handle.kind = .wav ∧
    State.reset.handle.kind = .none := ⟨rfl, rfl, rfl⟩
/-- A target at the end of the stream, and beyond it. -/
theorem test_witness_seek_beyond :
    (cas 1 [0xA5] 0).handle.act.imgLen ≤ ({ cas 1 [0xA5] 0 with arg := 1#32 } : State).arg ∧
    (wav longCycle 1 (rose 0 true)).handle.wav.nsamples ≤ ({ wav longCycle 1 (rose 0 true) with arg := 99#32 } : State).arg ∧
    countLegal 1#4 = true := by decide
theorem test_witness_open_cas : ClosedInv (idle 1 [0]) ∧ cfgKind (idle 1 [0]).defaults.cfg = 1#2 ∧
    cfgParity (idle 1 [0]).defaults.cfg ≠ 3#2 ∧ cfgMode (idle 1 [0]).defaults.cfg ≠ 1#2 ∧
    (idle 1 [0]).defaults.imgLen ≤ (idle 1 [0]).params.imgCapacity :=
  ⟨fun _ => ⟨rfl, rfl⟩, by decide, by decide, by decide, by decide⟩
theorem test_witness_open_cas_over_an_open_handle : ClosedInv (cas 1 [0xA5] 3) ∧
    cfgKind (cas 1 [0xA5] 3).defaults.cfg = 1#2 := ⟨fun h => absurd h (by decide), by decide⟩
/-- The two ways into WAV: forced with CFG.KIND 2, sniffed with 0. -/
theorem test_witness_open_wav : ClosedInv (idle 2 wave8) ∧ cfgKind (idle 2 wave8).defaults.cfg = 2#2 ∧
    (cfgKind (idle 0 wave8).defaults.cfg = 0#2 ∧ 4 ≤ (idle 0 wave8).defaults.imgLen.toNat ∧
      (idle 0 wave8).mem.readBytes 0 4 = riffMagic) ∧
    ∃ w, riffParse (idle 2 wave8).mem (idle 2 wave8).params.riffPad (idle 2 wave8).defaults.imgLen.toNat = .ok w :=
  ⟨fun _ => ⟨rfl, rfl⟩, by decide, by decide +kernel,
    ⟨{ srate := 9600#32, bps := 8#16, riffSize := 37#32, dataOff := 44#32, dataLen := 1#32, nsamples := 1#32 },
      by decide +kernel⟩⟩
/-- A platform of one image byte, IMGLEN 2. -/
def small : State := { idle 1 [0, 1] with params := { Config.Params.default with imgCapacity := 1#32 } }
theorem test_witness_open_checks : cfgKind (idle 3 []).defaults.cfg = 3#2 ∧
    (cfgKind (idle 0xD []).defaults.cfg ≠ 3#2 ∧ cfgParity (idle 0xD []).defaults.cfg = 3#2) ∧
    (cfgKind small.defaults.cfg ≠ 3#2 ∧ cfgParity small.defaults.cfg ≠ 3#2 ∧
      small.params.imgCapacity < small.defaults.imgLen) ∧
    (cfgKind (idle 0x21 []).defaults.cfg ≠ 3#2 ∧ cfgParity (idle 0x21 []).defaults.cfg ≠ 3#2 ∧
      (idle 0x21 []).defaults.imgLen ≤ (idle 0x21 []).params.imgCapacity ∧ cfgMode (idle 0x21 []).defaults.cfg = 1#2) := by
  decide
theorem test_witness_failed_open : ∃ t, ClosedInv (idle 0 [0, 1]) ∧ exec .openHandle (idle 0 [0, 1]) = .next t ∧
    t.err ≠ .ok := ⟨_, fun _ => ⟨rfl, rfl⟩, rfl, by decide +kernel⟩
/-- An image of no RIFF magic, forced WAV: E_HEADER 1; one without a `data` chunk, sniffed: E_HEADER 3. -/
theorem test_witness_header_errors : cfgKind (idle 2 [0]).defaults.cfg = 2#2 ∧
    riffParse (image [0]) false 1 = .error 1#4 ∧ reads .openHandle (idle 2 [0]) [(.status, 0x10400)] = true ∧
    (image (riff fmtChunk)).readBytes 0 4 = riffMagic ∧ riffParse (image (riff fmtChunk)) false 36 = .error 3#4 ∧
    reads .openHandle (idle 0 (riff fmtChunk)) [(.status, 0x30400)] = true := by decide +kernel
theorem test_witness_auto : cfgKind (idle 0 wave8).defaults.cfg = 0#2 ∧
    (idle 0 wave8).mem.readBytes 0 4 = [0x52#8, 0x49#8, 0x46#8, 0x46#8] ∧
    ¬ (4 ≤ (idle 0 [0x52, 0x49, 0x46]).defaults.imgLen.toNat) ∧ cfgKind (idle 1 wave8).defaults.cfg = 1#2 ∧
    cfgKind (idle 2 wave8).defaults.cfg = 2#2 := by decide +kernel
theorem test_witness_wave_header : 44 ≤ wave8.length ∧
    (image wave8).readBytes 0 4 = [0x52#8, 0x49#8, 0x46#8, 0x46#8] ∧
    (image wave8).readBytes 8 4 = [0x57#8, 0x41#8, 0x56#8, 0x45#8] ∧
    (image wave8).readBytes 12 4 = [0x66#8, 0x6D#8, 0x74#8, 0x20#8] ∧
    (image wave8).readBytes 16 4 = [16#8, 0#8, 0#8, 0#8] ∧
    (image wave8).readBytes 36 4 = [0x64#8, 0x61#8, 0x74#8, 0x61#8] := by decide +kernel
/-- Eleven bytes, and twelve that are no RIFF image. -/
theorem test_witness_header_one : (riff []).length - 1 < 12 ∧
    (image (List.replicate 12 0)).readBytes 0 4 ≠ [0x52#8, 0x49#8, 0x46#8, 0x46#8] := by decide +kernel
/-- A skipped odd chunk, then `data`, then `fmt `: without pad bytes the chunks stand at 12, 21 and 30. -/
theorem test_witness_chunks : ChunksFrom (image (riff (oddChunk ++ dataChunk ++ fmtChunk))) false 54 12 [12, 21, 30] 54 ∧
    FirstChunk (image (riff (oddChunk ++ dataChunk ++ fmtChunk))) [12, 21, 30] [0x66#8, 0x6D#8, 0x74#8, 0x20#8] 30 ∧
    FirstChunk (image (riff (oddChunk ++ dataChunk ++ fmtChunk))) [12, 21, 30] [0x64#8, 0x61#8, 0x74#8, 0x61#8] 21 ∧
    16 ≤ (le32 (image (riff (oddChunk ++ dataChunk ++ fmtChunk))) 34).toNat ∧ 30 + 24 ≤ 54 := by
  simp only [ChunksFrom, FirstChunk]; decide +kernel
/-- The same with a pad byte after the odd chunk: at 12, 22 and 46, where the walk stops. -/
theorem test_witness_chunks_padded :
    ChunksFrom (image (riff (oddChunk ++ [0] ++ fmtChunk ++ dataChunk))) true 55 12 [12, 22, 46] 56 ∧
    FirstChunk (image (riff (oddChunk ++ [0] ++ fmtChunk ++ dataChunk))) [12, 22, 46] [0x66#8, 0x6D#8, 0x74#8, 0x20#8] 22 ∧
    FirstChunk (image (riff (oddChunk ++ [0] ++ fmtChunk ++ dataChunk))) [12, 22, 46] [0x64#8, 0x61#8, 0x74#8, 0x61#8] 46 := by
  simp only [ChunksFrom, FirstChunk]; decide +kernel
theorem test_riff_pad :
    (match riffParse (image (riff (oddChunk ++ [0] ++ fmtChunk ++ dataChunk))) true 55 with
     | .ok w => w.dataOff == 54#32 && w.nsamples == 1#32
     | .error _ => false) = true := by decide +kernel
/-- E_HEADER 4: a `fmt ` chunk cut off by the length. E_HEADER 3: no `data`. E_HEADER 2: no `fmt `. -/
theorem test_witness_header_two_to_four : ChunksFrom (image (riff fmtChunk)) false 35 12 [12] 36 ∧ 35 < 12 + 24 ∧
    FirstChunk (image (riff fmtChunk)) [12] [0x66#8, 0x6D#8, 0x74#8, 0x20#8] 12 ∧
    ChunksFrom (image (riff fmtChunk)) false 36 12 [12] 36 ∧ 36 < 36 + 8 ∧
    (∀ x ∈ [12], (image (riff fmtChunk)).readBytes x 4 ≠ [0x64#8, 0x61#8, 0x74#8, 0x61#8]) ∧
    ChunksFrom (image (riff dataChunk)) false 21 12 [12] 21 ∧ 21 < 21 + 8 ∧
    (∀ x ∈ [12], (image (riff dataChunk)).readBytes x 4 ≠ [0x66#8, 0x6D#8, 0x74#8, 0x20#8]) := by
  simp only [ChunksFrom, FirstChunk]; decide +kernel

/-- No hazard, so every bit is clean. -/
theorem test_clean (cfg : Nat) (l : List Nat) (k c n : Nat) : CleanBits (cas cfg l k) c n :=
  fun _ _ _ h => by cases h

/-- The last bits of the image, n = 1 and n = 8. -/
theorem test_witness_getbits : (cas 1 [0xA5] 0).handle.kind = .cas ∧ countLegal 8#4 = true ∧ countLegal 1#4 = true ∧
    casIndex (cas 1 [0xA5] 0).stream + 8 ≤ casEnd (cas 1 [0xA5] 0) ∧
    casIndex (cas 1 [0xA5] 7).stream + 1 ≤ casEnd (cas 1 [0xA5] 7) := by decide
/-- One bit too few, and a cursor beyond the end. -/
theorem test_witness_getbits_end : countLegal 8#4 = true ∧ (cas 1 [0xA5] 1).handle.kind = .cas ∧
    casEnd (cas 1 [0xA5] 1) < casIndex (cas 1 [0xA5] 1).stream + 8 ∧
    casEnd (cas 1 [0xA5] 16) < casIndex (cas 1 [0xA5] 16).stream + 1 := by decide
theorem test_witness_hazard : ∃ s : State, s.handle.kind = .cas ∧ s.stream.pos < s.handle.act.imgLen ∧
    s.stream.pos.toNat ∈ s.hazard := ⟨{ cas 1 [0xA5] 3 with hazard := [0] }, by decide⟩
theorem test_witness_compose : countLegal 3#4 = true ∧ countLegal 5#4 = true ∧ (8#4).toNat = (3#4).toNat + (5#4).toNat ∧
    (cas 1 [0xA5] 0).isOpen = true ∧ after (.getbits 3#4) (cas 1 [0xA5] 0) (fun t => t.err == .ok) = true := by
  decide +kernel
/-- The first of the two reads meets the end, and the second does. -/
theorem test_witness_compose_end : after (.getbits 3#4) (cas 1 [0xA5] 6) (fun t => t.err != .ok) = true ∧
    after (.getbits 3#4) (cas 1 [0xA5] 4)
      (fun t => t.err == .ok && after (.getbits 5#4) t (fun u => u.err != .ok)) = true := by decide +kernel
theorem test_witness_readbyte : casIndex (cas 1 [0xA5] 0).stream + 8 ≤ casEnd (cas 1 [0xA5] 0) ∧
    (cas 1 [0xA5] 0).stream.posBit = 0#3 ∧ casEnd (cas 1 [0xA5] 1) < casIndex (cas 1 [0xA5] 1).stream + 8 := by decide
theorem test_witness_readbyte_getbits : (wav longCycle 1 (rose 0 false)).isOpen = true := by decide

/-- The dead band with T = 32: its two ends stay inside, the next values cross. -/
theorem test_comparator : compareLevel 32 .neg 32 = .neg ∧ compareLevel 32 .pos (-32) = .pos ∧
    compareLevel 32 .neg 33 = .pos ∧ compareLevel 32 .pos (-33) = .neg ∧ crossingOf .unknown .pos = none := by decide

/-- From a rising crossing at 0, with sample 1 next. -/
theorem test_at_crossing (l : List Nat) (pend : Bool) : AtCrossing (wav l 1 (rose 0 pend)) .rising 0 :=
  ⟨rfl, rfl, rfl, rfl, ⟨0#32, rfl, rfl⟩, by show 0 < (1#32).toNat; decide⟩
theorem test_witness_long_cycle : AtCrossing (wav longCycle 1 (rose 0 false)) .rising 0 ∧
    WaveCycle (wav longCycle 1 (rose 0 false)) .rising 1 4 8 ∧
    (wav longCycle 1 (rose 0 false)).handle.wav.srate.toNat
      ≤ (8 - 0) * (wav longCycle 1 (rose 0 false)).handle.act.freqLim.toNat := by
  refine ⟨test_at_crossing _ _,
    ⟨by decide, ?_, by simp only [Beyond, flipEdge]; decide +kernel, ?_, by simp only [Beyond]; decide +kernel⟩,
    by decide⟩
  · intro i h1 h2; simp only [Beyond, flipEdge]; interval_cases i <;> decide +kernel
  · intro i h1 h2; simp only [Beyond]; interval_cases i <;> decide +kernel
/-- A short cycle, and then a long one, read by one command. -/
theorem test_witness_dropped_short_cycle : AtCrossing (wav mixedCycles 1 (rose 0 false)) .rising 0 ∧
    WaveCycle (wav mixedCycles 1 (rose 0 false)) .rising 1 2 4 ∧ (4 - 0) * 1800 < 9600 ∧
    WaveCycle (wav mixedCycles 1 (rose 0 false)) .rising (4 + 1) 8 12 ∧ 9600 ≤ (12 - 4) * 1800 := by
  refine ⟨test_at_crossing _ _,
    ⟨by decide, ?_, by simp only [Beyond, flipEdge]; decide +kernel, ?_, by simp only [Beyond]; decide +kernel⟩,
    by decide,
    ⟨by decide, ?_, by simp only [Beyond, flipEdge]; decide +kernel, ?_, by simp only [Beyond]; decide +kernel⟩,
    by decide⟩ <;> intro i h1 h2 <;> simp only [Beyond, flipEdge] <;> interval_cases i <;> decide +kernel
theorem test_witness_short_cycle : AtCrossing (wav shortCycles 1 (rose 0 false)) .rising 0 ∧
    AtCrossing (wav shortCycles 1 (rose 0 true)) .rising 0 ∧
    WaveCycle (wav shortCycles 1 (rose 0 false)) .rising 1 2 4 ∧ (4 - 0) * 1800 < 9600 := by
  refine ⟨test_at_crossing _ _, test_at_crossing _ _, ⟨by decide, ?_, by simp only [Beyond, flipEdge]; decide +kernel, ?_, by simp only [Beyond]; decide +kernel⟩,
    by decide⟩
  · intro i h1 h2; obtain rfl : i = 1 := by omega
    simp only [Beyond, flipEdge]; decide +kernel
  · intro i h1 h2; obtain rfl : i = 3 := by omega
    simp only [Beyond]; decide +kernel
theorem test_witness_second_short_cycle : WaveCycle (wav shortCycles 1 (rose 0 false)) .rising (4 + 1) 6 8 ∧
    (8 - 4) * 1800 < 9600 := by
  refine ⟨⟨by decide, ?_, by simp only [Beyond, flipEdge]; decide +kernel, ?_, by simp only [Beyond]; decide +kernel⟩,
    by decide⟩
  · intro i h1 h2; obtain rfl : i = 5 := by omega
    simp only [Beyond, flipEdge]; decide +kernel
  · intro i h1 h2; obtain rfl : i = 7 := by omega
    simp only [Beyond]; decide +kernel
/-- Bits by R90; the last one over 16-bit samples, which with their bytes exchanged, or unsigned, make no crossing. -/
theorem test_wav_bits : reads (.getbits 1#4) (wav longCycle 1 (rose 0 false)) [(.result, 0), (.pos, 9)] = true ∧
    reads (.getbits 1#4) (wav shortCycles 1 (rose 0 false)) [(.result, 1), (.pos, 9)] = true ∧
    reads (.getbits 1#4) (wav16 [0, 1, 0, 1, 0, 1, 0, 1, 0, 0xFF, 0, 0xFF, 0, 0xFF, 0, 0xFF, 0, 1] 9 1 (rose 0 false))
      [(.status, 0x12), (.result, 0), (.pos, 9), (.lastcycle, 8)] = true := by decide +kernel
theorem test_witness_first_crossing :
    (wav [0x40, 0x80, 0xC0] 1 { Tracking.zero with level := .neg }).stream.track.dir = none ∧
    (wav [0x40, 0x80, 0xC0] 1 { Tracking.zero with level := .neg }).stream.track.level
      = levelAfter (flipEdge .rising) ∧
    ¬ Beyond (wav [0x40, 0x80, 0xC0] 1 { Tracking.zero with level := .neg }) .rising 1 ∧
    Beyond (wav [0x40, 0x80, 0xC0] 1 { Tracking.zero with level := .neg }) .rising 2 :=
  ⟨rfl, rfl, by simp only [Beyond]; decide +kernel, by simp only [Beyond]; decide +kernel⟩
/-- LEVEL UNKNOWN and C1V 0, as after OPEN: with PARITY AUTO the first crossing is canonical, the falling one at sample 1; with
PARITY EVEN it is the rising one at sample 2; the audio ends before another cycle. -/
theorem test_witness_first_canonical :
    FirstCanonical (wav [0xC0, 0x40, 0xC0] 0 Tracking.zero) .falling 1 ∧
    NoCycleLeft (wav [0xC0, 0x40, 0xC0] 0 Tracking.zero) .falling 2 .pos ∧
    FirstCanonical (wav [0xC0, 0x40, 0xC0] 0 { Tracking.zero with dir := some .rising }) .rising 2 ∧
    NoCycleLeft (wav [0xC0, 0x40, 0xC0] 0 { Tracking.zero with dir := some .rising }) .rising 3 .pos := by
  refine ⟨⟨⟨by decide, by decide, by decide +kernel, ?_⟩, .inl rfl, ?_⟩, .inr ⟨rfl, 2, by decide, by decide, ?_, ?_, ?_⟩,
    ⟨⟨by decide, by decide, by decide +kernel, ?_⟩, .inr rfl, ?_⟩, .inl ⟨rfl, ?_⟩⟩
  · simp only [Beyond]; decide +kernel
  · rintro e i - hi ⟨-, -, h, -⟩; obtain rfl : i = 0 := by omega
    cases e <;> exact absurd h (by decide)
  · simp only [Beyond, flipEdge]; decide +kernel
  · intro i h1 h2; omega
  · intro i h1 h2; have h2 : i < 3 := h2; omega
  · simp only [Beyond]; decide +kernel
  · rintro e i (he | rfl) hi ⟨-, -, h, hb⟩
    · cases he
    · simp only [Beyond] at hb
      interval_cases i
      · exact absurd h (by decide)
      · exact absurd hb (by decide +kernel)
  · intro i h1 h2; have h2 : i < 3 := h2; omega
/-- 16-bit samples are little-endian and signed (42_wav_demod.md R82): 00 40 is 16384, 00 C0 is −16384 (TONE16), 01 80 is
−32767. -/
theorem test_sixteen_bit_samples : sampleAt (wav16 [0, 0x40, 0, 0xC0, 0x01, 0x80] 3 0 Tracking.zero) 0 = 16384 ∧
    sampleAt (wav16 [0, 0x40, 0, 0xC0, 0x01, 0x80] 3 0 Tracking.zero) 1 = -16384 ∧
    sampleAt (wav16 [0, 0x40, 0, 0xC0, 0x01, 0x80] 3 0 Tracking.zero) 2 = -32767 := by decide +kernel
theorem test_witness_audio_end : (wav [0xC0] 1 (rose 0 true)).handle.kind = .wav ∧
    (wav [0xC0] 1 (rose 0 true)).handle.wav.nsamples ≤ (wav [0xC0] 1 (rose 0 true)).stream.pos := ⟨rfl, by decide⟩
/-- Silence; no cycle left, the signal staying or crossing away; one short cycle left (vector W4). -/
theorem test_witness_audio_runs_out :
    (¬ Beyond (wav [0x80, 0x80] 0 Tracking.zero) .rising 1 ∧ ¬ Beyond (wav [0x80, 0x80] 0 Tracking.zero) .falling 1) ∧
    NoCycleLeft (wav [0xC0, 0xC0] 1 (rose 0 true)) .rising 1 .pos ∧
    NoCycleLeft (wav [0xC0, 0x40] 1 (rose 0 true)) .rising 1 .neg ∧
    WaveCycle (wav [0xC0, 0xC0, 0x40, 0x40, 0xC0] 1 (rose 0 false)) .rising 1 2 4 ∧
    NoCycleLeft (wav [0xC0, 0xC0, 0x40, 0x40, 0xC0] 1 (rose 0 false)) .rising 5 .pos := by
  refine ⟨by simp only [Beyond]; decide +kernel, .inl ⟨rfl, ?_⟩, .inr ⟨rfl, 1, by decide, by decide, ?_, ?_, ?_⟩,
    ⟨by decide, ?_, by simp only [Beyond, flipEdge]; decide +kernel, ?_, by simp only [Beyond]; decide +kernel⟩,
    .inl ⟨rfl, ?_⟩⟩
  · intro i h1 h2; have h2 : i < 2 := h2; obtain rfl : i = 1 := by omega
    simp only [Beyond, flipEdge]; decide +kernel
  · simp only [Beyond, flipEdge]; decide +kernel
  · intro i h1 h2; omega
  · intro i h1 h2; have h2 : i < 2 := h2; omega
  · intro i h1 h2; obtain rfl : i = 1 := by omega
    simp only [Beyond, flipEdge]; decide +kernel
  · intro i h1 h2; obtain rfl : i = 3 := by omega
    simp only [Beyond]; decide +kernel
  · intro i h1 h2; have h2 : i < 5 := h2; omega
/-- One sample beyond the band from LEVEL UNKNOWN is no crossing (R83), with the direction resolved or not. -/
theorem test_witness_no_crossing : ∀ e j, ¬ CrossesAt (wav [0xC0] 0 Tracking.zero) 0 .unknown e j := by
  rintro e j ⟨-, h, hl, -⟩
  have h : j < 1 := h
  obtain rfl : j = 0 := by omega
  cases e <;> exact absurd hl (by decide)
/-- One short cycle and no more: PEND 1; from LEVEL UNKNOWN, the first crossing only primes CROSS1 (R88). -/
theorem test_audio_runs_out :
    reads (.getbits 1#4) (wav [0xC0, 0xC0, 0x40, 0x40, 0xC0] 1 (rose 0 false))
      [(.status, 0x20712), (.pos, 5), (.lastcycle, 4), (.wavstate, 0x75)] = true ∧
    reads (.getbits 1#4) (wav [0xC0, 0x40, 0xC0] 0 Tracking.zero)
      [(.status, 0x10712), (.pos, 3), (.cross1, 1), (.cross0, 0), (.lastcycle, 0), (.wavstate, 0x4D)] = true := by
  decide +kernel
/-- 0xC0 is +64 and 0x40 is −64 (42_wav_demod.md R82). -/
theorem test_witness_mirrored : Mirrored (wav [0xC0, 0x40] 1 (rose 0 false))
    { wav [0x40, 0xC0] 1 (rose 0 false) with stream := mirrorStream (wav [0xC0, 0x40] 1 (rose 0 false)).stream } :=
  ⟨⟨rfl, rfl⟩, ⟨rfl, rfl⟩, rfl, rfl, rfl, fun i hi => by
    have : i < 2 := hi
    interval_cases i <;> decide +kernel⟩

/-- A marker at the end of the image, exactly at the bound. -/
theorem test_witness_seeksync_found : FirstMarker (cas 1 [0x55, 0x3C] 0) 0 16 ∧
    16 ≤ casLeft (cas 1 [0x55, 0x3C] 0) ∧ WithinBound (cas 1 [0x55, 0x3C] 0) 16 := by
  unfold FirstMarker MarkerAt WithinBound; decide +kernel
theorem test_witness_seeksync_at_the_bound : FirstMarker (bounded 16 (cas 1 [0x55, 0x3C] 0)) 0 16 ∧
    WithinBound (bounded 16 (cas 1 [0x55, 0x3C] 0)) 16 ∧
    (bounded 16 (cas 1 [0x55, 0x3C] 0)).handle.act.scanMax ≠ 0#32 := by
  unfold FirstMarker MarkerAt WithinBound; decide +kernel
theorem test_witness_seeksync_bound : 15 = (bounded 15 (cas 1 [0x55, 0x3C] 0)).handle.act.scanMax.toNat ∧
    15 ≤ casLeft (bounded 15 (cas 1 [0x55, 0x3C] 0)) ∧
    ∀ j, j ≤ 15 → ¬ MarkerAt (bounded 15 (cas 1 [0x55, 0x3C] 0)) 0 j := by unfold MarkerAt; decide +kernel
theorem test_witness_seeksync_end : (cas 1 [0x55] 0).handle.act.scanMax = 0#32 ∧
    ∀ j, j ≤ casLeft (cas 1 [0x55] 0) → ¬ MarkerAt (cas 1 [0x55] 0) 0 j := by unfold MarkerAt; decide +kernel

/-- No marker, the bound beyond the bits left (END), and the bound at the bits left (E_FRAMING). -/
theorem test_witness_seeksync_end_bounded :
    casLeft (bounded 9 (cas 1 [0x55] 0)) < (bounded 9 (cas 1 [0x55] 0)).handle.act.scanMax.toNat ∧
    (∀ j, j ≤ 8 → ¬ MarkerAt (bounded 9 (cas 1 [0x55] 0)) 0 j) ∧
    8 = (bounded 8 (cas 1 [0x55] 0)).handle.act.scanMax.toNat ∧ 8 ≤ casLeft (bounded 8 (cas 1 [0x55] 0)) := by
  unfold MarkerAt; decide +kernel
/-- The bits of commands GETBITS 1, on either container: a marker, a bound of one bit, the end after one bit. -/
theorem test_witness_bits_in_a_row :
    (match bitByBit 16 (cas 1 [0x55, 0x3C] 0) with
     | some (bs, _) => decide (16 ≤ bs.length) && (List.range 16).all fun j => bs[j]? == some (syncBit (cas 1 [0x55, 0x3C] 0) j)
     | none => false) = true ∧
    (match bitByBit 1 (bounded 1 (wav longCycle 1 (rose 0 false))) with
     | some (bs, t) => bs == [false] && after (.getbits 1#4) t (fun u => u.err != .ok)
     | none => false) = true ∧
    1 = (bounded 1 (wav longCycle 1 (rose 0 false))).handle.act.scanMax.toNat := by decide +kernel

/-- A frame whose marker ends at bit 16. -/
theorem test_witness_frame : FirstMarker (cas 1 block 0) 0 16 ∧ WithinBound (cas 1 block 0) 16 ∧
    16 + 24 + 8 * (frameHeld (cas 1 block 0) 16 false).blkLen.toNat + 8 ≤ casLeft (cas 1 block 0) ∧
    (frameHeld (cas 1 block 0) 16 false).csumRx = (frameHeld (cas 1 block 0) 16 false).csumCalc ∧
    streamByte (cas 1 block 0) 72 = (cas 1 block 0).params.trailer := by
  unfold FirstMarker MarkerAt WithinBound; decide +kernel
theorem test_witness_frame_checksum : FirstMarker (cas 1 (block.set 8 0x0E) 0) 0 16 ∧
    16 + 24 + 8 * (frameHeld (cas 1 (block.set 8 0x0E) 0) 16 false).blkLen.toNat ≤ casLeft (cas 1 (block.set 8 0x0E) 0) ∧
    (frameHeld (cas 1 (block.set 8 0x0E) 0) 16 false).csumRx
      ≠ (frameHeld (cas 1 (block.set 8 0x0E) 0) 16 false).csumCalc := by
  unfold FirstMarker MarkerAt; decide +kernel
/-- A wrong trailer. -/
theorem test_witness_frame_trailer : FirstMarker (cas 1 (block.set 9 0x54) 0) 0 16 ∧
    72 + 8 ≤ casLeft (cas 1 (block.set 9 0x54) 0) ∧
    (frameHeld (cas 1 (block.set 9 0x54) 0) 16 false).csumRx = (frameHeld (cas 1 (block.set 9 0x54) 0) 16 false).csumCalc ∧
    streamByte (cas 1 (block.set 9 0x54) 0) 72 ≠ (cas 1 (block.set 9 0x54) 0).params.trailer := by
  unfold FirstMarker MarkerAt; decide +kernel
/-- No trailer: the image ends just past the checksum byte. -/
theorem test_witness_frame_without_trailer : FirstMarker (cas 1 (block.take 9) 0) 0 16 ∧
    72 ≤ casLeft (cas 1 (block.take 9) 0) ∧ casLeft (cas 1 (block.take 9) 0) < 72 + 8 ∧
    (frameHeld (cas 1 (block.take 9) 0) 16 false).csumRx = (frameHeld (cas 1 (block.take 9) 0) 16 false).csumCalc := by
  unfold FirstMarker MarkerAt; decide +kernel
theorem test_witness_truncated : FirstMarker (cas 1 (block.take 3) 0) 0 16 ∧ casLeft (cas 1 (block.take 3) 0) < 16 + 16 ∧
    FirstMarker (cas 1 (block.take 8) 0) 0 16 ∧
    casLeft (cas 1 (block.take 8) 0) < 16 + 24 + 8 * (streamByte (cas 1 (block.take 8) 0) (0 + 16 + 8)).toNat := by
  unfold FirstMarker MarkerAt; decide +kernel

theorem test_witness_scan : ∃ t u, (cas 1 block 0).isOpen = true ∧ exec .seeksync (cas 1 block 0) = .next t ∧
    t.err = .ok ∧ exec .seeksync (cas 1 [0x55] 0) = .next u ∧ u.err ≠ .ok :=
  ⟨_, _, by decide, rfl, by decide +kernel, rfl, by decide +kernel⟩
/-- The bytes of `block` after its marker, by READBYTE. -/
theorem test_readbytes :
    (match readbytes 7 (seekSyncCommand (cas 1 block 0)) with
     | some (bs, t) => decide (bs = bytes [1, 4, 1, 2, 3, 4, 0x0F]) && decide ((readbytes 1 t).map (·.1) = some [0x55#8])
     | none => false) = true := by decide +kernel
theorem test_witness_readbytes : ∃ t0 t1 t2, exec .seeksync (cas 1 block 0) = .next t0 ∧ t0.err = .ok ∧
    readbytes ((4#8).toNat + 3) t0 = some (1#8 :: 4#8 :: ([1#8, 2#8, 3#8, 4#8] ++ [0x0F#8]), t1) ∧
    readbytes 1 t1 = some ([0x55#8], t2) ∧
    checksum (cas 1 block 0).params 1#8 4#8 [1#8, 2#8, 3#8, 4#8] = 0x0F#8 := by
  have h := test_readbytes
  split at h
  · rename_i bs t hr
    obtain ⟨h1, h2⟩ := (Bool.and_eq_true _ _).mp h
    obtain ⟨⟨b, u⟩, h3, h4⟩ := Option.map_eq_some_iff.mp (of_decide_eq_true h2)
    exact ⟨_, t, u, rfl, by decide +kernel, by rw [of_decide_eq_true h1] at hr; exact hr, by rw [h3, ← h4],
      by decide +kernel⟩
  · cases h
/-- After the marker of a damaged `block`: the bytes read, whether the read of the next byte meets the end, and the byte. -/
def nextByteEnds (n : Nat) (l : List Nat) : Option (List Byte × Bool) :=
  match readbytes n (seekSyncCommand (cas 1 l 0)) with
  | some (bs, t) => some (bs, after .readbyte t fun u => u.err != .ok)
  | none => none
/-- A frame cut after its type, and in its payload; one without a trailer. -/
theorem test_witness_readbytes_cut : nextByteEnds 1 (block.take 3) = some (bytes [1], true) ∧
    nextByteEnds 4 (block.take 6) = some (bytes [1, 4, 1, 2], true) ∧
    nextByteEnds 7 (block.take 9) = some (bytes [1, 4, 1, 2, 3, 4, 0x0F], true) := by decide +kernel
/-- A wrong checksum, and a wrong trailer. -/
theorem test_witness_readbytes_wrong :
    nextByteEnds 7 (block.set 8 0x0E) = some (bytes [1, 4, 1, 2, 3, 4, 0x0E], false) ∧
    0x0E#8 ≠ checksum Config.Params.default 1#8 4#8 (bytes [1, 2, 3, 4]) ∧
    nextByteEnds 8 (block.set 9 0x54) = some (bytes [1, 4, 1, 2, 3, 4, 0x0F, 0x54], true) ∧
    0x54#8 ≠ Config.Params.default.trailer := by decide +kernel
/-- A whole directory frame after a marker that ends at bit 16, its trailer the last byte of the image. -/
theorem test_witness_directory_frame : FirstMarker (cas 1 dirBlock 0) 0 16 ∧ WithinBound (cas 1 dirBlock 0) 16 ∧
    16 + 24 + 8 * (frameHeld (cas 1 dirBlock 0) 16 true).blkLen.toNat + 8 ≤ casLeft (cas 1 dirBlock 0) ∧
    (frameHeld (cas 1 dirBlock 0) 16 true).csumRx = (frameHeld (cas 1 dirBlock 0) 16 true).csumCalc ∧
    streamByte (cas 1 dirBlock 0) 160 = (cas 1 dirBlock 0).params.trailer ∧
    (frameHeld (cas 1 dirBlock 0) 16 true).blkType = 0x00#8 ∧ 15 ≤ (frameHeld (cas 1 dirBlock 0) 16 true).blkLen.toNat := by
  unfold FirstMarker MarkerAt WithinBound; decide +kernel
theorem test_witness_nextdir : ∃ b, exec .nextblock (cas 1 dirBlock 0) = .next b ∧ b.err = .ok ∧
    b.handle.held.blkType = 0x00#8 ∧ 15 ≤ b.handle.held.blkLen.toNat :=
  ⟨_, rfl, by decide +kernel, by decide +kernel, by decide +kernel⟩
theorem test_witness_nextdir_skips : ∃ b, exec .nextblock (cas 1 block 0) = .next b ∧ b.err = .ok ∧
    b.handle.held.blkType ≠ 0x00#8 := ⟨_, rfl, by decide +kernel, by decide +kernel⟩
/-- An image that ends, and a directory block of one byte. -/
theorem test_witness_nextdir_stops : ∃ b c, exec .nextblock (cas 1 [0x55] 0) = .next b ∧ b.err ≠ .ok ∧
    exec .nextblock (cas 1 [0x55, 0x3C, 0, 1, 7, 8, 0x55] 0) = .next c ∧ c.err = .ok ∧
    c.handle.held.blkType = 0x00#8 ∧ c.handle.held.blkLen.toNat < 15 :=
  ⟨_, _, rfl, by decide +kernel, rfl, by decide +kernel, by decide +kernel, by decide +kernel⟩
theorem test_witness_bit_flip : Config.Params.default.checksum = .sum8 ∧ [1#8, 2#8][1]? = some 2#8 := by decide

/-- For the frames: reading commands, a success and an error. -/
theorem test_witness_frames : ∃ t u v, exec (.getbits 8#4) (cas 1 [0xA5] 0) = .next t ∧
    exec .nextdir (cas 1 dirBlock 0) = .next u ∧ exec .nextdir (cas 1 [0x55] 0) = .next v ∧ v.err ≠ .ok :=
  ⟨_, _, _, rfl, rfl, rfl, by decide +kernel⟩
/-- EOF rises at the end, and falls with NEXTBLOCK on a block that is not final. -/
theorem test_witness_eof : after .nextblock (cas 1 [0x55] 0) (fun t => t.handle.eof) = true ∧
    after .nextblock (setEof true (cas 1 block 0)) (fun t => !t.handle.eof) = true := by decide +kernel
theorem test_witness_parity : (wav longCycle 1 (rose 0 false)).stream.track.dir = some .rising ∧
    ∃ t, exec .seek (wav longCycle 1 (rose 0 false)) = .next t := ⟨rfl, _, rfl⟩
theorem test_witness_instances : ∃ q, (Platform.reset [Config.Params.default, Config.Params.default]).step 1 = .next q := ⟨_, rfl⟩

/-- A state in good order with an open WAV handle after a crossing. -/
theorem test_inv_wav : Inv (wav longCycle 1 (rose 0 false)) where
  image := ⟨by decide +kernel, by decide +kernel, List.Pairwise.nil, fun _ _ h => by cases h⟩
  closed := fun h => absurd h (by decide)
  cas := fun h => by cases h
  wav := fun _ => ⟨⟨by decide, by decide, by decide⟩, rfl, rfl,
    ⟨fun a h => (by cases h), fun b h => (by cases h; decide), rfl⟩,
    fun h => absurd h (by decide), fun _ => rfl⟩
  snapshot := fun _ => ⟨by decide, by decide, by decide, by decide⟩
  block := ⟨fun h => (by cases h), fun i hi _ => by show Held.empty.buf[i] = 0#8; simp [Held.empty], fun _ => rfl⟩
  status := ⟨rfl, rfl⟩
theorem test_witness_step_inv : Inv (wav longCycle 1 (rose 0 false)) ∧
    step (wav longCycle 1 (rose 0 false)) = .next (wav longCycle 1 (rose 0 false)) := ⟨test_inv_wav, rfl⟩
/-- Two images that agree below ACTLEN and differ above it. -/
theorem test_witness_above_the_length : Inv (wav longCycle 1 (rose 0 false)) ∧
    (image (longCycle ++ [7])).read 9 = 7#8 ∧
    (∀ a, a < (wav longCycle 1 (rose 0 false)).handle.act.imgLen.toNat →
      (image (longCycle ++ [7])).read a = (wav longCycle 1 (rose 0 false)).mem.read a) ∧
    (wav longCycle 1 (rose 0 false)).defaults.imgLen = (wav longCycle 1 (rose 0 false)).handle.act.imgLen :=
  ⟨test_inv_wav, by decide +kernel, fun a h => by
    have h : a < 9 := h
    interval_cases a <;> decide +kernel, rfl⟩

end Sys2Proof.Tests
end

section
/-! PROOFS. How a command ends: what `exec` leaves of the state, said once for all nine commands (60_exceptions.md R112,
R113, R117). -/

namespace Sys2Proof.Machine
open Sys2Proof.Claims

/-- `u` is `s` in everything but the handle, the stream and the hazards: a command before its report. -/
structure HandleOnly (s u : State) : Prop where
  params : u.params = s.params
  defaults : u.defaults = s.defaults
  arg : u.arg = s.arg
  argBit : u.argBit = s.argBit
  err : u.err = s.err
  detail : u.detail = s.detail
  errSticky : u.errSticky = s.errSticky
  latch : u.latch = s.latch
  mem : u.mem = s.mem
  hostDraws : u.hostDraws = s.hostDraws
  busData : u.busData = s.busData
  agenda : u.agenda = s.agenda

theorem HandleOnly.refl (s : State) : HandleOnly s s := by constructor <;> rfl

theorem HandleOnly.trans {s u v : State} (h : HandleOnly s u) (k : HandleOnly u v) : HandleOnly s v where
  params := k.params.trans h.params
  defaults := k.defaults.trans h.defaults
  arg := k.arg.trans h.arg
  argBit := k.argBit.trans h.argBit
  err := k.err.trans h.err
  detail := k.detail.trans h.detail
  errSticky := k.errSticky.trans h.errSticky
  latch := k.latch.trans h.latch
  mem := k.mem.trans h.mem
  hostDraws := k.hostDraws.trans h.hostDraws
  busData := k.busData.trans h.busData
  agenda := k.agenda.trans h.agenda

/-- The handle, the stream and the hazards apart, the two states are one. -/
theorem HandleOnly.eq {s u : State} (h : HandleOnly s u) :
    u = { s with handle := u.handle, stream := u.stream, hazard := u.hazard } := by
  obtain ⟨h1, h2, h3, h4, h5, h6, h7, h8, h9, h10, h11, h12⟩ := h
  cases u
  simp_all

/-- A command that starts in `s` reports: `finish` with OK or END, or `fail` with an error code and one of its details. -/
inductive EndsFrom (s : State) : State → Prop where
  | finished (u : State) (c : Code) (hu : HandleOnly s u) (hc : c = .ok ∨ c = .atEnd) : EndsFrom s (finish c u)
  | failed (u : State) (c : Code) (d : BitVec 4) (hu : HandleOnly s u) (hc : isError c = true)
      (hd : legalDetail c d = true) : EndsFrom s (fail c d u)

theorem EndsFrom.ok {s u : State} (hu : HandleOnly s u) : EndsFrom s (finish .ok u) :=
  .finished u _ hu (.inl rfl)

theorem EndsFrom.atEnd {s u : State} (hu : HandleOnly s u) : EndsFrom s (finish .atEnd u) :=
  .finished u _ hu (.inr rfl)

/-- What no command changes, and the latch empty. -/
theorem EndsFrom.frame {s t : State} (h : EndsFrom s t) :
    t = { s with handle := t.handle, stream := t.stream, hazard := t.hazard, err := t.err, detail := t.detail
                 errSticky := t.errSticky, latch := none } := by
  cases h with
  | finished u c hu hc => rw [hu.eq]; rfl
  | failed u c d hu hc hd => rw [hu.eq]; rfl

theorem eosDetail_legal (mid : Bool) : legalDetail .eEos (eosDetail mid) = true := by cases mid <;> rfl

/-- The error a block attempt ends with is one of the table's, with its detail. -/
theorem AttemptSpec.failed_legal {a : Attempt} (h : AttemptSpec a) {c : Code} {d : BitVec 4} (ha : a.outcome = .failed c d) :
    isError c = true ∧ legalDetail c d = true := by
  obtain ⟨rfl, rfl⟩ | ⟨rfl, rfl⟩ | ⟨rfl, rfl⟩ | ⟨rfl, rfl⟩ := h.failed c d ha <;> exact ⟨rfl, rfl⟩

/-- The checks of OPEN: one fails with an error and its detail, or all have passed (40_lifecycle.md R68). -/
theorem openCheck_spec (s : State) :
    (∃ c d, openCheck s = some (c, d) ∧ isError c = true ∧ legalDetail c d = true) ∨
    (openCheck s = none ∧ cfgKind s.defaults.cfg ≠ 3#2 ∧ cfgParity s.defaults.cfg ≠ 3#2 ∧
      cfgMode s.defaults.cfg ≠ 1#2 ∧ s.defaults.imgLen ≤ s.params.imgCapacity) := by
  rw [openCheck]
  split
  · exact .inl ⟨_, _, rfl, rfl, rfl⟩
  · split
    · exact .inl ⟨_, _, rfl, rfl, rfl⟩
    · split
      · exact .inl ⟨_, _, rfl, rfl, rfl⟩
      · split
        · exact .inl ⟨_, _, rfl, rfl, rfl⟩
        · rename_i hk hp hl hm
          exact .inr ⟨rfl, hk, hp, hm, BitVec.not_lt.mp hl⟩

theorem withHandle_ends {s : State} {run : State → State} (h : EndsFrom s (run s)) : EndsFrom s (withHandle s run) := by
  rw [withHandle]
  split
  · exact h
  · exact .failed s _ _ (.refl s) rfl rfl

theorem getBits_ends (n : Nat) (s : State) : EndsFrom s (getBits n s) := by
  rw [getBits]
  split
  · exact .failed _ _ _ (by constructor <;> simp) rfl (eosDetail_legal _)
  · exact .ok (by constructor <;> simp)

theorem readByteCommand_ends (s : State) : EndsFrom s (readByteCommand s) := by
  rw [readByteCommand]
  split
  · exact .failed _ _ _ (by constructor <;> simp) rfl (eosDetail_legal _)
  · exact .ok (by constructor <;> simp)

theorem seekSyncCommand_ends (s : State) : EndsFrom s (seekSyncCommand s) := by
  rw [seekSyncCommand]
  cases (seekSync s s.stream).answer with
  | found => exact .ok (by constructor <;> simp)
  | atEnd => exact .atEnd (by constructor <;> simp)
  | bound => exact .failed _ _ _ (by constructor <;> simp) rfl rfl

theorem nextBlockCommand_ends (s : State) : EndsFrom s (nextBlockCommand s) := by
  simp only [nextBlockCommand]
  cases ha : (blockAttempt s s.stream).outcome <;> simp only
  case valid => exact .ok (by constructor <;> simp)
  case atEnd => exact .atEnd (by constructor <;> simp)
  case failed c d =>
    obtain ⟨hc, hd⟩ := (blockAttempt_spec s s.stream).failed_legal ha
    exact .failed _ _ _ (by constructor <;> simp) hc hd

theorem nextDirCommand_ends (s : State) : EndsFrom s (nextDirCommand s) := by
  have hloop := nextDirLoop_attempt s (bitsLeft s s.stream) s.stream
  rw [nextDirCommand]
  generalize nextDirLoop s (bitsLeft s s.stream) s.stream = r at hloop ⊢
  obtain ⟨a, cand⟩ := r
  have hspec : AttemptSpec a := by rw [show a = blockAttempt s cand from hloop]; exact blockAttempt_spec s cand
  simp only
  cases ha : a.outcome <;> simp only
  case valid =>
    split
    · exact .failed _ _ _ (by constructor <;> simp) rfl rfl
    · exact .ok (by constructor <;> simp)
  case atEnd => exact .atEnd (by constructor <;> simp)
  case failed c d =>
    obtain ⟨hc, hd⟩ := hspec.failed_legal ha
    exact .failed _ _ _ (by constructor <;> simp) hc hd

/-- The start of OPEN touches the handle, the stream and the hazards alone. -/
theorem beginOpen_handleOnly (s : State) : HandleOnly s (beginOpen s) := by
  rw [beginOpen]
  cases s.isOpen <;> constructor <;> rfl

theorem setResult_handleOnly (v : Word) (s : State) : HandleOnly s (setResult v s) := by constructor <;> rfl

theorem initHandle_handleOnly (k : Kind) (s : State) : HandleOnly s (initHandle k s) := by
  cases k <;> constructor <;> rfl

theorem openKind_ends (k : Kind) (s : State) : EndsFrom s (openKind k s) := by
  cases k with
  | none => exact .failed _ _ _ (by constructor <;> simp) rfl rfl
  | cas => exact .ok ((initHandle_handleOnly _ _).trans (setResult_handleOnly _ _))
  | wav =>
    rw [openKind]
    obtain ⟨w, hw, -⟩ | ⟨d, hd, h1, h6⟩ := riffParse_spec s.mem s.params.riffPad _ s.handle.act.imgLen.isLt
    · rw [hw]
      have hset : HandleOnly s { s with handle := { s.handle with wav := w } } := by constructor <;> rfl
      exact .ok ((hset.trans (initHandle_handleOnly _ _)).trans (setResult_handleOnly _ _))
    · rw [hd]
      exact .failed _ _ _ (by constructor <;> simp) rfl (by simp [legalDetail, h1, h6])

theorem EndsFrom.trans {s u t : State} (hu : HandleOnly s u) (h : EndsFrom u t) : EndsFrom s t := by
  cases h with
  | finished v c hv hc => exact .finished v c (hu.trans hv) hc
  | failed v c d hv hc hd => exact .failed v c d (hu.trans hv) hc hd

theorem openImage_ends (s : State) : EndsFrom s (openImage s) := by
  rw [openImage]
  obtain ⟨c, d, h, hc, hd⟩ | ⟨h, -⟩ := openCheck_spec s
  · rw [h]; exact .failed s c d (.refl s) hc hd
  · rw [h]; exact .trans (u := snapshot s) (by constructor <;> simp) (openKind_ends _ _)

/-- Every command reports, and changes the handle, the stream and the hazards alone before it does. -/
theorem exec_ends {i : Instr} {s t : State} (h : exec i s = .next t) : EndsFrom s t := by
  cases i with
  | nop => cases h; exact .ok (by constructor <;> simp)
  | openHandle => cases h; exact .trans (beginOpen_handleOnly s) (openImage_ends _)
  | close => cases h; exact withHandle_ends (.ok (by constructor <;> simp))
  | getbits n =>
    rw [exec, execGetbits] at h
    split at h
    · cases h; exact withHandle_ends (getBits_ends _ s)
    · cases h; exact .failed s _ _ (.refl s) rfl rfl
  | seek => cases h; exact withHandle_ends (.ok (by constructor <;> simp))
  | readbyte => cases h; exact withHandle_ends (readByteCommand_ends s)
  | seeksync => cases h; exact withHandle_ends (seekSyncCommand_ends s)
  | nextblock => cases h; exact withHandle_ends (nextBlockCommand_ends s)
  | nextdir => cases h; exact withHandle_ends (nextDirCommand_ends s)

/-- The sticky bit of a code (10_state.md R37). -/
theorem stickyMask_getLsbD (c : Code) {k : Nat} (hk : k < 32) :
    (stickyMask c).getLsbD k = (decide (k = c.number) && isError c) := by
  rw [stickyMask, isError]
  by_cases h : 2 ≤ c.number
  · rw [if_pos h, ← BitVec.twoPow_eq, BitVec.getLsbD_twoPow]
    by_cases hc : c.number = k
    · rw [hc] at h; simp [hc, hk, h]
    · simp [hc, Ne.symm hc]
  · rw [if_neg h]; simp [h]

end Sys2Proof.Machine

namespace Sys2Proof.Proofs
open Sys2Proof Sys2Proof.Machine Sys2Proof.Claims

/-- Settles O54: a command that finishes reports no error, and one that fails sets the bit of its code. -/
theorem stickyBitRecordsTheError : Obligations.StickyBitRecordsTheError := by
  intro i s t h k hk
  cases exec_ends h with
  | finished u c hu hc =>
    obtain rfl | rfl := hc <;> simp [isError, Code.number, hu.errSticky]
  | failed u c d hu hc hd =>
    rw [fail_errSticky, BitVec.getLsbD_or, stickyMask_getLsbD c hk, hu.errSticky, fail_err]

end Sys2Proof.Proofs
end

section
/-! PROOFS. What the reading commands leave of the handle, and the streams they pass through. -/

namespace Sys2Proof.Machine
open Sys2Proof.Claims

/-! ## The streams: one relation per container -/

/-- A CAS bit changes nothing of the tracking state (41_cas_bitreader.md R78). -/
theorem cas_track_rel {s : State} (hk : s.handle.kind = .cas) : StreamRel s fun t t' => t'.track = t.track where
  refl _ := rfl
  trans _ _ _ h k := k.trans h
  next t := by
    rw [nextBit_cas hk]
    obtain ⟨-, h⟩ | ⟨-, b, t', h, htr, -⟩ := casNextBit_step s t <;> rw [h]
    · rfl
    · exact htr

/-- What reading WAV bits keeps (42_wav_demod.md R85, R88, R90). -/
theorem wav_frame_rel {s : State} (hk : s.handle.kind = .wav) : StreamRel s WavFrame where
  refl := .refl
  trans _ _ _ := .trans
  next t := by
    simp only [nextBit, hk, wavNextBit]
    obtain ⟨t', h, hf⟩ | ⟨b, t', h, hf, -⟩ := wavBitLoop_spec s (samplesLeft s t) t <;> rw [h] <;> exact hf

/-- Without a handle the bit source keeps the stream (log 16). -/
theorem closed_stream_rel {s : State} (hk : s.handle.kind = .none) : StreamRel s fun t t' => t' = t where
  refl _ := rfl
  trans _ _ _ h k := k.trans h
  next t := by rw [nextBit, hk]; rfl

/-- NEXTDIR reads its way to the candidate stream too (43_framing.md R108). -/
theorem nextDirLoop_candidate_rel {s : State} {R : Stream → Stream → Prop} (h : StreamRel s R) (fuel : Nat) (t : Stream) :
    R t (nextDirLoop s fuel t).2 := by
  induction fuel generalizing t with
  | zero => exact h.refl t
  | succ fuel ih =>
    rw [nextDirLoop]
    split
    · exact h.refl t
    · exact h.refl t
    · split
      · exact h.refl t
      · exact h.trans _ _ _ (blockAttempt_rel h t) (ih _)

/-! ## The handle -/

/-- What a command that neither opens, closes nor seeks leaves: parameters, image, hazards and what OPEN fixed stay; the
held block is as it was or a block attempt's; the directory registers are as they were, empty or decoded; the
start-of-file bit is as it was or NEXTDIR's candidate's. -/
structure ReadsOnly (s t : State) : Prop where
  params : t.params = s.params
  mem : t.mem = s.mem
  hazard : t.hazard = s.hazard
  handle : t.handle = { s.handle with
    eof := t.handle.eof, result := t.handle.result, sofPos := t.handle.sofPos, sofBit := t.handle.sofBit
    held := t.handle.held, dir := t.handle.dir, scanCount := t.handle.scanCount }
  held : t.handle.held = s.handle.held ∨ ∃ u, t.handle.held = (blockAttempt s u).held
  dir : t.handle.dir = s.handle.dir ∨ t.handle.dir = DirEntry.empty ∨ ∃ buf, t.handle.dir = decodeDir buf
  sofBit : t.handle.sofBit = s.handle.sofBit ∨
    t.handle.sofBit = (nextDirLoop s (bitsLeft s s.stream) s.stream).2.posBit

theorem ReadsOnly.kind {s t : State} (h : ReadsOnly s t) : t.handle.kind = s.handle.kind := by rw [h.handle]
theorem ReadsOnly.act {s t : State} (h : ReadsOnly s t) : t.handle.act = s.handle.act := by rw [h.handle]
theorem ReadsOnly.wav {s t : State} (h : ReadsOnly s t) : t.handle.wav = s.handle.wav := by rw [h.handle]

theorem finish_readsOnly (c : Code) (s : State) : ReadsOnly s (finish c s) :=
  ⟨rfl, rfl, rfl, rfl, .inl rfl, .inl rfl, .inl rfl⟩

theorem fail_readsOnly (c : Code) (d : BitVec 4) (s : State) : ReadsOnly s (fail c d s) :=
  ⟨rfl, rfl, rfl, rfl, .inl rfl, .inl rfl, .inl rfl⟩

theorem getBits_readsOnly (n : Nat) (s : State) : ReadsOnly s (getBits n s) := by
  rw [getBits]
  split <;> exact ⟨rfl, rfl, rfl, rfl, .inl rfl, .inl rfl, .inl rfl⟩

theorem readByteCommand_readsOnly (s : State) : ReadsOnly s (readByteCommand s) := by
  rw [readByteCommand]
  split <;> exact ⟨rfl, rfl, rfl, rfl, .inl rfl, .inl rfl, .inl rfl⟩

theorem seekSyncCommand_readsOnly (s : State) : ReadsOnly s (seekSyncCommand s) := by
  simp only [seekSyncCommand]
  split <;> exact ⟨rfl, rfl, rfl, rfl, .inl rfl, .inl rfl, .inl rfl⟩

theorem nextBlockCommand_readsOnly (s : State) : ReadsOnly s (nextBlockCommand s) := by
  have hheld : ∃ u, (blockAttempt s s.stream).held = (blockAttempt s u).held := ⟨_, rfl⟩
  simp only [nextBlockCommand]
  split <;> constructor <;> simp [hheld]

theorem nextDirCommand_readsOnly (s : State) : ReadsOnly s (nextDirCommand s) := by
  have hloop := nextDirLoop_attempt s (bitsLeft s s.stream) s.stream
  simp only [nextDirCommand]
  generalize hr : nextDirLoop s (bitsLeft s s.stream) s.stream = r at hloop ⊢
  obtain ⟨a, cand⟩ := r
  have hheld : ∃ u, a.held = (blockAttempt s u).held := ⟨cand, congrArg Attempt.held hloop⟩
  simp only
  split
  · constructor <;> simp [hheld]
  · constructor <;> simp [hheld]
  · split
    · constructor <;> simp [hheld]
    · constructor <;> simp [hheld, hr]

/-- Every command but OPEN, CLOSE and SEEK only reads. -/
theorem exec_readsOnly {i : Instr} {s t : State} (ho : i ≠ .openHandle) (hc : i ≠ .close) (hs : i ≠ .seek)
    (h : exec i s = .next t) : ReadsOnly s t := by
  have hwith : ∀ run : State → State, ReadsOnly s (run s) → ReadsOnly s (withHandle s run) := fun run hr => by
    rw [withHandle]
    split
    · exact hr
    · exact fail_readsOnly _ _ s
  cases i with
  | openHandle => exact absurd rfl ho
  | close => exact absurd rfl hc
  | seek => exact absurd rfl hs
  | nop => cases h; exact finish_readsOnly _ s
  | getbits n =>
    rw [exec, execGetbits] at h
    split at h
    · cases h; exact hwith _ (getBits_readsOnly _ s)
    · cases h; exact fail_readsOnly _ _ s
  | readbyte => cases h; exact hwith _ (readByteCommand_readsOnly s)
  | seeksync => cases h; exact hwith _ (seekSyncCommand_readsOnly s)
  | nextblock => cases h; exact hwith _ (nextBlockCommand_readsOnly s)
  | nextdir => cases h; exact hwith _ (nextDirCommand_readsOnly s)

end Sys2Proof.Machine

namespace Sys2Proof.Proofs
open Sys2Proof Sys2Proof.Machine Sys2Proof.Claims

/-- Settles O52: every command left moves the stream by reading bits, so what every bit read keeps, it keeps. -/
theorem containersKeepToTheirOwnCursor : Obligations.ContainersKeepToTheirOwnCursor := by
  intro i s t ho hc hs h
  refine ⟨fun hk => ?_, fun hk => ?_, fun hk => ?_⟩
  · exact exec_rel (cas_track_rel hk) ho hc hs h
  · exact (exec_rel (wav_frame_rel hk) ho hc hs h).posBit
  · exact exec_rel (closed_stream_rel hk) ho hc hs h

end Sys2Proof.Proofs
end

section
/-! PROOFS. The invariant (10_state.md R40): the part that does not speak of the status, what keeps it, and the steps. -/

namespace Sys2Proof.Machine
open Sys2Proof.Claims

/-- The invariant but for its clause about ERR, DETAIL and ERRSTICKY. -/
structure HandleInv (s : State) : Prop where
  image : ImageInv s
  closed : ClosedInv s
  cas : CasInv s
  wav : s.handle.kind = .wav → WavInv s
  snapshot : s.isOpen = true → SnapshotInv s
  block : BlockInv s.handle

theorem Inv.handleInv {s : State} (h : Inv s) : HandleInv s := ⟨h.image, h.closed, h.cas, h.wav, h.snapshot, h.block⟩

theorem HandleInv.inv {s : State} (h : HandleInv s) (hs : StatusInv s) : Inv s :=
  ⟨h.image, h.closed, h.cas, h.wav, h.snapshot, h.block, hs⟩

/-- It speaks of the parameters, the image, the hazards, the handle and the stream alone. -/
theorem HandleInv.congr {s t : State} (h : HandleInv s) (hp : t.params = s.params) (hm : t.mem = s.mem)
    (hz : t.hazard = s.hazard) (hh : t.handle = s.handle) (hs : t.stream = s.stream) : HandleInv t := by
  have ho : t.isOpen = s.isOpen := by rw [State.isOpen, State.isOpen, hh]
  obtain ⟨⟨sorted, below, hsorted, hbelow⟩, closed, cas, wav, snapshot, block⟩ := h
  refine ⟨⟨hm ▸ sorted, ?_, hz ▸ hsorted, ?_⟩, ?_, ?_, fun hk => ?_, fun hopen => ?_, hh ▸ block⟩
  · rwa [hm, hp]
  · rwa [ho, hz, hh]
  · rwa [ClosedInv, ho, hh, hs]
  · rwa [CasInv, hh, hs]
  · obtain ⟨⟨depth, rate, samples⟩, posBit, sofBit, track, odd, even⟩ := wav (hh ▸ hk)
    rw [← hh] at depth rate samples sofBit odd even
    rw [← hs] at posBit track odd even
    exact ⟨⟨depth, rate, samples⟩, posBit, sofBit, track, odd, even⟩
  · obtain ⟨kind, parity, mode, imgLen⟩ := snapshot (ho ▸ hopen)
    rw [← hh] at kind parity mode imgLen
    exact ⟨kind, parity, mode, hp ▸ imgLen⟩

theorem Held.empty_block {i : Nat} (hi : i < 256) : Held.empty.buf[i] = 0#8 := by simp [Held.empty]

/-- An empty held block and empty directory registers are in good order. -/
theorem blockInv_empty {h : Handle} (hh : h.held = Held.empty) (hd : h.dir = DirEntry.empty) : BlockInv h where
  checked hv := by rw [hh] at hv; cases hv
  padded i hi _ := by simp only [hh]; exact Held.empty_block hi
  noEntry _ := hd

/-- A closed handle over a canonical image is in good order. -/
theorem handleInv_of_closed {s : State} {d : Nat} (hm : s.mem.wf)
    (hb : ∀ c ∈ s.mem.cells, c.1 < s.params.imgCapacity.toNat) (hz : s.hazard.Pairwise fun a b => a < b)
    (hh : s.handle = Handle.closed) (hs : s.stream = Stream.closed d) : HandleInv s := by
  have ho : s.isOpen = false := by rw [State.isOpen, hh]; rfl
  refine ⟨⟨hm, hb, hz, fun h => ?_⟩, fun _ => ⟨hh, ?_⟩, fun h => ?_, fun h => ?_, fun h => ?_, ?_⟩
  · rw [ho] at h; cases h
  · rw [hs]; rfl
  · rw [hh] at h; cases h
  · rw [hh] at h; cases h
  · rw [ho] at h; cases h
  · exact blockInv_empty (by rw [hh]; rfl) (by rw [hh]; rfl)

/-! ## The status -/

/-- The bits of ERRSTICKY that are always 0 stay 0 under the sticky bit of any code. -/
theorem stickyMask_reserved (c : Code) : stickyMask c &&& 0x7FFFF803#32 = 0#32 := by cases c <;> decide

theorem reserved_or {a b : Word} (ha : a &&& 0x7FFFF803#32 = 0#32) (hb : b &&& 0x7FFFF803#32 = 0#32) :
    (a ||| b) &&& 0x7FFFF803#32 = 0#32 := by
  rw [BitVec.and_or_distrib_right, ha, hb]; rfl

/-- Whatever a command ends with is a legal status. -/
theorem EndsFrom.statusInv {s t : State} (h : EndsFrom s t) (hs : StatusInv s) : StatusInv t := by
  cases h with
  | finished u c hu hc =>
    refine ⟨?_, ?_⟩
    · obtain rfl | rfl := hc <;> rfl
    · rw [finish_errSticky, hu.errSticky]; exact hs.sticky
  | failed u c d hu hc hd =>
    refine ⟨hd, ?_⟩
    rw [fail_errSticky, hu.errSticky]; exact reserved_or hs.sticky (stickyMask_reserved c)

/-! ## The reading commands -/

theorem AttemptSpec.blockInv {a : Attempt} (h : AttemptSpec a) {hd : Handle} (hh : hd.held = a.held)
    (hn : hd.dir.valid = false → hd.dir = DirEntry.empty) : BlockInv hd where
  checked hv := by rw [hh] at hv ⊢; exact h.checked hv
  padded i hi hl := by simp only [hh] at hl ⊢; exact h.padded i hi hl
  noEntry := hn

/-- The block and the directory registers a reading command leaves. -/
theorem ReadsOnly.blockInv {s t : State} (h : ReadsOnly s t) (hb : BlockInv s.handle) : BlockInv t.handle := by
  have hn : t.handle.dir.valid = false → t.handle.dir = DirEntry.empty := by
    obtain hd | hd | ⟨buf, hd⟩ := h.dir <;> rw [hd]
    · exact hb.noEntry
    · exact fun _ => rfl
    · exact fun hv => by cases hv
  obtain hh | ⟨u, hh⟩ := h.held
  · exact ⟨by rw [hh]; exact hb.checked, by simp only [hh]; exact hb.padded, hn⟩
  · exact (blockAttempt_spec s u).blockInv hh hn

/-- The crossing pair of the invariant is the one the laws of the demodulator speak of. -/
theorem trackInv_iff_pairInv (t : Stream) : TrackInv t ↔ PairInv t :=
  ⟨fun h => ⟨h.ordered, h.behind, h.lastCycle⟩, fun h => ⟨h.ordered, h.behind, h.lastCycle⟩⟩

/-- Reading a WAV stream keeps the invariant of a WAV handle. -/
theorem WavInv.reads {s t : State} (h : WavInv s) (hk : s.handle.kind = .wav) (hr : ReadsOnly s t)
    (hf : WavFrame s.stream t.stream) : WavInv t where
  header := by
    obtain ⟨depth, rate, samples⟩ := h.header
    rw [← hr.wav, ← hr.act] at samples
    exact ⟨hr.wav ▸ depth, hr.wav ▸ rate, samples⟩
  posBit := hf.posBit.trans h.posBit
  sofBit := by
    obtain hsof | hsof := hr.sofBit <;> rw [hsof]
    · exact h.sofBit
    · rw [(nextDirLoop_candidate_rel (wav_frame_rel hk) _ s.stream).posBit, h.posBit]
  track := (trackInv_iff_pairInv _).mpr (hf.pair ((trackInv_iff_pairInv _).mp h.track))
  odd hp := hf.dir _ (h.odd (hr.act ▸ hp))
  even hp := hf.dir _ (h.even (hr.act ▸ hp))

theorem ReadsOnly.isOpen {s t : State} (h : ReadsOnly s t) : t.isOpen = s.isOpen := by
  rw [State.isOpen, State.isOpen, h.kind]

/-- A reading command on an open handle keeps the invariant. -/
theorem HandleInv.reads {i : Instr} {s t : State} (h : HandleInv s) (hopen : s.isOpen = true) (ho : i ≠ .openHandle)
    (hc : i ≠ .close) (hs : i ≠ .seek) (he : exec i s = .next t) : HandleInv t := by
  have hr := exec_readsOnly ho hc hs he
  have hto := hr.isOpen.trans hopen
  refine ⟨⟨hr.mem ▸ h.image.sorted, ?_, hr.hazard ▸ h.image.hazardSorted, fun _ => ?_⟩, fun hcl => ?_, fun hk => ?_,
    fun hk => ?_, fun _ => ?_, hr.blockInv h.block⟩
  · rw [hr.mem, hr.params]; exact h.image.below
  · rw [hr.hazard, hr.act]; exact h.image.hazardBelow hopen
  · rw [hto] at hcl; cases hcl
  · have hk := hr.kind ▸ hk
    obtain ⟨hw, htr⟩ := h.cas hk
    exact ⟨hr.wav.trans hw, (exec_rel (cas_track_rel hk) ho hc hs he).trans htr⟩
  · have hk := hr.kind ▸ hk
    exact (h.wav hk).reads hk hr (exec_rel (wav_frame_rel hk) ho hc hs he)
  · obtain ⟨kind, parity, mode, imgLen⟩ := h.snapshot hopen
    rw [← hr.act] at kind parity mode imgLen
    exact ⟨kind, parity, mode, hr.params ▸ imgLen⟩

/-! ## SEEK and OPEN -/

theorem clearTracking_pair (t : Stream) (tr : Tracking) (ht : t.track = clearTracking tr) : TrackInv t := by
  constructor <;> simp [ht, clearTracking, Tracking.zero]

/-- SEEK keeps the invariant: the tracking is cleared but its direction (40_lifecycle.md R76). -/
theorem HandleInv.seek {s : State} (h : HandleInv s) (hopen : s.isOpen = true) :
    HandleInv (finish .ok (setResult 0#32 (setEof false (setStream (seekStream s) s)))) := by
  refine ⟨⟨h.image.sorted, h.image.below, h.image.hazardSorted, fun _ => h.image.hazardBelow hopen⟩,
    fun hcl => ?_, fun hk => ?_, fun hk => ?_, fun _ => ?_, ⟨h.block.checked, h.block.padded, h.block.noEntry⟩⟩
  · have hcl : s.isOpen = false := hcl
    rw [hopen] at hcl; cases hcl
  · have hk : s.handle.kind = .cas := hk
    obtain ⟨hw, htr⟩ := h.cas hk
    refine ⟨hw, ?_⟩
    simpa [seekStream, hk] using htr
  · have hk : s.handle.kind = .wav := hk
    obtain ⟨⟨depth, rate, samples⟩, posBit, sofBit, track, odd, even⟩ := h.wav hk
    have hst : seekStream s = { s.stream with pos := s.arg, posBit := 0#3, track := clearTracking s.stream.track } := by
      simp only [seekStream, hk]
    refine ⟨⟨depth, rate, samples⟩, ?_, sofBit, ?_, fun hp => ?_, fun hp => ?_⟩
    · simp [hst]
    · exact clearTracking_pair _ s.stream.track (by simp [hst])
    · simpa [hst, clearTracking] using odd hp
    · simpa [hst, clearTracking] using even hp
  · obtain ⟨kind, parity, mode, imgLen⟩ := h.snapshot hopen
    exact ⟨kind, parity, mode, imgLen⟩

/-- OPEN starts from a closed handle without hazards (40_lifecycle.md R68). -/
theorem beginOpen_eq {s : State} (h : ClosedInv s) : beginOpen s = { s with
    handle := Handle.closed, stream := Stream.closed s.stream.draws, hazard := [] } := by
  cases ho : s.isOpen with
  | true => rw [beginOpen, ho]; rfl
  | false =>
    obtain ⟨hh, hs⟩ := h ho
    rw [beginOpen, ho]
    cases s
    simp only at hh hs
    subst hh
    rw [hs]; rfl

/-- A snapshot that passed OPEN's checks, as OPEN's handle holds it. -/
theorem snapshotInv_of_checks {s t : State} (hp : t.params = s.params) (ha : t.handle.act = s.defaults)
    (hk : cfgKind s.defaults.cfg ≠ 3#2) (hpar : cfgParity s.defaults.cfg ≠ 3#2) (hm : cfgMode s.defaults.cfg ≠ 1#2)
    (hl : s.defaults.imgLen ≤ s.params.imgCapacity) : SnapshotInv t :=
  ⟨ha ▸ hk, ha ▸ hpar, ha ▸ hm, by rw [ha, hp]; exact hl⟩

@[simp] theorem initHandle_handle (k : Kind) (s : State) : (initHandle k s).handle = { s.handle with
    kind := k, eof := false, held := { s.handle.held with valid := false }, dir := { s.handle.dir with valid := false }
    sofPos := s.handle.act.start, sofBit := 0#3 } := by cases k <;> rfl

@[simp] theorem initHandle_hazard (k : Kind) (s : State) : (initHandle k s).hazard = s.hazard := by cases k <;> rfl

@[simp] theorem initHandle_cas_stream (s : State) :
    (initHandle .cas s).stream = { s.stream with pos := s.handle.act.start, posBit := 0#3 } := rfl

@[simp] theorem initHandle_wav_stream (s : State) : (initHandle .wav s).stream = { s.stream with
    pos := s.handle.act.start, posBit := 0#3
    track := { clearTracking s.stream.track with dir := parityDir (cfgParity s.handle.act.cfg) } } := rfl

/-- What every kind of OPEN that makes a handle leaves: a canonical image without hazards, and a snapshot that passed the
checks. What the kind adds is its own clause. -/
theorem handleInv_of_opened {b t : State} (hb : HandleInv b) (hu : HandleOnly b t) (hz : t.hazard = [])
    (ho : t.isOpen = true) (ha : t.handle.act = b.defaults) (hn : openCheck b = none)
    (hheld : t.handle.held = Held.empty) (hdir : t.handle.dir = DirEntry.empty)
    (hcas : CasInv t) (hwav : t.handle.kind = .wav → WavInv t) : HandleInv t := by
  obtain ⟨c, d, h, -⟩ | ⟨-, hk, hpar, hm, hl⟩ := openCheck_spec b
  · rw [hn] at h; cases h
  · refine ⟨⟨hu.mem ▸ hb.image.sorted, ?_, by rw [hz]; exact .nil, fun _ a h => ?_⟩, fun hcl => ?_, hcas, hwav,
      fun _ => snapshotInv_of_checks hu.params ha hk hpar hm hl, blockInv_empty hheld hdir⟩
    · rw [hu.mem, hu.params]; exact hb.image.below
    · rw [hz] at h; cases h
    · rw [ho] at hcl; cases hcl

/-- OPEN of a CAS image, from a closed handle. -/
theorem handleInv_openCas {b : State} (hb : HandleInv b) (hh : b.handle = Handle.closed)
    (hs : b.stream = Stream.closed b.stream.draws) (hz : b.hazard = []) (hn : openCheck b = none) :
    HandleInv (setResult 1#32 (initHandle .cas (snapshot b))) := by
  have hu : HandleOnly b (initHandle .cas (snapshot b)) :=
    (show HandleOnly b (snapshot b) by constructor <;> rfl).trans (initHandle_handleOnly _ _)
  refine handleInv_of_opened hb (hu.trans (setResult_handleOnly _ _)) (by simp [hz]) rfl (by simp) hn
    (by simp [hh, Handle.closed, Held.empty]) (by simp [hh, Handle.closed, DirEntry.empty]) (fun _ => ⟨?_, ?_⟩)
    (fun h => by cases h)
  · simp [hh, Handle.closed]
  · exact congrArg Stream.track hs

/-- OPEN of a WAV image whose header parsed, from a closed handle. -/
theorem handleInv_openWav {b : State} {w : WavParams} (hb : HandleInv b) (hh : b.handle = Handle.closed)
    (hz : b.hazard = []) (hn : openCheck b = none) (hw : ParsedHeader b.defaults.imgLen.toNat w) :
    HandleInv (setResult 2#32 (initHandle .wav
      { snapshot b with handle := { (snapshot b).handle with wav := w } })) := by
  have hu : HandleOnly b (initHandle .wav { snapshot b with handle := { (snapshot b).handle with wav := w } }) :=
    (show HandleOnly b _ by constructor <;> rfl).trans (initHandle_handleOnly _ _)
  refine handleInv_of_opened hb (hu.trans (setResult_handleOnly _ _)) (by simp [hz]) rfl (by simp) hn
    (by simp [hh, Handle.closed, Held.empty]) (by simp [hh, Handle.closed, DirEntry.empty]) (fun h => by cases h)
    (fun _ => ⟨⟨hw.depth, hw.rate, hw.samplesInImage⟩, rfl, rfl, ?_, fun hp => ?_, fun hp => ?_⟩)
  · constructor <;> simp [clearTracking, Tracking.zero]
  · have hp : cfgParity b.defaults.cfg = 1#2 := hp
    simp [parityDir, hp]
  · have hp : cfgParity b.defaults.cfg = 2#2 := hp
    simp [parityDir, hp]

theorem HandleInv.fail {s : State} (h : HandleInv s) (c : Code) (d : BitVec 4) : HandleInv (fail c d s) :=
  h.congr rfl rfl rfl rfl rfl

theorem HandleInv.finish {s : State} (h : HandleInv s) (c : Code) : HandleInv (finish c s) := h.congr rfl rfl rfl rfl rfl

/-- OPEN past its start, from a closed handle without hazards (40_lifecycle.md R68, R74). -/
theorem handleInv_openImage {b : State} (hb : HandleInv b) (hh : b.handle = Handle.closed)
    (hs : b.stream = Stream.closed b.stream.draws) (hz : b.hazard = []) : HandleInv (openImage b) := by
  have hclosed : HandleInv (closeHandle (snapshot b)) :=
    handleInv_of_closed hb.image.sorted hb.image.below hb.image.hazardSorted rfl rfl
  rw [openImage]
  cases hn : openCheck b with
  | some e => exact hb.fail _ _
  | none =>
    simp only
    cases (classify (snapshot b)).getD .none with
    | none => exact hclosed.fail _ _
    | cas => exact (handleInv_openCas hb hh hs hz hn).finish _
    | wav =>
      rw [openKind]
      obtain ⟨w, hw, hp⟩ | ⟨d, hd, -⟩ :=
        riffParse_spec (snapshot b).mem (snapshot b).params.riffPad _ (snapshot b).handle.act.imgLen.isLt
      · rw [hw]; exact (handleInv_openWav hb hh hz hn hp).finish _
      · rw [hd]; exact hclosed.fail _ _

/-! ## Every command -/

/-- OPEN keeps them, whatever the handle was before. -/
theorem HandleInv.opened {s : State} (h : HandleInv s) : HandleInv (openImage (beginOpen s)) := by
  rw [beginOpen_eq h.closed]
  refine handleInv_openImage ?_ rfl rfl rfl
  exact handleInv_of_closed h.image.sorted h.image.below .nil rfl rfl

/-- Every command keeps the invariant's clauses about the image, the handle and the stream. -/
theorem HandleInv.exec {i : Instr} {s t : State} (h : HandleInv s) (he : exec i s = .next t) : HandleInv t := by
  by_cases ho : i = .openHandle
  · subst ho; cases he; exact h.opened
  by_cases hn : i = .nop
  · subst hn; cases he; exact h.finish _
  cases hopen : s.isOpen with
  | false =>
    rw [exec_closed hopen i hn ho] at he
    cases he
    split <;> exact h.fail _ _
  | true =>
    by_cases hc : i = .close
    · subst hc
      rw [exec_close_open hopen] at he; cases he
      exact handleInv_of_closed h.image.sorted h.image.below h.image.hazardSorted rfl rfl
    by_cases hs : i = .seek
    · subst hs
      rw [exec_seek_open hopen] at he; cases he
      exact h.seek hopen
    exact h.reads hopen ho hc hs he

/-- Every command keeps the invariant. -/
theorem Inv.exec {i : Instr} {s t : State} (h : Inv s) (he : exec i s = .next t) : Inv t :=
  (h.handleInv.exec he).inv ((exec_ends he).statusInv h.status)

/-! ## The turns of the host and of the platform -/

/-- A turn that leaves the image, the handle, the stream and the status, and of ERRSTICKY the bits that are always 0. -/
theorem Inv.congr {s t : State} (h : Inv s) (hp : t.params = s.params) (hm : t.mem = s.mem) (hz : t.hazard = s.hazard)
    (hh : t.handle = s.handle) (hs : t.stream = s.stream) (he : t.err = s.err) (hd : t.detail = s.detail)
    (hst : t.errSticky &&& 0x7FFFF803#32 = 0#32) : Inv t :=
  (h.handleInv.congr hp hm hz hh hs).inv ⟨by rw [he, hd]; exact h.status.detail, hst⟩

theorem Inv.readReg {s : State} (h : Inv s) (r : Reg) : Inv (readReg r s) := by
  rw [Machine.readReg]
  split <;> exact h.congr rfl rfl rfl rfl rfl rfl rfl h.status.sticky

theorem Inv.writeReg {s : State} (h : Inv s) (r : Reg) (v : Word) : Inv (writeReg r v s) := by
  rw [Machine.writeReg]
  split
  · exact h.congr rfl rfl rfl rfl rfl rfl rfl (reserved_or h.status.sticky (by decide))
  · cases r <;> exact h.congr rfl rfl rfl rfl rfl rfl rfl h.status.sticky

/-- A host register access that goes through is the access of the register at its offset. -/
theorem hostRegAccess_next {offset width : Nat} {act : Reg → State → State} {s t : State}
    (h : hostRegAccess offset width act s = .next t) : t = act (regAt offset) s := by
  rw [hostRegAccess] at h
  split at h
  · cases h
  · split at h
    · cases h
    · cases h; rfl

theorem Inv.hostRegRead {s t : State} {offset width : Nat} (h : Inv s)
    (he : hostRegRead offset width s = .next t) : Inv t := by
  rw [hostRegAccess_next he]; exact h.readReg _

theorem Inv.hostRegWrite {s t : State} {offset width : Nat} {v : Word} (h : Inv s)
    (he : hostRegWrite offset width v s = .next t) : Inv t := by
  rw [hostRegAccess_next he]; exact h.writeReg _ _

theorem Inv.hostImageRead {s t : State} {a : Nat} (h : Inv s) (he : hostImageRead a s = .next t) : Inv t := by
  rw [Machine.hostImageRead] at he
  split at he
  · cases he
  · cases he; exact h.congr rfl rfl rfl rfl rfl rfl rfl h.status.sticky

/-- A host image write below IMG_CAPACITY keeps the image canonical, and marks a hazard below ACTLEN alone. -/
theorem Inv.hostImageWrite {s t : State} {a : Nat} {b : Byte} (h : Inv s)
    (he : hostImageWrite a b s = .next t) : Inv t := by
  rw [Machine.hostImageWrite] at he
  split at he
  · cases he
  · rename_i ha
    cases he
    refine ⟨⟨write_wf h.image.sorted a b, fun c hc => ?_, ?_, fun hopen x hx => ?_⟩, h.closed, h.cas, fun hk => ?_,
      fun ho => ?_, h.block, ⟨h.status.detail, h.status.sticky⟩⟩
    · obtain rfl | hc := mem_insertCell hc
      · exact Nat.lt_of_not_le ha
      · exact h.image.below c hc
    · show List.Pairwise _ (if _ then _ else _)
      split
      · exact insertAddr_sorted h.image.hazardSorted a
      · exact h.image.hazardSorted
    · have hopen : s.isOpen = true := hopen
      have hbelow := h.image.hazardBelow hopen x
      simp only at hx ⊢
      split at hx
      · rename_i hmark
        obtain hx | rfl := (mem_insertAddr _ _ _).mp hx
        · exact hbelow hx
        · have hmark : s.isOpen = true ∧ x < s.handle.act.imgLen.toNat := by simpa using hmark
          exact hmark.2
      · exact hbelow hx
    · obtain ⟨⟨depth, rate, samples⟩, posBit, sofBit, track, odd, even⟩ := h.wav hk
      exact ⟨⟨depth, rate, samples⟩, posBit, sofBit, track, odd, even⟩
    · obtain ⟨kind, parity, mode, imgLen⟩ := h.snapshot ho
      exact ⟨kind, parity, mode, imgLen⟩

/-- A host access through its address space that goes through is one of the two windows'. -/
theorem busAccess_next {addr width : Nat} {reg img : Nat → State → Host.Outcome State Fault Refusal} {s t : State}
    (h : busAccess addr width reg img s = .next t) : (∃ offset, reg offset s = .next t) ∨ ∃ a, img a s = .next t := by
  rw [busAccess] at h
  split at h
  · exact .inl ⟨_, h⟩
  · split at h
    · exact .inr ⟨_, h⟩
    · cases h
  · cases h

theorem Inv.busRead {s t : State} {addr width : Nat} (h : Inv s) (he : busRead addr width s = .next t) : Inv t := by
  obtain ⟨offset, he⟩ | ⟨a, he⟩ := busAccess_next he
  · exact h.hostRegRead he
  · exact h.hostImageRead he

theorem Inv.busWrite {s t : State} {addr width : Nat} {v : Word} (h : Inv s) (he : busWrite addr width v s = .next t) :
    Inv t := by
  obtain ⟨offset, he⟩ | ⟨a, he⟩ := busAccess_next he
  · exact h.hostRegWrite he
  · exact h.hostImageWrite he

theorem Inv.hostWait {s : State} (h : Inv s) : Inv (hostWait s) := by
  have hr := h.readReg .status
  rw [Machine.hostWait]
  split
  · exact hr.congr rfl rfl rfl rfl rfl rfl rfl hr.status.sticky
  · exact hr

theorem Inv.platformReset {s : State} (h : Inv s) : Inv (platformReset s) := by
  have hi : HandleInv (Machine.platformReset s) :=
    handleInv_of_closed h.image.sorted h.image.below .nil rfl rfl
  exact hi.inv ⟨rfl, show (0#32 &&& 0x7FFFF803#32 : Word) = 0#32 by decide⟩

theorem Inv.runWord {s t : State} {w : Word} (h : Inv s) (he : runWord w s = .next t) : Inv t := by
  rw [Machine.runWord] at he
  split at he
  · rename_i r _
    cases he
    have hend : EndsFrom s (fail .eIllegal r.detail s) := .failed s _ _ (.refl s) rfl (by cases r <;> rfl)
    exact (h.handleInv.fail _ _).inv (hend.statusInv h.status)
  · exact h.exec he

theorem Inv.blockTurn {s t : State} (h : Inv s) (he : blockTurn s = .next t) : Inv t := by
  rw [Machine.blockTurn] at he
  split at he
  · cases he; exact h
  · exact h.runWord he

/-- Every turn of the world keeps the invariant. -/
theorem Inv.turn {e : Event} {s t : State} (h : Inv s) (he : turn e s = .next t) : Inv t := by
  cases e with
  | regRead offset width => exact h.hostRegRead he
  | regWrite offset width v => exact h.hostRegWrite he
  | imgRead a => exact h.hostImageRead he
  | imgWrite a b => exact h.hostImageWrite he
  | busRead addr width => exact h.busRead he
  | busWrite addr width v => exact h.busWrite he
  | wait => cases he; exact h.hostWait
  | reset => cases he; exact h.platformReset
  | blockTurn => exact h.blockTurn he

end Sys2Proof.Machine

namespace Sys2Proof.Proofs
open Sys2Proof Sys2Proof.Machine Sys2Proof.Claims

/-- Settles O60: a step is a turn, and every turn keeps the invariant. -/
theorem everyStepKeepsTheInvariant : Obligations.EveryStepKeepsTheInvariant := by
  intro s t h hs
  rw [step, nextTurn] at hs
  split at hs
  · exact h.blockTurn hs
  · rename_i e rest _
    have ht : Inv { s with agenda := rest } := h.congr rfl rfl rfl rfl rfl rfl rfl h.status.sticky
    exact ht.turn hs

/-- Settles O59: a closed handle over an empty image, ERR OK and no sticky bit. -/
theorem resetMeetsTheInvariant : Obligations.ResetMeetsTheInvariant :=
  (handleInv_of_closed (d := 0) reset_mem_wf (by simp [State.reset]) .nil rfl rfl).inv ⟨rfl, rfl⟩

end Sys2Proof.Proofs
end

section
/-! PROOFS. What a command reads: two states that differ in the defaults, the arguments and the image bytes no bit read
sees run every command alike (10_state.md R23, R36, 20_memory.md R41). -/

namespace Sys2Proof.Machine
open Sys2Proof.Claims

/-! ## The engine as a function of the bit source -/

/-- The bit source answers alike in both states, which have the handle and the parameters in common. -/
structure SameSource (s s' : State) : Prop where
  next : ∀ t, nextBit s' t = nextBit s t
  handle : s'.handle = s.handle
  params : s'.params = s.params

section
variable {s s' : State} (h : SameSource s s')
include h

theorem bitsLeft_congr (t : Stream) : bitsLeft s' t = bitsLeft s t := by
  simp only [bitsLeft, samplesLeft, h.handle]

theorem takeBits_congr (n : Nat) (t : Stream) : takeBits s' n t = takeBits s n t := by
  induction n generalizing t with
  | zero => rfl
  | succ n ih => simp only [takeBits, h.next, ih]

theorem readByte_congr (t : Stream) : readByte s' t = readByte s t := by
  simp only [readByte, takeBits_congr h, h.handle]

theorem seekSyncLoop_congr (fuel : Nat) (window : List Bool) (count : Nat) (t : Stream) :
    seekSyncLoop s' fuel window count t = seekSyncLoop s fuel window count t := by
  induction fuel generalizing window count t with
  | zero => rfl
  | succ fuel ih =>
    have hp : syncPattern s' = syncPattern s := by simp only [syncPattern, h.handle, h.params]
    simp only [seekSyncLoop, h.next, ih, hp, h.handle]

theorem seekSync_congr (t : Stream) : seekSync s' t = seekSync s t := by
  simp only [seekSync, seekSyncLoop_congr h, bitsLeft_congr h]

theorem readPayload_congr (left i : Nat) (buf : Vector Byte 256) (t : Stream) :
    readPayload s' left i buf t = readPayload s left i buf t := by
  induction left generalizing i buf t with
  | zero => rfl
  | succ left ih => simp only [readPayload, readByte_congr h, ih]

theorem verifyBlock_congr (held : Held) (scan : Word) (t : Stream) :
    verifyBlock s' held scan t = verifyBlock s held scan t := by
  simp only [verifyBlock, confirmTrailer, readByte_congr h, h.params]

theorem blockAttempt_congr (t : Stream) : blockAttempt s' t = blockAttempt s t := by
  simp only [blockAttempt, seekSync_congr h, readFrame, readByte_congr h, readPayload_congr h, verifyBlock_congr h]

theorem nextDirLoop_congr (fuel : Nat) (t : Stream) : nextDirLoop s' fuel t = nextDirLoop s fuel t := by
  induction fuel generalizing t with
  | zero => simp only [nextDirLoop, blockAttempt_congr h]
  | succ fuel ih => simp only [nextDirLoop, blockAttempt_congr h, ih]

end

/-! ## Other defaults, arguments and image -/

/-- `s` with other default registers, other arguments and another image memory. -/
def State.replace (d : ConfigRegs) (a : Word) (b : BitVec 3) (m : Memory) (s : State) : State :=
  { s with defaults := d, arg := a, argBit := b, mem := m }

section
variable (d : ConfigRegs) (a : Word) (b : BitVec 3) (m : Memory) (s : State)

@[simp] theorem replace_handle : (s.replace d a b m).handle = s.handle := rfl
@[simp] theorem replace_stream : (s.replace d a b m).stream = s.stream := rfl
@[simp] theorem replace_params : (s.replace d a b m).params = s.params := rfl
@[simp] theorem replace_isOpen : (s.replace d a b m).isOpen = s.isOpen := rfl
@[simp] theorem replace_finish (c : Code) : finish c (s.replace d a b m) = (finish c s).replace d a b m := rfl
@[simp] theorem replace_fail (c : Code) (e : BitVec 4) : fail c e (s.replace d a b m) = (fail c e s).replace d a b m := rfl
@[simp] theorem replace_setResult (v : Word) : setResult v (s.replace d a b m) = (setResult v s).replace d a b m := rfl
@[simp] theorem replace_setEof (v : Bool) : setEof v (s.replace d a b m) = (setEof v s).replace d a b m := rfl
@[simp] theorem replace_setStream (t : Stream) : setStream t (s.replace d a b m) = (setStream t s).replace d a b m := rfl
@[simp] theorem replace_setDir (e : DirEntry) : setDir e (s.replace d a b m) = (setDir e s).replace d a b m := rfl
@[simp] theorem replace_setSof (p : Word) (q : BitVec 3) :
    setSof p q (s.replace d a b m) = (setSof p q s).replace d a b m := rfl
@[simp] theorem replace_setScanCount (v : Word) :
    setScanCount v (s.replace d a b m) = (setScanCount v s).replace d a b m := rfl
@[simp] theorem replace_applyAttempt (r : Attempt) :
    applyAttempt r (s.replace d a b m) = (applyAttempt r s).replace d a b m := rfl
@[simp] theorem replace_closeHandle : closeHandle (s.replace d a b m) = (closeHandle s).replace d a b m := rfl

end

section
variable {d : ConfigRegs} {a : Word} {b : BitVec 3} {m : Memory} {s : State}

theorem withHandle_replace {run : State → State} (h : run (s.replace d a b m) = (run s).replace d a b m) :
    withHandle (s.replace d a b m) run = (withHandle s run).replace d a b m := by
  simp only [withHandle, replace_isOpen, h, replace_fail]
  split <;> rfl

section
variable (h : SameSource s (s.replace d a b m))
include h

theorem getBits_replace (n : Nat) : getBits n (s.replace d a b m) = (getBits n s).replace d a b m := by
  simp only [getBits, takeBits_congr h, replace_stream]
  split <;> simp

theorem readByteCommand_replace : readByteCommand (s.replace d a b m) = (readByteCommand s).replace d a b m := by
  simp only [readByteCommand, readByte_congr h, replace_stream]
  split <;> simp

theorem seekSyncCommand_replace : seekSyncCommand (s.replace d a b m) = (seekSyncCommand s).replace d a b m := by
  simp only [seekSyncCommand, seekSync_congr h, replace_stream]
  split <;> simp

theorem nextBlockCommand_replace : nextBlockCommand (s.replace d a b m) = (nextBlockCommand s).replace d a b m := by
  simp only [nextBlockCommand, blockAttempt_congr h, replace_stream]
  split
  · simp
  · simp
  · simp <;> rfl

theorem nextDirCommand_replace : nextDirCommand (s.replace d a b m) = (nextDirCommand s).replace d a b m := by
  simp only [nextDirCommand, nextDirLoop_congr h, bitsLeft_congr h, replace_stream]
  split
  · simp
  · simp
  · split <;> simp

/-- Every command but OPEN runs alike over another image that the bit source does not tell apart, and every one but SEEK
with other arguments. -/
theorem exec_replace {i : Instr} {t : State} (ho : i ≠ .openHandle) (hs : i = .seek → a = s.arg ∧ b = s.argBit)
    (he : exec i s = .next t) : exec i (s.replace d a b m) = .next (t.replace d a b m) := by
  cases i with
  | openHandle => exact absurd rfl ho
  | nop => cases he; rfl
  | close =>
    cases he
    exact congrArg Host.Outcome.next (withHandle_replace (by simp))
  | seek =>
    cases he
    refine congrArg Host.Outcome.next (withHandle_replace ?_)
    obtain ⟨ha, hb⟩ := hs rfl
    have hst : seekStream (s.replace d a b m) = seekStream s := by
      simp only [seekStream, State.replace, ha, hb]
    simp [hst]
  | getbits n =>
    rw [exec, execGetbits] at he ⊢
    split at he
    · rename_i hn; cases he; rw [if_pos hn, withHandle_replace (getBits_replace h _)]
    · rename_i hn; cases he; rw [if_neg hn, replace_fail]
  | readbyte => cases he; exact congrArg _ (withHandle_replace (readByteCommand_replace h))
  | seeksync => cases he; exact congrArg _ (withHandle_replace (seekSyncCommand_replace h))
  | nextblock => cases he; exact congrArg _ (withHandle_replace (nextBlockCommand_replace h))
  | nextdir => cases he; exact congrArg _ (withHandle_replace (nextDirCommand_replace h))

end

theorem beginOpen_replace : beginOpen (s.replace d a b m) = (beginOpen s).replace d a b m := by
  rw [beginOpen, beginOpen, replace_isOpen]
  cases s.isOpen <;> rfl

section
variable (hm : ∀ x, x < s.handle.act.imgLen.toNat → m.read x = s.mem.read x)
include hm

/-- The classification reads four bytes, if ACTLEN has them (40_lifecycle.md R70). -/
theorem classify_replace : classify (s.replace d a b m) = classify s := by
  have hbytes : 4 ≤ s.handle.act.imgLen.toNat → m.readBytes 0 4 = s.mem.readBytes 0 4 := fun h4 =>
    readBytes_congr hm (by omega)
  have hsniff : (4 ≤ s.handle.act.imgLen.toNat ∧ m.readBytes 0 4 = riffMagic) ↔
      (4 ≤ s.handle.act.imgLen.toNat ∧ s.mem.readBytes 0 4 = riffMagic) :=
    and_congr_right fun h4 => by rw [hbytes h4]
  simp only [classify, replace_handle]
  exact if_congr Iff.rfl rfl (if_congr Iff.rfl rfl (if_congr hsniff rfl rfl))

theorem openKind_replace (k : Kind) : openKind k (s.replace d a b m) = (openKind k s).replace d a b m := by
  have hparse : riffParse m s.params.riffPad s.handle.act.imgLen.toNat =
      riffParse s.mem s.params.riffPad s.handle.act.imgLen.toNat := riffParse_congr hm _
  cases k with
  | none => rfl
  | cas => rfl
  | wav =>
    simp only [openKind, replace_handle, replace_params, show (s.replace d a b m).mem = m from rfl, hparse]
    split <;> rfl

end

/-- OPEN runs alike with other arguments, and over another image that agrees below IMGLEN. -/
theorem execOpen_replace {t : State} (hm : ∀ x, x < s.defaults.imgLen.toNat → m.read x = s.mem.read x)
    (he : exec .openHandle s = .next t) :
    exec .openHandle (s.replace s.defaults a b m) = .next (t.replace s.defaults a b m) := by
  cases he
  have hu := beginOpen_handleOnly s
  rw [exec, execOpen, beginOpen_replace, ← hu.defaults]
  rw [← hu.defaults, ← hu.mem] at hm
  generalize beginOpen s = u at hm ⊢
  have hsnap : snapshot (u.replace u.defaults a b m) = (snapshot u).replace u.defaults a b m := rfl
  have hcheck : openCheck (u.replace u.defaults a b m) = openCheck u := rfl
  rw [openImage, openImage, hcheck, hsnap]
  cases openCheck u with
  | some e => rfl
  | none =>
    simp only
    rw [classify_replace (s := snapshot u) hm, openKind_replace (s := snapshot u) hm]

/-! ## The bit source over another image -/

/-- A byte read is alike where the two images agree. -/
theorem readImage_replace (hu : m.unit = s.mem.unit) {x : Nat} (hx : m.read x = s.mem.read x) (n : Nat) :
    readImage (s.replace d a b m) n x = readImage s n x := by
  simp only [readImage, State.replace, hu, hx]

section
variable (hu : m.unit = s.mem.unit) (hm : ∀ x, x < s.handle.act.imgLen.toNat → m.read x = s.mem.read x)
include hu hm

theorem casNextBit_replace (t : Stream) : casNextBit (s.replace d a b m) t = casNextBit s t := by
  by_cases hend : s.handle.act.imgLen ≤ t.pos
  · rw [casNextBit, casNextBit, replace_handle, if_pos hend, if_pos hend]
  · rw [casNextBit, casNextBit, replace_handle, if_neg hend, if_neg hend,
      readImage_replace hu (hm _ (BitVec.not_le.mp hend))]

/-- A sample's bytes lie below ACTLEN (42_wav_demod.md R82). -/
theorem sample_replace (hw : WavHeaderInv s) {i : Nat} (hi : i < s.handle.wav.nsamples.toNat) (n : Nat) :
    sample (s.replace d a b m) n i = sample s n i := by
  have hin := hw.samplesInImage
  simp only [sample, replace_handle]
  by_cases h8 : s.handle.wav.bps = 8#16
  · simp only [sampleStride, if_pos h8] at hin ⊢
    rw [readImage_replace hu (hm _ (by omega))]
  · simp only [sampleStride, if_neg h8] at hin ⊢
    rw [readImage_replace hu (hm _ (by omega)), readImage_replace hu (hm _ (by omega))]

theorem nextCanonicalCrossing_replace (hw : WavHeaderInv s) (fuel : Nat) (t : Stream) :
    nextCanonicalCrossing (s.replace d a b m) fuel t = nextCanonicalCrossing s fuel t := by
  induction fuel generalizing t with
  | zero => rfl
  | succ fuel ih =>
    simp only [nextCanonicalCrossing, replace_handle, ih]
    split
    · rfl
    · rename_i hlt
      have hts : takeSample (s.replace d a b m) t = takeSample s t := by
        simp only [takeSample, sample_replace hu hm hw (not_atEnd hlt), replace_handle]
      rw [hts]

theorem measureCycle_replace (hw : WavHeaderInv s) (fuel : Nat) (t : Stream) :
    measureCycle (s.replace d a b m) fuel t = measureCycle s fuel t := by
  induction fuel generalizing t with
  | zero => rfl
  | succ fuel ih => simp only [measureCycle, nextCanonicalCrossing_replace hu hm hw, samplesLeft, replace_handle, ih]

theorem wavBitLoop_replace (hw : WavHeaderInv s) (fuel : Nat) (t : Stream) :
    wavBitLoop (s.replace d a b m) fuel t = wavBitLoop s fuel t := by
  induction fuel generalizing t with
  | zero => rfl
  | succ fuel ih =>
    simp only [wavBitLoop, measureCycle_replace hu hm hw, samplesLeft, isShort, replace_handle, ih] <;> rfl

/-- The bit source does not tell apart two images that agree below ACTLEN. -/
theorem sameSource_of_agree (hw : s.handle.kind = .wav → WavHeaderInv s) : SameSource s (s.replace d a b m) where
  next t := by
    simp only [nextBit, replace_handle]
    cases hk : s.handle.kind with
    | none => rfl
    | cas => exact casNextBit_replace hu hm t
    | wav => exact wavBitLoop_replace hu hm (hw hk) _ t
  handle := rfl
  params := rfl

end

/-- Nor does it read the defaults or the arguments. -/
theorem sameSource_registers (s : State) (d : ConfigRegs) (a : Word) (b : BitVec 3) :
    SameSource s (s.replace d a b s.mem) :=
  ⟨fun t => (nextBit_source _ t).trans (nextBit_source s t).symm, rfl, rfl⟩

end

end Sys2Proof.Machine

namespace Sys2Proof.Proofs
open Sys2Proof Sys2Proof.Machine Sys2Proof.Claims

/-- Settles O56: the defaults and the arguments are no part of what the bit source and OPEN or SEEK read. -/
theorem onlyOpenReadsDefaultsOnlySeekReadsArguments : Obligations.OnlyOpenReadsDefaultsOnlySeekReadsArguments := by
  intro i s t h
  have ht := (exec_ends h).frame
  have hdef : t.defaults = s.defaults := by rw [ht]
  have harg : t.arg = s.arg := by rw [ht]
  have hbit : t.argBit = s.argBit := by rw [ht]
  have hmem : t.mem = s.mem := by rw [ht]
  refine ⟨fun d ho => ?_, fun a b hs => ?_⟩
  · show exec i (s.replace d s.arg s.argBit s.mem) = .next (t.replace d t.arg t.argBit t.mem)
    rw [harg, hbit, hmem]
    exact exec_replace (sameSource_registers s d _ _) ho (fun _ => ⟨rfl, rfl⟩) h
  · show exec i (s.replace s.defaults a b s.mem) = .next (t.replace t.defaults a b t.mem)
    rw [hdef, hmem]
    by_cases ho : i = .openHandle
    · subst ho
      exact execOpen_replace (fun _ _ => rfl) h
    · exact exec_replace (sameSource_registers s _ a b) ho (fun hi => absurd hi hs) h

/-- Settles O57: OPEN reads below IMGLEN, the bit source below ACTLEN. -/
theorem bytesAboveTheLengthAreNeverRead : Obligations.BytesAboveTheLengthAreNeverRead := by
  intro i s t cells hinv m hread hopen h
  have ht := (exec_ends h).frame
  have hdef : t.defaults = s.defaults := by rw [ht]
  have harg : t.arg = s.arg := by rw [ht]
  have hbit : t.argBit = s.argBit := by rw [ht]
  show exec i (s.replace s.defaults s.arg s.argBit m) = .next (t.replace t.defaults t.arg t.argBit m)
  rw [hdef, harg, hbit]
  by_cases ho : i = .openHandle
  · subst ho
    exact execOpen_replace (hopen rfl) h
  · have hunit : m.unit = s.mem.unit := rfl
    exact exec_replace (sameSource_of_agree hunit (hread ho) fun hk => (hinv.wav hk).header) ho (fun _ => ⟨rfl, rfl⟩) h

end Sys2Proof.Proofs
end

section
/-! PROOFS. The host's register and image accesses: what they write and what they return (10_state.md R15, R24). -/

namespace Sys2Proof.Machine
open Sys2Proof.Claims

/-! ## The host's step -/

theorem step_cons {s : State} {e : Event} {rest : List Event} (h : s.agenda = e :: rest) :
    step s = turn e { s with agenda := rest } := by
  rw [step, nextTurn, h]

/-- An aligned word access inside the register space reaches the register at its offset. -/
theorem hostRegAccess_word {off : Nat} (ha : off % 4 = 0) (hb : off < 0x200) (act : Reg → State → State) (s : State) :
    hostRegAccess off 4 act s = .next (act (regAt off) s) := by
  rw [hostRegAccess, if_neg (by omega), if_neg (by omega)]

theorem step_regWrite {s : State} {off : Nat} {v : Word} {rest : List Event} (h : s.agenda = .regWrite off 4 v :: rest)
    (ha : off % 4 = 0) (hb : off < 0x200) : step s = .next (writeReg (regAt off) v { s with agenda := rest }) := by
  rw [step_cons h]
  exact hostRegAccess_word ha hb (fun r s => writeReg r v s) _

theorem step_regRead {s : State} {off : Nat} {rest : List Event} (h : s.agenda = .regRead off 4 :: rest)
    (ha : off % 4 = 0) (hb : off < 0x200) : step s = .next (readReg (regAt off) { s with agenda := rest }) := by
  rw [step_cons h]
  exact hostRegAccess_word ha hb _ _

/-! ## Reads -/

theorem readReg_idle {s : State} (h : s.busy = false) (r : Reg) : readReg r s = { s with busData := regValue r s } := by
  rw [readReg, h]; rfl

theorem readReg_busy {s : State} (h : s.busy = true) (r : Reg) :
    readReg r s = { s with busData := busyValue r s, hostDraws := s.hostDraws + 1 } := by
  rw [readReg, h]; rfl

/-- A register's value does not depend on the agenda. -/
theorem regValue_agenda (r : Reg) (s : State) (rest : List Event) : regValue r { s with agenda := rest } = regValue r s := by
  cases r <;> rfl

/-- STATUS read while busy shows BUSY. -/
theorem busyValue_status (s : State) : (busyValue .status s).getLsbD 0 = true := by simp [busyValue]

/-! ## Writes -/

theorem writeReg_idle {s : State} (h : s.busy = false) (r : Reg) (v : Word) : writeReg r v s = storeReg r v s := by
  rw [writeReg, h]; rfl

theorem storeReg_of_not_writable {r : Reg} (h : r.writable = false) (v : Word) (s : State) : storeReg r v s = s := by
  cases r with
  | cfg | thresh | freqlim | start | scanmax | imglen | cmd | arg | argbit => cases h
  | _ => rfl

theorem writeReg_of_not_writable {r : Reg} (h : r.writable = false) (v : Word) (s : State) : writeReg r v s = s := by
  rw [writeReg, h, Bool.and_false, if_neg Bool.false_ne_true, storeReg_of_not_writable h]

/-- The low k bits of a word, as a truncation and as a mask. -/
theorem setWidth_setWidth_eq_and (v : Word) {k : Nat} (hk : k ≤ 32) :
    (v.setWidth k).setWidth 32 = v &&& BitVec.ofNat 32 (2 ^ k - 1) := by
  have hlt : 2 ^ k ≤ 2 ^ 32 := Nat.pow_le_pow_right (by omega) hk
  apply BitVec.eq_of_toNat_eq
  rw [BitVec.toNat_and, BitVec.toNat_ofNat, Nat.mod_eq_of_lt (by omega), Nat.and_two_pow_sub_one_eq_mod]
  simp only [BitVec.toNat_setWidth]
  have := Nat.mod_lt v.toNat (Nat.two_pow_pos k)
  omega

theorem and_allOnes_word (v : Word) : v &&& 0xFFFFFFFF#32 = v := BitVec.and_allOnes

/-- A write while idle is read back in the register's own bits (10_state.md R15). -/
theorem regValue_storeReg_same {r : Reg} (hw : r.writable = true) (hc : r ≠ .cmd) (v : Word) (s : State) :
    regValue r (storeReg r v s) = v &&& storedBits r := by
  cases r with
  | cfg => exact setWidth_setWidth_eq_and v (by omega)
  | thresh => exact setWidth_setWidth_eq_and v (by omega)
  | argbit => exact setWidth_setWidth_eq_and v (by omega)
  | cmd => exact absurd rfl hc
  | freqlim | start | scanmax | imglen | arg => exact (and_allOnes_word v).symm
  | _ => cases hw

/-- No other register reads otherwise after it. -/
theorem regValue_storeReg_other {r r' : Reg} (hc : r ≠ .cmd) (hr : r' ≠ r) (v : Word) (s : State) :
    regValue r' (storeReg r v s) = regValue r' s := by
  cases hw : r.writable with
  | false => rw [storeReg_of_not_writable hw]
  | true =>
    cases r with
    | cmd => exact absurd rfl hc
    | cfg => cases r' with | cfg => exact absurd rfl hr | _ => rfl
    | thresh => cases r' with | thresh => exact absurd rfl hr | _ => rfl
    | freqlim => cases r' with | freqlim => exact absurd rfl hr | _ => rfl
    | start => cases r' with | start => exact absurd rfl hr | _ => rfl
    | scanmax => cases r' with | scanmax => exact absurd rfl hr | _ => rfl
    | imglen => cases r' with | imglen => exact absurd rfl hr | _ => rfl
    | arg => cases r' with | arg => exact absurd rfl hr | _ => rfl
    | argbit => cases r' with | argbit => exact absurd rfl hr | _ => rfl
    | _ => cases hw

/-- A write while idle changes nothing but the default and argument registers. -/
theorem storeReg_frame {r : Reg} (hc : r ≠ .cmd) (v : Word) (s : State) : storeReg r v s = { s with
    defaults := (storeReg r v s).defaults, arg := (storeReg r v s).arg, argBit := (storeReg r v s).argBit } := by
  cases r with
  | cmd => exact absurd rfl hc
  | _ => rfl

end Sys2Proof.Machine

namespace Sys2Proof.Proofs
open Sys2Proof Sys2Proof.Machine Sys2Proof.Claims

/-- Settles O10, register by register. -/
theorem idleWriteStoresOneRegister : Obligations.IdleWriteStoresOneRegister := by
  intro v s
  refine ⟨fun r hidle hc => ?_, fun r hw => writeReg_of_not_writable hw v s, fun off rest h ha hb => step_regWrite h ha hb⟩
  rw [writeReg_idle hidle]
  refine ⟨?_, fun r' hr => regValue_storeReg_other hc hr v s, storeReg_frame hc v s⟩
  cases hw : r.writable with
  | true => exact regValue_storeReg_same hw hc v s
  | false => rw [storeReg_of_not_writable hw]; rfl

/-- Settles O12: idle and busy reads of a register, and reads of the image. -/
theorem hostReadsHaveNoSideEffect : Obligations.HostReadsHaveNoSideEffect := by
  refine ⟨fun s off rest h ha hb => ⟨_, step_regRead h ha hb, ?_⟩, fun s a rest h => ?_⟩
  · cases hbusy : s.busy with
    | false =>
      rw [readReg_idle (s := { s with agenda := rest }) hbusy, regValue_agenda]
      exact ⟨rfl, fun _ => ⟨rfl, rfl⟩, fun h => (by cases h)⟩
    | true =>
      rw [readReg_busy (s := { s with agenda := rest }) hbusy]
      refine ⟨rfl, fun h => (by cases h), fun _ => ⟨rfl, ?_, ?_⟩⟩
      · rintro rfl; rfl
      · rintro rfl; exact busyValue_status _
  · rw [step_cons h]
    refine ⟨fun hlt => ?_, fun hle => ?_⟩
    · exact if_neg (Nat.not_le.mpr hlt)
    · exact if_pos hle

/-- Settles O17, register by register; BUF holds zeros. -/
theorem resetRegisterValues : Obligations.ResetRegisterValues := by
  intro r
  cases r with
  | buf k => simp [regValue, bufWord, packWord, State.reset, Handle.closed, Held.empty]
  | _ => rfl

end Sys2Proof.Proofs
end

section
/-! PROOFS. The register map (10_state.md R14 to R38): the offsets, and the fields of each word. -/

namespace Sys2Proof.Machine
open Sys2Proof.Claims

/-! ## The map: offsets -/

/-- The rows of the map with one register each. -/
theorem registerTable_faithful : ∀ e ∈ registerTable, regAt e.1 = e.2.1 ∧ e.2.1.offset = e.1 ∧ e.2.1.writable = e.2.2 := by
  decide

/-- Every aligned offset below 0x09C is a row's. -/
theorem exists_row {j : Nat} (hj : j < 39) : ∃ e ∈ registerTable, e.1 = 4 * j := by
  revert j; decide

theorem regAt_buf (k : Fin 64) : regAt (0x100 + 4 * k.val) = .buf k := by
  revert k; decide

/-- No register stands at the offsets 0x09C to 0x0FC. -/
theorem regAt_reserved {j : Nat} (h0 : 39 ≤ j) (h1 : j < 64) : regAt (4 * j) = .reserved := by
  revert j; decide

theorem regAt_offset (r : Reg) : regAt r.offset = r := by
  cases r with
  | buf k => exact regAt_buf k
  | _ => rfl

theorem offset_aligned (r : Reg) : r.offset % 4 = 0 ∧ r.offset < 0x200 := by
  cases r with
  | buf k => have := k.isLt; simp only [Reg.offset]; omega
  | _ => exact ⟨rfl, by decide⟩

/-- Every aligned offset that is not reserved is its register's. -/
theorem offset_regAt {off : Nat} (ha : off % 4 = 0) (hb : off < 0x200) (hr : regAt off ≠ .reserved) :
    (regAt off).offset = off := by
  obtain ⟨j, rfl⟩ : ∃ j, off = 4 * j := ⟨off / 4, by omega⟩
  by_cases h1 : j < 39
  · obtain ⟨e, he, hj⟩ := exists_row h1
    obtain ⟨hreg, hoff, -⟩ := registerTable_faithful e he
    rw [← hj, hreg, hoff]
  · by_cases h2 : j < 64
    · exact absurd (regAt_reserved (by omega) h2) hr
    · have hk := regAt_buf ⟨j - 64, by omega⟩
      rw [show 0x100 + 4 * (j - 64) = 4 * j by omega] at hk
      rw [hk]
      simp only [Reg.offset]; omega

/-! ## The map: fields -/

/-- A concatenation as a sum of its two fields. -/
theorem toNat_append_eq_add {m n : Nat} (x : BitVec m) (y : BitVec n) : (x ++ y).toNat = x.toNat * 2 ^ n + y.toNat := by
  rw [BitVec.toNat_append, ← Nat.shiftLeft_add_eq_or_of_lt y.isLt, Nat.shiftLeft_eq]

/-- A narrow register reads as its number. -/
theorem toNat_setWidth_word {w : Nat} (h : w ≤ 32) (x : BitVec w) : (x.setWidth 32).toNat = x.toNat := by
  rw [BitVec.toNat_setWidth]
  exact Nat.mod_eq_of_lt (lt_of_lt_of_le x.isLt (Nat.pow_le_pow_right (by omega) h))

theorem mem_codeTable (c : Code) : (c, c.number) ∈ codeTable := by cases c <;> decide

theorem Code.number_lt (c : Code) : c.number < 256 := by cases c <;> decide

theorem Kind.toNat_bits (k : Kind) : k.bits.toNat = kindNumber k := by cases k <;> rfl

theorem Level.toNat_bits (l : Level) : l.bits.toNat = levelNumber l := by cases l <;> rfl

/-- DIRRES and DIR, the two bits of a direction. -/
theorem toNat_dir_bits (d : Option Edge) :
    2 * (d == some .falling).toNat + d.isSome.toNat = dirNumber d := by
  rcases d with - | e
  · rfl
  · cases e <;> rfl

/-- CFG is its four fields (10_state.md R17). -/
theorem toNat_cfg (c : ConfigRegs) : c.cfg.toNat = cfgNumber c := by
  have hlt := c.cfg.isLt
  simp only [cfgNumber, cfgKind, cfgParity, cfgBitord, cfgMode, BitVec.extractLsb'_toNat, BitVec.getLsbD,
    Nat.toNat_testBit, Nat.shiftRight_eq_div_pow]
  omega

theorem toNat_statusWord (s : State) : (statusWord s).toNat =
    s.busy.toNat + 2 * s.isOpen.toNat + 4 * s.handle.eof.toNat + 8 * kindNumber s.handle.kind +
      32 * s.handle.held.valid.toNat + 64 * s.handle.dir.valid.toNat + 256 * s.err.number + 65536 * s.detail.toNat := by
  have hc := s.err.number_lt
  simp only [statusWord, toNat_append_eq_add, BitVec.toNat_ofBool, BitVec.toNat_ofNat, Kind.toNat_bits]
  omega

theorem toNat_wavstateWord (t : Tracking) : (wavstateWord t).toNat =
    levelNumber t.level + 4 * dirNumber t.dir + 16 * t.pend.toNat + 32 * t.cross0.isSome.toNat +
      64 * t.cross1.isSome.toNat := by
  rw [← toNat_dir_bits]
  simp only [wavstateWord, toNat_append_eq_add, BitVec.toNat_ofBool, BitVec.toNat_ofNat, Level.toNat_bits]
  omega

theorem toNat_blkinfoWord (h : Held) : (blkinfoWord h).toNat =
    h.blkType.toNat + 256 * h.blkLen.toNat + 65536 * h.csumRx.toNat + 16777216 * h.csumCalc.toNat := by
  simp only [blkinfoWord, toNat_append_eq_add]
  omega

theorem toNat_packWord (b0 b1 b2 b3 : Byte) : (packWord b0 b1 b2 b3).toNat =
    b0.toNat + 256 * b1.toNat + 65536 * b2.toNat + 16777216 * b3.toNat := by
  simp only [packWord, toNat_append_eq_add]
  omega

/-- Byte j of a BUF word is payload byte 4k + j (10_state.md R34). -/
theorem bufWord_byte (buf : Vector Byte 256) (k : Fin 64) {j : Nat} (hj : j < 4) :
    (bufWord buf k).toNat / 256 ^ j % 256 = buf[4 * k.val + j].toNat := by
  have h0 := buf[4 * k.val].isLt
  have h1 := buf[4 * k.val + 1].isLt
  have h2 := buf[4 * k.val + 2].isLt
  have h3 := buf[4 * k.val + 3].isLt
  rw [bufWord, toNat_packWord]
  obtain rfl | rfl | rfl | rfl : j = 0 ∨ j = 1 ∨ j = 2 ∨ j = 3 := by omega
  · simp only [Nat.add_zero]; omega
  all_goals omega

theorem toNat_dirinfo (s : State) : (regValue .dirinfo s).toNat =
    s.handle.dir.ftype.toNat + 256 * s.handle.dir.ascii.toNat + 65536 * s.handle.dir.gap.toNat := by
  simp only [regValue, toNat_append_eq_add, BitVec.toNat_ofNat]
  omega

theorem toNat_diraddr (s : State) :
    (regValue .diraddr s).toNat = s.handle.dir.load.toNat + 65536 * s.handle.dir.exec.toNat := by
  simp only [regValue, toNat_append_eq_add]
  omega

/-- The registers that are one number read as it. -/
theorem numberRegisters_faithful (s : State) : ∀ e ∈ numberRegisters s, (regValue e.1 s).toNat = e.2 := by
  have h16 : 16 ≤ 32 := by omega
  have h3 : 3 ≤ 32 := by omega
  simp only [numberRegisters, List.forall_mem_append, List.forall_mem_cons, regValue, toNat_setWidth_word h16,
    toNat_setWidth_word h3]
  simp

end Sys2Proof.Machine

namespace Sys2Proof.Proofs
open Sys2Proof Sys2Proof.Machine Sys2Proof.Claims

/-- Settles O11: the map's offsets, and each word's fields. -/
theorem registerMapIsFaithful : Obligations.RegisterMapIsFaithful := by
  refine ⟨registerTable_faithful, fun k => ⟨regAt_buf k, rfl, rfl⟩, fun off h0 h1 ha => ?_,
    fun r => ⟨regAt_offset r, offset_aligned r⟩, fun off => offset_regAt, fun s => ?_⟩
  · obtain ⟨j, rfl⟩ : ∃ j, off = 4 * j := ⟨off / 4, by omega⟩
    exact regAt_reserved (by omega) (by omega)
  · exact ⟨(toNat_setWidth_word (by omega) _).trans (toNat_cfg _), (toNat_setWidth_word (by omega) _).trans (toNat_cfg _),
      ⟨s.err.number, mem_codeTable _, toNat_statusWord s⟩, toNat_wavstateWord _, toNat_blkinfoWord _,
      fun k j hj => bufWord_byte _ k hj, toNat_dirinfo s, toNat_diraddr s, rfl, rfl, numberRegisters_faithful s⟩

end Sys2Proof.Proofs
end

section
/-! PROOFS. The host's image accesses, the two windows of its address space, and what no command and no other block of a platform
changes (20_memory.md R41 to R52). -/

namespace Sys2Proof.Machine
open Sys2Proof.Claims

/-! ## The frame of a command -/

theorem withHandle_hazard {s : State} {run : State → State} (h : (run s).hazard = s.hazard) :
    (withHandle s run).hazard = s.hazard := by
  rw [withHandle]
  split
  · exact h
  · exact fail_hazard ..

/-- Only OPEN changes the set of hazard bytes (70_reset_and_hazards.md R136). -/
theorem exec_hazard {i : Instr} {s t : State} (ho : i ≠ .openHandle) (h : exec i s = .next t) : t.hazard = s.hazard := by
  by_cases hc : i = .close
  · subst hc; cases h; exact withHandle_hazard (by simp)
  by_cases hs : i = .seek
  · subst hs; cases h; exact withHandle_hazard (by simp)
  exact (exec_readsOnly ho hc hs h).hazard

/-! ## The host's accesses to the register space and to the image -/

/-- Any access that is not an aligned 32-bit word is refused (20_memory.md R45). -/
theorem hostRegAccess_not_word {off width : Nat} (h : width ≠ 4 ∨ off % 4 ≠ 0) (act : Reg → State → State) (s : State) :
    hostRegAccess off width act s = .refused .registerAccess := by
  rw [hostRegAccess, if_pos h]

theorem hostImageWrite_below {s : State} {a : Nat} (h : a < s.params.imgCapacity.toNat) (b : Byte) :
    hostImageWrite a b s = .next { s with
      mem := s.mem.write a b
      hazard := if s.isOpen && decide (a < s.handle.act.imgLen.toNat) then insertAddr s.hazard a else s.hazard } := by
  rw [hostImageWrite, if_neg (Nat.not_le.mpr h)]

theorem hostImageWrite_above {s : State} {a : Nat} (h : s.params.imgCapacity.toNat ≤ a) (b : Byte) :
    hostImageWrite a b s = .fault .imageAddress := by
  rw [hostImageWrite, if_pos h]

/-- An address marked on a condition is a hazard exactly where one was, or at itself when the condition holds. -/
theorem mem_ite_insertAddr (p : Bool) (l : List Nat) (a x : Nat) :
    x ∈ (if p then insertAddr l a else l) ↔ x ∈ l ∨ (x = a ∧ p = true) := by
  cases p with
  | false => simp
  | true => simp [mem_insertAddr]

/-! ## The two windows -/

section
variable {p : Config.Params} (h : WindowsApart p)
include h

theorem busTarget_register {off : Nat} (ho : off < 0x200) : busTarget p (p.regBase + off) = some (.register off) := by
  have hin : p.regBase ≤ p.regBase + off ∧ p.regBase + off < p.regBase + 0x200 := by omega
  have hout : ¬ (p.imgBase ≤ p.regBase + off ∧ p.regBase + off < p.imgBase + p.imgCapacity.toNat) := by
    rw [WindowsApart] at h; omega
  simp [busTarget, hin, hout]

theorem busTarget_image {a : Nat} (ha : a < p.imgCapacity.toNat) : busTarget p (p.imgBase + a) = some (.image a) := by
  have hout : ¬ (p.regBase ≤ p.imgBase + a ∧ p.imgBase + a < p.regBase + 0x200) := by
    rw [WindowsApart] at h; omega
  have hin : p.imgBase ≤ p.imgBase + a ∧ p.imgBase + a < p.imgBase + p.imgCapacity.toNat := by omega
  simp [busTarget, hin, hout]

end

theorem busTarget_outside {p : Config.Params} {addr : Nat} (hr : addr < p.regBase ∨ p.regBase + 0x200 ≤ addr)
    (hi : addr < p.imgBase ∨ p.imgBase + p.imgCapacity.toNat ≤ addr) : busTarget p addr = none := by
  have hreg : ¬ (p.regBase ≤ addr ∧ addr < p.regBase + 0x200) := by omega
  have himg : ¬ (p.imgBase ≤ addr ∧ addr < p.imgBase + p.imgCapacity.toNat) := by omega
  simp [busTarget, hreg, himg]

section
variable {addr width : Nat} {s : State} (reg img : Nat → State → Host.Outcome State Fault Refusal)

theorem busAccess_register {off : Nat} (h : busTarget s.params addr = some (.register off)) :
    busAccess addr width reg img s = reg off s := by
  rw [busAccess, h]

theorem busAccess_image {a : Nat} (h : busTarget s.params addr = some (.image a)) :
    busAccess addr width reg img s = if width = 1 then img a s else .refused .imageAccess := by
  rw [busAccess, h]

theorem busAccess_outside (h : busTarget s.params addr = none) :
    busAccess addr width reg img s = .refused .busAddress := by
  rw [busAccess, h]

end

/-! ## The platform -/

/-- A step of the platform is unit k's own step, put back in its place. -/
theorem platform_step_next {p q : Platform} {k : Nat} (h : p.step k = .next q) :
    ∃ s s', p.units[k]? = some s ∧ step s = .next s' ∧ q = ⟨p.units.set k s'⟩ := by
  rw [Platform.step] at h
  split at h
  · cases h
  · rename_i s hs
    split at h
    · rename_i s' hstep
      cases h
      exact ⟨s, s', hs, hstep, rfl⟩
    · cases h
    · cases h

end Sys2Proof.Machine

namespace Sys2Proof.Proofs
open Sys2Proof Sys2Proof.Machine Sys2Proof.Claims

/-- Settles O50: every command reports and before that changes the handle, the stream and the hazards alone; the hazards
only by OPEN. -/
theorem commandsLeaveImageAndDefaultsAlone : Obligations.CommandsLeaveImageAndDefaultsAlone := by
  intro i s t h
  have hhazard : i ≠ .openHandle → t.hazard = s.hazard := fun ho => exec_hazard ho h
  rw [(exec_ends h).frame]
  exact ⟨rfl, fun _ => rfl, rfl, rfl, rfl, rfl, rfl, rfl, rfl, hhazard⟩

/-- Settles O13: reads and writes pass one check of the width and the offset. -/
theorem nonWordAccessIsRefused : Obligations.NonWordAccessIsRefused := by
  intro s off width v rest hbad
  refine ⟨fun h => ?_, fun h => ?_⟩
  · rw [step_cons h]; exact hostRegAccess_not_word hbad readReg _
  · rw [step_cons h]; exact hostRegAccess_not_word hbad (fun r s => writeReg r v s) _

/-- Settles O14: the laws of the image memory and of the set of hazards at the state a write leaves. -/
theorem imageWriteReadsBack : Obligations.ImageWriteReadsBack := by
  intro s a b rest h
  refine ⟨fun ha => ⟨_, (step_cons h).trans (hostImageWrite_below (s := { s with agenda := rest }) ha b), rfl,
    read_write_same s.mem a b, fun x => read_write_other s.mem a b, fun x => ?_⟩,
    fun ha => (step_cons h).trans (hostImageWrite_above (s := { s with agenda := rest }) ha b)⟩
  rw [mem_ite_insertAddr, Bool.and_eq_true, decide_eq_true_eq]
  rfl

/-- Settles O15: with the windows apart an address lies in one window or in none, and the access is that window's. -/
theorem hostAddressesReachTheWindows : Obligations.HostAddressesReachTheWindows := by
  intro s addr width v rest hw
  refine ⟨fun off hoff haddr => ?_, fun a ha haddr => ?_, fun hreg himg => ?_⟩
  · subst haddr
    have htarget := busTarget_register hw hoff
    exact ⟨fun h => (step_cons h).trans (busAccess_register _ _ htarget),
      fun h => (step_cons h).trans (busAccess_register _ _ htarget)⟩
  · subst haddr
    have htarget := busTarget_image hw ha
    exact ⟨fun h => (step_cons h).trans (busAccess_image _ _ htarget),
      fun h => (step_cons h).trans (busAccess_image _ _ htarget)⟩
  · have htarget := busTarget_outside hreg himg
    exact ⟨fun h => (step_cons h).trans (busAccess_outside _ _ htarget),
      fun h => (step_cons h).trans (busAccess_outside _ _ htarget)⟩

/-- Settles O58: the stepped unit alone is replaced, by its own step. -/
theorem instancesAreIndependent : Obligations.InstancesAreIndependent := by
  intro p q k h
  obtain ⟨s, s', hs, hstep, rfl⟩ := platform_step_next h
  refine ⟨fun j hj => List.getElem?_set_ne hj.symm, fun u hu => ?_⟩
  obtain rfl : s = u := Option.some.inj (hs.symm.trans hu)
  obtain ⟨hk, -⟩ := List.getElem?_eq_some_iff.mp hs
  exact ⟨s', hstep, List.getElem?_set_self hk⟩

end Sys2Proof.Proofs
end

section
/-! PROOFS. The command word (30_encoding.md R55 to R58): its fields by arithmetic, the decoder as one chain of checks on them, and the
encoder as its inverse. -/

namespace Sys2Proof
open Sys2Proof.Machine Sys2Proof.Claims

/-! ## The fields by arithmetic -/

theorem toNat_opField (w : Word) : (opField w).toNat = opNat w := by
  rw [opField, BitVec.extractLsb'_toNat, Nat.shiftRight_zero, opNat]

theorem toNat_nField (w : Word) : (nField w).toNat = nNat w := by
  rw [nField, BitVec.extractLsb'_toNat, Nat.shiftRight_eq_div_pow, nNat]

theorem toNat_reservedField (w : Word) : (reservedField w).toNat = reservedNat w := by
  rw [reservedField, BitVec.extractLsb'_toNat, Nat.shiftRight_eq_div_pow, reservedNat]
  have := w.isLt
  omega

/-- The word is the sum of its fields. -/
theorem toNat_eq_fields (w : Word) : w.toNat = 4096 * reservedNat w + 256 * nNat w + opNat w := by
  simp only [reservedNat, nNat, opNat]
  omega

theorem nNat_lt (w : Word) : nNat w < 16 := Nat.mod_lt _ (by decide)

/-! ## The rows of the table -/

theorem opcodeRow_of_le {op : BitVec 8} (h : op.toNat ≤ 8) (n : BitVec 4) :
    opcodeRow op n = some (rowOf op.toNat n.toNat) := by
  have hcount : BitVec.ofNat 4 n.toNat = n := by simp
  rw [opcodeRow]
  generalize op.toNat = k at h
  interval_cases k <;> simp only [rowOf, hcount]

theorem opcodeRow_of_lt {op : BitVec 8} (h : 8 < op.toNat) (n : BitVec 4) : opcodeRow op n = none := by
  obtain ⟨k, hk⟩ : ∃ k, op.toNat = k + 9 := ⟨op.toNat - 9, by omega⟩
  rw [opcodeRow, hk]
  rfl

/-- The one ill-formed row is GETBITS with a bad count (30_encoding.md R56). -/
theorem wellFormed_rowOf (op : Nat) {n : Nat} (hn : n < 16) :
    (rowOf op n).wellFormed = true ↔ ¬ (op = 3 ∧ (n = 0 ∨ 8 < n)) := by
  by_cases h3 : op = 3
  · have hcount : (BitVec.ofNat 4 n).toNat = n := Nat.mod_eq_of_lt hn
    rw [h3, rowOf, Instr.wellFormed, countLegal_iff, hcount]
    omega
  · have hwf : (rowOf op n).wellFormed = true := by
      unfold rowOf
      split
      case h_4 => exact absurd rfl h3
      all_goals rfl
    simp [hwf, h3]

/-- The row of a command's OP and N is the command. -/
theorem rowOf_opcodeOf (i : Instr) : rowOf (opcodeOf i).toNat (countOf i).toNat = i := by
  cases i with
  | getbits n => simp [rowOf, opcodeOf, countOf]
  | nop | openHandle | close | seek | readbyte | seeksync | nextblock | nextdir => rfl

/-- No command has a reserved opcode, and none but GETBITS a count. -/
theorem opcodeOf_le_countOf (i : Instr) : (opcodeOf i).toNat ≤ 8 ∧ ((opcodeOf i).toNat = 3 ∨ (countOf i).toNat = 0) := by
  cases i with
  | getbits n => exact ⟨by simp [opcodeOf], .inl rfl⟩
  | nop | openHandle | close | seek | readbyte | seeksync | nextblock | nextdir => decide

/-- A row of the table has the OP it stands under, and the N of the word where a count may stand. -/
theorem opcodeOf_countOf_rowOf {op n : Nat} (ho : op ≤ 8) (hn : n < 16) (h : op = 3 ∨ n = 0) :
    (opcodeOf (rowOf op n)).toNat = op ∧ (countOf (rowOf op n)).toNat = n := by
  obtain rfl | rfl := h
  · exact ⟨rfl, Nat.mod_eq_of_lt hn⟩
  · interval_cases op <;> exact ⟨rfl, rfl⟩

/-! ## The decoder and the encoder -/

/-- The decoder as the chain of checks of 60_exceptions.md R116, by arithmetic on the word. -/
theorem decode_eq (w : Word) : decode w =
    if 8 < opNat w then .error .reservedOpcode
    else if reservedNat w ≠ 0 ∨ (opNat w ≠ 3 ∧ nNat w ≠ 0) then .error .reservedBits
    else if opNat w = 3 ∧ (nNat w = 0 ∨ 8 < nNat w) then .error .badCount
    else .ok (rowOf (opNat w) (nNat w)) := by
  rw [decode]
  by_cases h8 : 8 < opNat w
  · rw [opcodeRow_of_lt (by rwa [toNat_opField]), if_pos h8]
  · have hbits : (reservedField w ≠ 0#20 ∨ (opField w ≠ 0x03#8 ∧ nField w ≠ 0#4)) ↔
        (reservedNat w ≠ 0 ∨ (opNat w ≠ 3 ∧ nNat w ≠ 0)) := by
      simp [← BitVec.toNat_inj, toNat_reservedField, toNat_opField, toNat_nField]
    rw [opcodeRow_of_le (by rw [toNat_opField]; omega), toNat_opField, toNat_nField, if_neg h8]
    simp only [hbits, wellFormed_rowOf _ (nNat_lt w), ite_not]

/-- A word decodes to a command that passes the checks on its fields and is the row they name. -/
theorem decode_eq_ok_iff (w : Word) (i : Instr) : decode w = .ok i ↔
    i.wellFormed = true ∧ opNat w ≤ 8 ∧ reservedNat w = 0 ∧ (opNat w = 3 ∨ nNat w = 0) ∧
      rowOf (opNat w) (nNat w) = i := by
  rw [decode_eq]
  have hwf := wellFormed_rowOf (opNat w) (nNat_lt w)
  constructor
  · intro h
    split_ifs at h with h8 hbits hcount
    cases h
    exact ⟨hwf.mpr hcount, by omega, by omega, by omega, rfl⟩
  · rintro ⟨hi, h8, hres, hn, rfl⟩
    rw [if_neg (by omega), if_neg (by omega), if_neg (hwf.mp hi)]

/-- The word of a command, as a number (30_encoding.md R55). -/
theorem toNat_encode (i : Instr) : (encode i).toNat = 256 * (countOf i).toNat + (opcodeOf i).toNat := by
  rw [encode, toNat_append_eq_add, toNat_append_eq_add, BitVec.toNat_zero]
  omega

/-- A word is the encoding of the row that its fields name, if they name one and leave no bit over. -/
theorem encode_eq_iff (w : Word) (i : Instr) : encode i = w ↔
    opNat w ≤ 8 ∧ reservedNat w = 0 ∧ (opNat w = 3 ∨ nNat w = 0) ∧ rowOf (opNat w) (nNat w) = i := by
  constructor
  · rintro rfl
    obtain ⟨hop, hcount⟩ := opcodeOf_le_countOf i
    have hlt := (countOf i).isLt
    have hword := toNat_encode i
    have ho : opNat (encode i) = (opcodeOf i).toNat := by rw [opNat]; omega
    have hn : nNat (encode i) = (countOf i).toNat := by rw [nNat]; omega
    have hr : reservedNat (encode i) = 0 := by rw [reservedNat]; omega
    rw [ho, hn]
    exact ⟨hop, hr, hcount, rowOf_opcodeOf i⟩
  · rintro ⟨h8, hres, hn, rfl⟩
    obtain ⟨ho, hc⟩ := opcodeOf_countOf_rowOf h8 (nNat_lt w) hn
    apply BitVec.eq_of_toNat_eq
    rw [toNat_encode, ho, hc, toNat_eq_fields w]
    omega

/-- The word of a well-formed command decodes to it. -/
theorem decode_encode {i : Instr} (h : i.wellFormed = true) : decode (encode i) = .ok i :=
  (decode_eq_ok_iff _ i).mpr ⟨h, (encode_eq_iff _ i).mp rfl⟩

end Sys2Proof

namespace Sys2Proof.Proofs
open Sys2Proof Sys2Proof.Machine Sys2Proof.Claims

/-- Settles O1: to decode to a well-formed command and to be its encoding are one condition on the fields of the word. -/
theorem decodeAcceptsExactlyTheEncodings : Obligations.DecodeAcceptsExactlyTheEncodings := by
  intro w i
  rw [decode_eq_ok_iff, encode_eq_iff]

/-- Settles O2: the checks of the decoder in their order; the conditions exclude each other. -/
theorem illegalWordsByCase : Obligations.IllegalWordsByCase := by
  intro w
  rw [decode_eq]
  split_ifs
  all_goals
    simp only [Except.error.injEq, reduceCtorEq, true_iff, false_iff]
    omega

/-- Settles O3: each word is the encoding of its command, and the command is well-formed. -/
theorem tableWordsDecode : Obligations.TableWordsDecode :=
  ⟨decode_encode (i := .nop) rfl, decode_encode (i := .openHandle) rfl, decode_encode (i := .close) rfl,
    decode_encode (i := .getbits 5#4) rfl, decode_encode (i := .seek) rfl, decode_encode (i := .readbyte) rfl,
    decode_encode (i := .seeksync) rfl, decode_encode (i := .nextblock) rfl, decode_encode (i := .nextdir) rfl⟩

end Sys2Proof.Proofs
end

section
/-! PROOFS. WAIT (30_encoding.md R59, 20_memory.md R53): a poll while busy, the command's turn, a poll that ends the wait. -/

namespace Sys2Proof.Machine

/-- Every word that is run ends in a next state (70_reset_and_hazards.md R138). -/
theorem runWord_next (w : Word) (s : State) : ∃ t, runWord w s = .next t := by
  rw [runWord]
  split
  · exact ⟨_, rfl⟩
  · exact exec_next _ s

/-- A word that is run reports, as a command does; an illegal one with E_ILLEGAL (30_encoding.md R58). -/
theorem runWord_ends {w : Word} {s t : State} (h : runWord w s = .next t) : EndsFrom s t := by
  rw [runWord] at h
  split at h
  · rename_i r _
    cases h
    exact .failed s _ _ (.refl s) rfl (by cases r <;> rfl)
  · exact exec_ends h

theorem EndsFrom.latch {s t : State} (h : EndsFrom s t) : t.latch = none := by rw [h.frame]

theorem EndsFrom.agenda {s t : State} (h : EndsFrom s t) : t.agenda = s.agenda := by rw [h.frame]

/-- While busy a poll draws a busy STATUS, and the block has its turn before the next poll. -/
theorem step_wait_busy {s : State} {rest : List Event} (ha : s.agenda = .wait :: rest) (hb : s.busy = true) :
    step s = .next { s with agenda := .blockTurn :: .wait :: rest, busData := busyValue .status s
                            hostDraws := s.hostDraws + 1 } := by
  have hbusy : State.busy { s with agenda := rest } = true := hb
  rw [step_cons ha, turn, hostWait, if_pos hbusy, readReg_busy hbusy]
  rfl

/-- While idle a poll reads STATUS, and the wait is over. -/
theorem step_wait_idle {s : State} {rest : List Event} (ha : s.agenda = .wait :: rest) (hb : s.busy = false) :
    step s = .next { s with agenda := rest, busData := statusWord s } := by
  have hidle : State.busy { s with agenda := rest } = false := hb
  rw [step_cons ha, turn, hostWait, if_neg (by simp [hidle]), readReg_idle hidle, regValue_agenda]
  rfl

theorem step_blockTurn {s : State} {rest : List Event} {w : Word} (ha : s.agenda = .blockTurn :: rest)
    (hl : s.latch = some w) : step s = runWord w { s with agenda := rest } := by
  rw [step_cons ha, turn, blockTurn]
  simp only [hl]

/-- A run of the machine takes the step that there is, then the rest of its steps. -/
theorem core_run_succ {s t : core.State} (h : step s = .next t) (k : Nat) :
    Host.Core.run core (k + 1) s = Host.Core.run core k t := by
  rw [Host.Core.run, show core.step s = .next t from h]

end Sys2Proof.Machine

namespace Sys2Proof.Proofs
open Sys2Proof Sys2Proof.Machine Sys2Proof.Claims

/-- Settles O16: the poll while busy, the command, and the poll of the block it left idle. -/
theorem waitEndsAfterTheCommand : Obligations.WaitEndsAfterTheCommand := by
  intro s w hl ha
  have hbusy : s.busy = true := by rw [State.busy, hl]; rfl
  have hpoll := step_wait_busy ha hbusy
  obtain ⟨t, ht⟩ := runWord_next w
    { s with agenda := [.wait], busData := busyValue .status s, hostDraws := s.hostDraws + 1 }
  have hcommand : step { s with agenda := [.blockTurn, .wait], busData := busyValue .status s
                                hostDraws := s.hostDraws + 1 } = .next t := by
    rw [← ht]
    exact step_blockTurn rfl hl
  have hidle : t.busy = false := by rw [State.busy, (runWord_ends ht).latch]; rfl
  have hlast := step_wait_idle (runWord_ends ht).agenda hidle
  exact ⟨t, _, ht, hpoll, hl,
    (core_run_succ hpoll 2).trans ((core_run_succ hcommand 1).trans (core_run_succ hlast 0)), hidle⟩

end Sys2Proof.Proofs
end

section
/-! PROOFS. NOP, CLOSE and SEEK (40_lifecycle.md R67, R73, R75, R76): what a closed handle's registers read, and what each command that
reads the stream does where the stream has ended. -/

namespace Sys2Proof.Machine
open Sys2Proof.Claims

/-! ## A closed handle -/

/-- The registers that CLOSE keeps, and ID (40_lifecycle.md R73). -/
def keptByClose : List Reg :=
  [.id, .cfg, .thresh, .freqlim, .start, .scanmax, .imglen, .arg, .argbit, .errsticky]

theorem statusWord_closed {s : State} (hh : s.handle = Handle.closed) (he : s.err = .ok) (hd : s.detail = 0#4)
    (hl : s.latch = none) : statusWord s = 0#32 := by
  rw [statusWord, State.isOpen, State.busy, hh, he, hd, hl]
  rfl

/-- Every register of the handle reads 0 without one (10_state.md R40). -/
theorem regValue_closed {s : State} {draws : Nat} (hh : s.handle = Handle.closed) (hs : s.stream = Stream.closed draws)
    (hstatus : statusWord s = 0#32) {r : Reg} (hr : r ∉ keptByClose) : regValue r s = 0#32 := by
  cases r with
  | id | cfg | thresh | freqlim | start | scanmax | imglen | arg | argbit | errsticky => exact absurd (by decide) hr
  | status => exact hstatus
  | cmd | reserved => rfl
  | buf k => simp [regValue, bufWord, packWord, hh, Handle.closed, Held.empty]
  | wavstate => rw [regValue, hs]; exact show wavstateWord Tracking.zero = 0#32 by decide
  | pos | posbit | cross0 | cross1 | lastcycle => rw [regValue, hs]; rfl
  | _ => rw [regValue, hh]; rfl

/-! ## The end of the stream -/

/-- A CAS cursor at or beyond ACTLEN (41_cas_bitreader.md R78). -/
theorem nextBit_cas_atEnd {s : State} {t : Stream} (hk : s.handle.kind = .cas) (h : s.handle.act.imgLen ≤ t.pos) :
    nextBit s t = .ended false t := by
  rw [nextBit_cas hk, casNextBit, if_pos h]

/-- A WAV cursor at or beyond NSAMPLES, outside a bit (42_wav_demod.md R91). -/
theorem nextBit_wav_atEnd {s : State} {t : Stream} (hk : s.handle.kind = .wav) (h : s.handle.wav.nsamples ≤ t.pos)
    (hp : t.track.pend = false) : nextBit s t = .ended false t := by
  have hle : s.handle.wav.nsamples.toNat ≤ t.pos.toNat := BitVec.le_def.mp h
  have hleft : samplesLeft s t = 0 := Nat.sub_eq_zero_of_le hle
  simp only [nextBit, hk, wavNextBit, hleft, wavBitLoop, hp]

/-- The stream t has ended, outside a bit. -/
def AtEnd (s : State) (t : Stream) : Prop := nextBit s t = .ended false t

section
variable {s : State} {t : Stream} (h : AtEnd s t)
include h

theorem AtEnd.takeBits_eq {n : Nat} (hn : 0 < n) : takeBits s n t = .ended false t := by
  obtain ⟨k, rfl⟩ := Nat.exists_eq_succ_of_ne_zero hn.ne'
  rw [takeBits, show nextBit s t = .ended false t from h]

theorem AtEnd.readByte_eq : readByte s t = .ended false t := by
  rw [readByte, h.takeBits_eq (by decide)]

/-- The bound of a scan is not reached before its first bit. -/
theorem AtEnd.seekSync_eq : seekSync s t = ⟨.atEnd, 0, t⟩ := by
  have hbound : ¬ (s.handle.act.scanMax ≠ 0#32 ∧ 0 = s.handle.act.scanMax.toNat) := fun ⟨hne, heq⟩ =>
    hne (BitVec.eq_of_toNat_eq heq.symm)
  rw [seekSync, seekSyncLoop, if_neg hbound, show nextBit s t = .ended false t from h]

theorem AtEnd.blockAttempt_eq : blockAttempt s t = ⟨.atEnd, Held.empty, 0#32, t⟩ := by
  simp only [blockAttempt, h.seekSync_eq]

theorem AtEnd.nextDirLoop_eq (fuel : Nat) : nextDirLoop s fuel t = (⟨.atEnd, Held.empty, 0#32, t⟩, t) := by
  cases fuel <;> simp only [nextDirLoop, h.blockAttempt_eq]

end

section
variable {s : State} (h : AtEnd s s.stream)
include h

theorem AtEnd.getBits_eq {n : Nat} (hn : 0 < n) : getBits n s = fail .eEos 1#4 (setResult 0#32 s) := by
  rw [getBits, h.takeBits_eq hn]; rfl

theorem AtEnd.readByteCommand_eq : readByteCommand s = fail .eEos 1#4 (setResult 0#32 s) := by
  rw [readByteCommand, h.readByte_eq]; rfl

/-- A scanning command ends with END and EOF, and moves nothing (43_framing.md R98, R107, R108). -/
theorem AtEnd.scan {i : Instr} (ho : s.isOpen = true) (hi : i = .seeksync ∨ i = .nextblock ∨ i = .nextdir) :
    ∃ u, exec i s = .next u ∧ u.err = .atEnd ∧ u.handle.eof = true ∧ u.stream = s.stream := by
  obtain rfl | rfl | rfl := hi
  · refine ⟨_, exec_seeksync_open ho, ?_⟩
    simp [seekSyncCommand, h.seekSync_eq]
  · refine ⟨_, exec_nextblock_open ho, ?_⟩
    simp [nextBlockCommand, h.blockAttempt_eq]
  · refine ⟨_, exec_nextdir_open ho, ?_⟩
    simp [nextDirCommand, h.nextDirLoop_eq]

end

theorem setResult_self {s : State} {v : Word} (h : s.handle.result = v) : setResult v s = s := by
  subst h; rfl

/-! ## SEEK -/

theorem isOpen_of_kind {s : State} {k : Kind} (h : s.handle.kind = k) (hk : k ≠ .none) : s.isOpen = true :=
  (isOpen_iff s).mpr (h ▸ hk)

/-- The state SEEK leaves on an open handle. -/
def afterSeek (s : State) : State := finish .ok (setResult 0#32 (setEof false (setStream (seekStream s) s)))

theorem seekStream_cas {s : State} (hk : s.handle.kind = .cas) :
    seekStream s = { s.stream with pos := s.arg, posBit := s.argBit } := by
  rw [seekStream, hk]

theorem seekStream_wav {s : State} (hk : s.handle.kind = .wav) : seekStream s =
    { s.stream with pos := s.arg, posBit := 0#3, track := clearTracking s.stream.track } := by
  rw [seekStream, hk]

/-- A SEEK to or beyond the end of a CAS image or of the audio leaves an ended stream. -/
theorem atEnd_afterSeek {s : State}
    (h : (s.handle.kind = .cas ∧ s.handle.act.imgLen ≤ s.arg) ∨ (s.handle.kind = .wav ∧ s.handle.wav.nsamples ≤ s.arg)) :
    AtEnd (afterSeek s) (afterSeek s).stream := by
  obtain ⟨hk, hle⟩ | ⟨hk, hle⟩ := h
  · refine nextBit_cas_atEnd hk ?_
    rw [show (afterSeek s).stream = seekStream s from rfl, seekStream_cas hk]
    exact hle
  · rw [show (afterSeek s).stream = seekStream s from rfl, seekStream_wav hk]
    exact nextBit_wav_atEnd hk hle rfl

end Sys2Proof.Machine

namespace Sys2Proof.Proofs
open Sys2Proof Sys2Proof.Machine Sys2Proof.Claims

/-- Settles O19: NOP finishes with OK. -/
theorem nopReportsOk : Obligations.NopReportsOk :=
  ⟨decode_encode (i := .nop) rfl, fun _ => rfl⟩

/-- Settles O20: CLOSE leaves the closed handle, whose registers read 0. -/
theorem closeClearsTheHandle : Obligations.CloseClearsTheHandle := by
  refine ⟨decode_encode (i := .close) rfl, fun s =>
    ⟨fun hopen => ?_, fun hclosed => exec_closed hclosed .close nofun nofun⟩⟩
  refine ⟨_, exec_close_open hopen, rfl, ?_⟩
  have hstatus := statusWord_closed (s := finish .ok (setResult 0#32 (closeHandle s))) rfl rfl rfl rfl
  exact ⟨hstatus, fun r hne => by_contra fun hr => hne (regValue_closed rfl rfl hstatus hr)⟩

/-- Settles O21: the cursor by the kind, and the stream read that follows a target beyond the end. -/
theorem seekMovesTheCursor : Obligations.SeekMovesTheCursor := by
  refine ⟨decode_encode (i := .seek) rfl, fun s => ⟨fun hk => ?_, fun hk => ?_, fun hk => ?_, fun htarget => ?_⟩⟩
  · rw [exec_seek_open (isOpen_of_kind hk (by decide)), seekStream_cas hk]; rfl
  · rw [exec_seek_open (isOpen_of_kind hk (by decide)), seekStream_wav hk]; rfl
  · have hclosed : s.isOpen = false := by rw [State.isOpen, hk]
    exact exec_closed hclosed .seek nofun nofun
  · have hopen : s.isOpen = true := htarget.elim (fun h => isOpen_of_kind h.1 (by decide))
      (fun h => isOpen_of_kind h.1 (by decide))
    have hend := atEnd_afterSeek htarget
    have hresult : setResult 0#32 (afterSeek s) = afterSeek s := setResult_self rfl
    refine ⟨afterSeek s, exec_seek_open hopen, rfl, fun n hn => ?_, ?_, fun i hi => hend.scan hopen hi⟩
    · have hpos : 0 < n.toNat := ((countLegal_iff n).mp hn).1
      rw [exec_getbits_open (s := afterSeek s) hopen hn, hend.getBits_eq hpos, hresult]
    · rw [exec_readbyte_open (s := afterSeek s) hopen, hend.readByteCommand_eq, hresult]

end Sys2Proof.Proofs
end

section
/-! PROOFS. OPEN (40_lifecycle.md R68 to R74): its checks, its classification and the handle each container gets, said once from any
state; a failed OPEN leaves none. -/

namespace Sys2Proof.Machine
open Sys2Proof.Claims

/-! ## The start and the checks -/

/-- The checks read the parameters and the defaults alone, which the start of OPEN keeps. -/
theorem openCheck_beginOpen (s : State) : openCheck (beginOpen s) = openCheck s := by
  have hu := beginOpen_handleOnly s
  rw [openCheck, openCheck, hu.defaults, hu.params]

/-- The defaults and the parameters pass the four checks of OPEN. -/
structure ChecksPass (s : State) : Prop where
  kind : cfgKind s.defaults.cfg ≠ 3#2
  parity : cfgParity s.defaults.cfg ≠ 3#2
  mode : cfgMode s.defaults.cfg ≠ 1#2
  imgLen : s.defaults.imgLen ≤ s.params.imgCapacity

theorem ChecksPass.openCheck_eq {s : State} (h : ChecksPass s) : openCheck s = none := by
  rw [openCheck, if_neg h.kind, if_neg h.parity, if_neg (BitVec.not_lt.mpr h.imgLen), if_neg h.mode]

theorem exec_open_of_check {s : State} {c : Code} {d : BitVec 4} (h : openCheck s = some (c, d)) :
    exec .openHandle s = .next (fail c d (beginOpen s)) := by
  rw [exec, execOpen, openImage, openCheck_beginOpen, h]

/-! ## The classification -/

/-- What OPEN takes as a WAV image (40_lifecycle.md R70): the kind is forced, or AUTO finds the RIFF magic. -/
def TakenAsWav (s : State) : Prop :=
  cfgKind s.defaults.cfg = 2#2 ∨
    (cfgKind s.defaults.cfg = 0#2 ∧ 4 ≤ s.defaults.imgLen.toNat ∧ s.mem.readBytes 0 4 = riffMagic)

theorem classify_forced_cas {s : State} (h : cfgKind s.defaults.cfg = 1#2) : classify (snapshot s) = some .cas := by
  simp [classify, h]

theorem classify_wav {s : State} (h : TakenAsWav s) : classify (snapshot s) = some .wav := by
  obtain h | ⟨hauto, hmagic⟩ := h
  · simp [classify, h]
  · simp [classify, hauto, hmagic]

theorem classify_unknown {s : State} (hauto : cfgKind s.defaults.cfg = 0#2)
    (h : ¬ (4 ≤ s.defaults.imgLen.toNat ∧ s.mem.readBytes 0 4 = riffMagic)) : classify (snapshot s) = none := by
  simp [classify, hauto, h]

/-- The classification reads the image and the defaults alone. -/
theorem classify_snapshot_beginOpen (s : State) : classify (snapshot (beginOpen s)) = classify (snapshot s) := by
  have hu := beginOpen_handleOnly s
  rw [classify, classify, snapshot_handle, snapshot_handle, snapshot_mem, snapshot_mem, hu.defaults, hu.mem]

/-- Past its checks OPEN makes the handle of the container it classifies. -/
theorem exec_open_of_pass {s : State} {k : Option Kind} (h : ChecksPass s) (hk : classify (snapshot s) = k) :
    exec .openHandle s = .next (openKind (k.getD .none) (snapshot (beginOpen s))) := by
  rw [exec, execOpen, openImage, openCheck_beginOpen, h.openCheck_eq]
  simp only [classify_snapshot_beginOpen, hk]

/-- The header that OPEN parses: the bytes of the memory below IMGLEN, written under the last handle or not (log 7). -/
theorem riffParse_snapshot_beginOpen (s : State) :
    riffParse (snapshot (beginOpen s)).mem (snapshot (beginOpen s)).params.riffPad
      (snapshot (beginOpen s)).handle.act.imgLen.toNat =
    riffParse s.mem s.params.riffPad s.defaults.imgLen.toNat := by
  have hu := beginOpen_handleOnly s
  simp only [snapshot_mem, snapshot_params, snapshot_handle, hu.mem, hu.params, hu.defaults]

theorem exec_open_wav_ok {s : State} {w : WavParams} (h : ChecksPass s) (hw : TakenAsWav s)
    (hp : riffParse s.mem s.params.riffPad s.defaults.imgLen.toNat = .ok w) : exec .openHandle s =
    .next (finish .ok (setResult 2#32 (initHandle .wav
      { snapshot (beginOpen s) with handle := { (snapshot (beginOpen s)).handle with wav := w } }))) := by
  rw [exec_open_of_pass h (classify_wav hw), Option.getD_some, openKind, riffParse_snapshot_beginOpen, hp]

theorem exec_open_wav_error {s : State} {d : BitVec 4} (h : ChecksPass s) (hw : TakenAsWav s)
    (hp : riffParse s.mem s.params.riffPad s.defaults.imgLen.toNat = .error d) : exec .openHandle s =
    .next (fail .eHeader d (closeHandle (snapshot (beginOpen s)))) := by
  rw [exec_open_of_pass h (classify_wav hw), Option.getD_some, openKind, riffParse_snapshot_beginOpen, hp]

/-! ## Failure -/

/-- An OPEN that fails past its checks closes the handle again. -/
theorem openKind_ok_or_closed (k : Kind) (s : State) :
    (openKind k s).err = .ok ∨ ∃ c d, openKind k s = fail c d (closeHandle s) := by
  cases k with
  | none => exact .inr ⟨_, _, rfl⟩
  | cas => exact .inl rfl
  | wav =>
    rw [openKind]
    split
    · exact .inr ⟨_, _, rfl⟩
    · exact .inl rfl

/-- An OPEN that fails leaves the closed handle it started from. -/
theorem openImage_ok_or_closed {s : State} (hh : s.handle = Handle.closed) (hs : s.stream = Stream.closed s.stream.draws) :
    (openImage s).err = .ok ∨
      ((openImage s).handle = Handle.closed ∧ (openImage s).stream = Stream.closed s.stream.draws) := by
  rw [openImage]
  cases openCheck s with
  | some e => exact .inr ⟨hh, hs⟩
  | none =>
    obtain hok | ⟨c, d, hf⟩ := openKind_ok_or_closed ((classify (snapshot s)).getD .none) (snapshot s)
    · exact .inl hok
    · simp only [hf]; exact .inr ⟨rfl, rfl⟩

end Sys2Proof.Machine

namespace Sys2Proof.Proofs
open Sys2Proof Sys2Proof.Machine Sys2Proof.Claims

/-- Settles O23: the classification gives WAV, and the handle is made from a closed one. -/
theorem openWavCreatesTheHandle : Obligations.OpenWavCreatesTheHandle := by
  intro s w hclosed hw hparity hmode hlen hparse
  have hkind : cfgKind s.defaults.cfg ≠ 3#2 := by
    obtain h | ⟨h, -⟩ := hw <;> rw [h] <;> decide
  rw [exec_open_wav_ok ⟨hkind, hparity, hmode, hlen⟩ hw hparse, beginOpen_eq hclosed]
  rfl

/-- Settles O25: OPEN starts from a closed handle and, if it fails, ends with one. -/
theorem failedOpenLeavesNoHandle : Obligations.FailedOpenLeavesNoHandle := by
  intro s t hclosed h herr
  cases h
  rw [beginOpen_eq hclosed] at herr ⊢
  obtain ⟨hh, hs⟩ := (openImage_ok_or_closed rfl rfl).resolve_left herr
  refine ⟨?_, hh, hs, ?_⟩
  · rw [State.isOpen, hh]; rfl
  · rw [regValue, hh]; rfl

/-- Settles O26: each container's OPEN, by the answer of the header's parse where it is taken as WAV. -/
theorem autoSniffsTheRiffMagic : Obligations.AutoSniffsTheRiffMagic := by
  intro s t h hkind hparity hmode hlen
  have hpass : ChecksPass s := ⟨hkind, hparity, hmode, hlen⟩
  have herror : TakenAsWav s → ∀ d, riffParse s.mem s.params.riffPad s.defaults.imgLen.toNat = .error d →
      t.err = .eHeader ∧ t.detail = d := fun hw d hp => by
    rw [exec_open_wav_error hpass hw hp] at h
    cases h; exact ⟨rfl, rfl⟩
  have hok : TakenAsWav s → ∀ w, riffParse s.mem s.params.riffPad s.defaults.imgLen.toNat = .ok w →
      t.err = .ok ∧ t.handle.kind = .wav ∧ t.handle.wav = w := fun hw w hp => by
    rw [exec_open_wav_ok hpass hw hp] at h
    cases h; exact ⟨rfl, rfl, rfl⟩
  have hwav : TakenAsWav s → (t.err = .ok ∧ t.handle.kind = .wav) ∨ t.err = .eHeader := fun hw => by
    cases hp : riffParse s.mem s.params.riffPad s.defaults.imgLen.toNat with
    | error d => exact .inr (herror hw d hp).1
    | ok w =>
      obtain ⟨he, hk, -⟩ := hok hw w hp
      exact .inl ⟨he, hk⟩
  refine ⟨fun hauto => ⟨fun hmagic => hwav (.inr ⟨hauto, hmagic⟩), fun hn => ?_⟩, fun hcas => ?_,
    fun hforced => hwav (.inl hforced), fun hw => ⟨herror hw, hok hw⟩⟩
  · rw [exec_open_of_pass hpass (classify_unknown hauto hn)] at h
    cases h; exact ⟨rfl, rfl⟩
  · rw [exec_open_of_pass hpass (classify_forced_cas hcas)] at h
    cases h; exact ⟨rfl, rfl⟩

/-- Settles O22: as for WAV, with no header to parse. -/
theorem openCasCreatesTheHandle : Obligations.OpenCasCreatesTheHandle := by
  intro s hclosed hkind hparity hmode hlen
  have hpass : ChecksPass s := ⟨by rw [hkind]; decide, hparity, hmode, hlen⟩
  rw [exec_open_of_pass hpass (classify_forced_cas hkind), beginOpen_eq hclosed]
  rfl

/-- Settles O24: the first check that fails is the one whose failure OPEN reports. -/
theorem openChecksInOrder : Obligations.OpenChecksInOrder := by
  intro s
  obtain ⟨t, ht⟩ := exec_next .openHandle s
  have hdefaults : t.defaults = s.defaults := by rw [(exec_ends ht).frame]
  have hreport : ∀ c d, openCheck s = some (c, d) → t.err = c ∧ t.detail = d := fun c d hc => by
    rw [exec_open_of_check hc] at ht
    cases ht; exact ⟨rfl, rfl⟩
  refine ⟨t, ht, hdefaults, fun hk => hreport _ _ ?_, fun hk hp => hreport _ _ ?_, fun hk hp hl => hreport _ _ ?_,
    fun hk hp hl hm => hreport _ _ ?_⟩
  · rw [openCheck, if_pos hk]
  · rw [openCheck, if_neg hk, if_pos hp]
  · rw [openCheck, if_neg hk, if_neg hp, if_pos hl]
  · rw [openCheck, if_neg hk, if_neg hp, if_neg (BitVec.not_lt.mpr hl), if_pos hm]

end Sys2Proof.Proofs
end

section
/-! PROOFS. The WAVE header (40_lifecycle.md R71, 30_encoding.md R64): the walk's answer as the parameters of the image's fields, and the
chunks of the usual 44-byte header. -/

namespace Sys2Proof.Machine
open Sys2Proof.Claims

/-! ## The fields of a header -/

theorem ofNat_readLE_four (m : Memory) (a : Nat) : BitVec.ofNat 32 (m.readLE a 4) = le32 m a := by
  rw [← le32_toNat, BitVec.ofNat_toNat, BitVec.setWidth_eq]

theorem ofNat_readLE_two (m : Memory) (a : Nat) : BitVec.ofNat 16 (m.readLE a 2) = le16 m a := by
  rw [← le16_toNat, BitVec.ofNat_toNat, BitVec.setWidth_eq]

theorem readLE_four_eq_iff (m : Memory) (a : Nat) {n : Nat} (hn : n < 2 ^ 32) :
    m.readLE a 4 = n ↔ le32 m a = BitVec.ofNat 32 n := by
  rw [← BitVec.toNat_inj, le32_toNat, BitVec.toNat_ofNat, Nat.mod_eq_of_lt hn]

theorem readLE_two_eq_iff (m : Memory) (a : Nat) {n : Nat} (hn : n < 2 ^ 16) :
    m.readLE a 2 = n ↔ le16 m a = BitVec.ofNat 16 n := by
  rw [← BitVec.toNat_inj, le16_toNat, BitVec.toNat_ofNat, Nat.mod_eq_of_lt hn]

/-- The parameters of the two chunks that the walk found, by the fields of the image. -/
theorem wavParams_eq_parsedFrom (m : Memory) (len f d : Nat) :
    wavParams (m.readLE 4 4) len ⟨some (m.readLE (f + 12) 4, m.readLE (f + 22) 2), some (d + 8, m.readLE (d + 4) 4)⟩ =
      parsedFrom m len f d := by
  have h8 := readLE_two_eq_iff m (f + 22) (n := 8) (by decide)
  have h16 := readLE_two_eq_iff m (f + 22) (n := 16) (by decide)
  have h0 := readLE_four_eq_iff m (f + 12) (n := 0) (by decide)
  simp only [wavParams, parsedFrom, ne_eq, h8, h16, h0, ofNat_readLE_four, ofNat_readLE_two, le32_toNat]

/-! ## The parse, by the answer of the walk -/

section
variable {m : Memory} {pad : Bool} {len : Nat}

theorem riffParse_not_riff (h : len < 12 ∨ m.readBytes 0 4 ≠ riffMagic ∨ m.readBytes 8 4 ≠ waveMagic) :
    riffParse m pad len = .error 1#4 := by
  rw [riffParse, if_pos h]

/-- An image that starts with RIFF and WAVE (30_encoding.md R64). -/
structure IsRiff (m : Memory) (len : Nat) : Prop where
  length : 12 ≤ len
  riff : m.readBytes 0 4 = riffMagic
  wave : m.readBytes 8 4 = waveMagic

variable (hr : IsRiff m len)
include hr

theorem IsRiff.riffParse_walk_none (h : walkChunks m pad len len 12 ⟨none, none⟩ = none) :
    riffParse m pad len = .error 4#4 := by
  rw [riffParse, if_neg (by simp [hr.length, hr.riff, hr.wave]), h]

theorem IsRiff.riffParse_walk_some {c : Chunks} (h : walkChunks m pad len len 12 ⟨none, none⟩ = some c) :
    riffParse m pad len = wavParams (m.readLE 4 4) len c := by
  rw [riffParse, if_neg (by simp [hr.length, hr.riff, hr.wave]), h]

variable {l : List Nat} {q : Nat} (hl : ChunksFrom m pad len 12 l q)
include hl

/-- The first `fmt ` chunk is short or does not fit. -/
theorem IsRiff.parse_bad_fmt {f : Nat} (hf : FirstChunk m l fmtId f)
    (hbad : (le32 m (f + 4)).toNat < 16 ∨ len < f + 24) : riffParse m pad len = .error 4#4 := by
  rw [le32_toNat] at hbad
  exact hr.riffParse_walk_none (walk_bad hbad l 12 len _ hl rfl hf (by omega))

/-- A good first `fmt ` and a first `data` chunk, in either order. -/
theorem IsRiff.parse_ok {f d : Nat} (hf : FirstChunk m l fmtId f) (hsize : 16 ≤ (le32 m (f + 4)).toNat)
    (hfit : f + 24 ≤ len) (hd : FirstChunk m l dataId d) : riffParse m pad len = parsedFrom m len f d := by
  rw [le32_toNat] at hsize
  rw [hr.riffParse_walk_some (walk_ok hsize hfit l 12 len _ hl (.inr ⟨rfl, hf⟩) (.inr ⟨rfl, hd⟩) (by omega)),
    wavParams_eq_parsedFrom]

/-- A good first `fmt ` and no `data` chunk to the end of the image. -/
theorem IsRiff.parse_no_data {f : Nat} (hf : FirstChunk m l fmtId f) (hsize : 16 ≤ (le32 m (f + 4)).toNat)
    (hfit : f + 24 ≤ len) (hend : len < q + 8) (hn : ∀ x ∈ l, m.readBytes x 4 ≠ dataId) :
    riffParse m pad len = .error 3#4 := by
  rw [le32_toNat] at hsize
  obtain ⟨v, hw⟩ := walk_nodata hsize hfit l 12 len ⟨none, none⟩ hl (.inr ⟨rfl, hf⟩) rfl hn hend (by omega)
  rw [hr.riffParse_walk_some hw]
  rfl

/-- No `fmt ` chunk to the end of the image. -/
theorem IsRiff.parse_no_fmt (hend : len < q + 8) (hn : ∀ x ∈ l, m.readBytes x 4 ≠ fmtId) :
    riffParse m pad len = .error 2#4 := by
  obtain ⟨c, hw, hc⟩ := walk_nofmt l 12 len ⟨none, none⟩ hl rfl hn hend (by omega)
  rw [hr.riffParse_walk_some hw, wavParams, hc]

end

/-! ## The usual 44-byte header -/

/-- A `fmt ` chunk of 16 bytes at 12 and a `data` chunk at 36 stand one after the other. -/
theorem chunksFrom_plain {m : Memory} {pad : Bool} {len : Nat} (hlen : 44 ≤ len) (hsize : (le32 m 16).toNat = 16) :
    ∃ q, ChunksFrom m pad len 12 [12, 36] q := by
  have hnext : 12 + 8 + (le32 m (12 + 4)).toNat + (if pad ∧ (le32 m (12 + 4)).toNat % 2 = 1 then 1 else 0) = 36 := by
    simp [hsize]
  exact ⟨_, rfl, by omega, hnext.symm, by omega, rfl⟩

theorem firstChunk_head {m : Memory} {x : Nat} {xs : List Nat} {ident : List Byte} (h : m.readBytes x 4 = ident)
    (hxs : ∀ y ∈ xs, x ≤ y) : FirstChunk m (x :: xs) ident x := by
  refine ⟨by simp, h, fun y hy hlt => ?_⟩
  obtain rfl | hy := List.mem_cons.mp hy
  · omega
  · have := hxs y hy; omega

theorem firstChunk_cons {m : Memory} {x y : Nat} {xs : List Nat} {ident : List Byte} (h : m.readBytes x 4 ≠ ident)
    (hy : FirstChunk m xs ident y) : FirstChunk m (x :: xs) ident y := by
  obtain ⟨hmem, hid, hfirst⟩ := hy
  refine ⟨by simp [hmem], hid, fun z hz hlt => ?_⟩
  obtain rfl | hz := List.mem_cons.mp hz
  · exact h
  · exact hfirst z hz hlt

theorem IsRiff.parse_plain {m : Memory} {pad : Bool} {len : Nat} (hr : IsRiff m len) (hlen : 44 ≤ len)
    (hfmt : m.readBytes 12 4 = fmtId) (hsize : m.readBytes 16 4 = [16#8, 0#8, 0#8, 0#8])
    (hdata : m.readBytes 36 4 = dataId) : riffParse m pad len = parsedFrom m len 12 36 := by
  have h16 : (le32 m 16).toNat = 16 := by rw [le32_toNat, Memory.readLE, hsize]; rfl
  obtain ⟨q, hl⟩ := chunksFrom_plain (pad := pad) hlen h16
  have hf : FirstChunk m [12, 36] fmtId 12 := firstChunk_head hfmt (by simp)
  have hd : FirstChunk m [12, 36] dataId 36 :=
    firstChunk_cons (by rw [hfmt]; decide) (firstChunk_head hdata (by simp))
  exact hr.parse_ok hl hf h16.ge (by omega) hd

end Sys2Proof.Machine

namespace Sys2Proof.Proofs
open Sys2Proof Sys2Proof.Machine Sys2Proof.Claims

/-- Settles O27: the answer of the walk over the chunks, case by case, and the parse it gives. -/
theorem waveHeaderParses : Obligations.WaveHeaderParses := by
  intro m pad len _
  refine ⟨riffParse_not_riff, fun h12 hriff hwave => ?_⟩
  have hr : IsRiff m len := ⟨h12, hriff, hwave⟩
  refine ⟨fun l q hl => ⟨fun f hf => ⟨hr.parse_bad_fmt hl hf, fun hsize hfit => ⟨fun d hd => ?_, fun hend hn => ?_⟩⟩,
    hr.parse_no_fmt hl⟩, fun h44 hfmt hsize hdata => hr.parse_plain h44 hfmt hsize hdata⟩
  · exact hr.parse_ok hl hf hsize hfit hd
  · exact hr.parse_no_data hl hf hsize hfit hend hn

end Sys2Proof.Proofs
end


section
/-! PROOFS. GETBITS (41_cas_bitreader.md R80, R81): its answer by what the bit source gives, the image bits on a CAS handle, and the split
of one read into two. -/

namespace Sys2Proof.Machine
open Sys2Proof.Claims

/-! ## The bits in a register -/

theorem toNat_ofNat_packMsb {l : List Bool} (h : l.length ≤ 32) : (BitVec.ofNat 32 (packMsb l)).toNat = packMsb l := by
  have hlt : packMsb l < 2 ^ 32 := (packMsb_lt l).trans_le (Nat.pow_le_pow_right (by decide) h)
  rw [BitVec.toNat_ofNat, Nat.mod_eq_of_lt hlt]

/-- The first of n bits is the most significant. -/
theorem getLsbD_ofNat_packMsb_range {n : Nat} (hn : n ≤ 32) (f : Nat → Bool) {j : Nat} (hj : j < n) :
    (BitVec.ofNat 32 (packMsb ((List.range n).map f))).getLsbD (n - 1 - j) = f j := by
  have hbit := packMsb_testBit ((List.range n).map f) j (by simpa using hj)
  rw [← BitVec.testBit_toNat, toNat_ofNat_packMsb (by simpa using hn)]
  simpa using hbit

/-! ## The answer of GETBITS -/

section
variable {s : State} {n : Nat} {t : Stream}

theorem getBits_of_ended {mid : Bool} (h : takeBits s n s.stream = .ended mid t) :
    getBits n s = fail .eEos (eosDetail mid) (setResult 0#32 (setStream t s)) := by
  rw [getBits, h]; rfl

theorem getBits_of_bits {bs : List Bool} (h : takeBits s n s.stream = .bits bs t) :
    getBits n s = finish .ok (setResult (BitVec.ofNat 32 (packMsb bs)) (setStream t s)) := by
  rw [getBits, h]

end

/-- A GETBITS that reports an error met the end of the stream. -/
theorem takeBits_of_getBits_failed {s : State} {n : Nat} (h : (getBits n s).err ≠ .ok) :
    ∃ mid t, takeBits s n s.stream = .ended mid t := by
  cases hr : takeBits s n s.stream with
  | ended mid t => exact ⟨mid, t, rfl⟩
  | bits bs t => exact absurd (by rw [getBits_of_bits hr]; rfl) h

/-- A GETBITS that reports OK took its bits. -/
theorem takeBits_of_getBits_ok {s : State} {n : Nat} (h : (getBits n s).err = .ok) :
    ∃ bs t, takeBits s n s.stream = .bits bs t ∧ bs.length = n := by
  cases hr : takeBits s n s.stream with
  | ended mid t => rw [getBits_of_ended hr] at h; cases h
  | bits bs t => exact ⟨bs, t, rfl, takeBits_length hr⟩

/-- GETBITS changes nothing that the bit source reads: the next bits are those of the stream it left. -/
theorem takeBits_after_getBits {s : State} {n : Nat} {bs : List Bool} {t : Stream}
    (h : takeBits s n s.stream = .bits bs t) (m : Nat) :
    takeBits (getBits n s) m (getBits n s).stream = takeBits s m t := by
  have hstream : (getBits n s).stream = t := by rw [getBits_of_bits h]; rfl
  have hr := getBits_readsOnly n s
  rw [hstream, takeBits_source, takeBits_source s, source_eq hr.params hr.mem hr.hazard hr.kind hr.act hr.wav]

theorem getBits_isOpen (n : Nat) (s : State) : (getBits n s).isOpen = s.isOpen := by
  rw [Bool.eq_iff_iff, isOpen_iff, isOpen_iff, (getBits_readsOnly n s).kind]

/-! ## One read as two -/

section
variable {s : State} {n m : Nat}

/-- Where the first read meets the end, the one read ends just so. -/
theorem getBits_add_of_failed (h : (getBits n s).err ≠ .ok) : getBits (n + m) s = getBits n s := by
  obtain ⟨mid, t, hr⟩ := takeBits_of_getBits_failed h
  rw [getBits_of_ended hr, getBits_of_ended (n := n + m) (by rw [takeBits_add, hr])]

variable (hn : (getBits n s).err = .ok)
include hn

/-- Where the second read meets the end, the one read ends just so. -/
theorem getBits_add_of_failed_second (hm : (getBits m (getBits n s)).err ≠ .ok) :
    getBits (n + m) s = getBits m (getBits n s) := by
  obtain ⟨bs, t, hr, -⟩ := takeBits_of_getBits_ok hn
  obtain ⟨mid, t', hr'⟩ := takeBits_of_getBits_failed hm
  have hone : takeBits s (n + m) s.stream = .ended mid t' := by
    simp only [takeBits_add, hr, ← takeBits_after_getBits hr m, hr']
  rw [getBits_of_ended hone, getBits_of_ended hr', getBits_of_bits hr]
  rfl

/-- Two reads that succeed give the high and the low part of the one read's result, and leave its state. -/
theorem getBits_add_of_ok (hlen : n + m ≤ 32) (hm : (getBits m (getBits n s)).err = .ok) :
    getBits (n + m) s = setResult (BitVec.ofNat 32
      ((getBits n s).handle.result.toNat * 2 ^ m + (getBits m (getBits n s)).handle.result.toNat)) (getBits m (getBits n s)) := by
  obtain ⟨bs, t, hr, hbs⟩ := takeBits_of_getBits_ok hn
  obtain ⟨cs, t', hr', hcs⟩ := takeBits_of_getBits_ok hm
  have hone : takeBits s (n + m) s.stream = .bits (bs ++ cs) t' := by
    simp only [takeBits_add, hr, ← takeBits_after_getBits hr m, hr']
  have hhigh : (getBits n s).handle.result.toNat = packMsb bs := by
    rw [getBits_of_bits hr]; exact toNat_ofNat_packMsb (by omega)
  have hlow : (getBits m (getBits n s)).handle.result.toNat = packMsb cs := by
    rw [getBits_of_bits hr']; exact toNat_ofNat_packMsb (by omega)
  rw [hhigh, hlow, ← hcs, ← packMsb_add, hcs, getBits_of_bits hone, getBits_of_bits hr', getBits_of_bits hr]
  rfl

end

end Sys2Proof.Machine

namespace Sys2Proof.Proofs
open Sys2Proof Sys2Proof.Machine Sys2Proof.Claims

/-- Settles O28: on a CAS handle the bits taken are the image's, packed with the first one most significant. -/
theorem getbitsReturnsImageBits : Obligations.GetbitsReturnsImageBits := by
  intro n s hk hn
  have hopen : s.isOpen = true := isOpen_of_kind hk (by decide)
  obtain ⟨hpos, hmax⟩ := (countLegal_iff n).mp hn
  rw [exec_getbits_open hopen hn]
  refine ⟨fun hleft hclean => ?_, fun hleft hclean => ?_⟩
  · have htake := takeBits_cas hk n.toNat s.stream hleft hclean
    have hlen := takeBits_length htake
    refine ⟨_, by rw [getBits_of_bits htake], fun j hj => getLsbD_ofNat_packMsb_range (by omega) _ hj, ?_⟩
    rw [toNat_ofNat_packMsb (by omega)]
    exact (packMsb_lt _).trans_eq (by rw [hlen])
  · rw [getBits_of_ended (takeBits_cas_ended hk n.toNat s.stream hpos hleft hclean)]
    rfl

/-- Settles O30: reading n + m bits is reading n and then m, and GETBITS n leaves the bit source as it was. -/
theorem getbitsCallsCompose : Obligations.GetbitsCallsCompose := by
  intro n m k s t hopen hn hm hk hsum ht
  obtain ⟨-, hmax⟩ := (countLegal_iff k).mp hk
  rw [exec_getbits_open hopen hn] at ht
  rw [exec_getbits_open hopen hk, hsum]
  cases ht
  refine ⟨fun hfail => by rw [getBits_add_of_failed hfail], fun hok => ⟨getBits m.toNat (getBits n.toNat s), ?_, ?_, ?_⟩⟩
  · exact exec_getbits_open ((getBits_isOpen _ _).trans hopen) hm
  · exact fun hfail => by rw [getBits_add_of_failed_second hok hfail]
  · exact fun hok' => by rw [getBits_add_of_ok hok (by omega) hok']

end Sys2Proof.Proofs
end

section
/-! PROOFS. The handle registers that each reading command can change (41_cas_bitreader.md R80, 43_framing.md R95, R98, R107, R108). -/

namespace Sys2Proof.Machine

/-! ## Past the dispatch checks -/

theorem getBits_handle (n : Nat) (s : State) :
    (getBits n s).handle = { s.handle with result := (getBits n s).handle.result } := by
  rw [getBits]
  split <;> rfl

theorem readByteCommand_handle (s : State) :
    (readByteCommand s).handle = { s.handle with result := (readByteCommand s).handle.result } := by
  rw [readByteCommand]
  split <;> rfl

/-- What SEEKSYNC leaves of the handle. -/
theorem seekSyncCommand_handle (s : State) : (seekSyncCommand s).handle = { s.handle with
    result := (seekSyncCommand s).handle.result, scanCount := (seekSyncCommand s).handle.scanCount
    eof := (seekSyncCommand s).handle.eof } := by
  rw [seekSyncCommand]
  cases (seekSync s s.stream).answer <;> rfl

theorem nextBlockCommand_handle (s : State) : (nextBlockCommand s).handle = { s.handle with
    result := (nextBlockCommand s).handle.result, scanCount := (nextBlockCommand s).handle.scanCount
    eof := (nextBlockCommand s).handle.eof, held := (nextBlockCommand s).handle.held } := by
  rw [nextBlockCommand]
  cases (blockAttempt s s.stream).outcome <;> rfl

/-- What NEXTDIR leaves of the handle: the start-of-file cursor moves only with OK. -/
structure NextDirFrame (s t : State) : Prop where
  handle : t.handle = { s.handle with
    result := t.handle.result, scanCount := t.handle.scanCount, eof := t.handle.eof, held := t.handle.held
    dir := t.handle.dir, sofPos := t.handle.sofPos, sofBit := t.handle.sofBit }
  sof : t.err ≠ .ok → t.handle.sofPos = s.handle.sofPos ∧ t.handle.sofBit = s.handle.sofBit

theorem nextDirCommand_frame (s : State) : NextDirFrame s (nextDirCommand s) := by
  simp only [nextDirCommand]
  cases (nextDirLoop s (bitsLeft s s.stream) s.stream).1.outcome with
  | failed c d => exact ⟨rfl, fun _ => ⟨rfl, rfl⟩⟩
  | atEnd => exact ⟨rfl, fun _ => ⟨rfl, rfl⟩⟩
  | valid =>
    simp only
    split
    · exact ⟨rfl, fun _ => ⟨rfl, rfl⟩⟩
    · exact ⟨rfl, fun hne => absurd rfl hne⟩

/-! ## With the dispatch checks -/

/-- The handle check lets a command run, or leaves the handle alone (60_exceptions.md R116). -/
theorem withHandle_cases (s : State) (run : State → State) :
    withHandle s run = run s ∨ withHandle s run = fail .eMode 1#4 s := by
  rw [withHandle]
  split
  · exact .inl rfl
  · exact .inr rfl

theorem exec_getbits_handle {n : BitVec 4} {s t : State} (h : exec (.getbits n) s = .next t) :
    t.handle = { s.handle with result := t.handle.result } := by
  rw [exec, execGetbits] at h
  cases h
  split
  · obtain hw | hw := withHandle_cases s (getBits n.toNat) <;> rw [hw]
    · exact getBits_handle _ s
    · rfl
  · rfl

theorem exec_readbyte_handle {s t : State} (h : exec .readbyte s = .next t) :
    t.handle = { s.handle with result := t.handle.result } := by
  cases h
  obtain hw | hw := withHandle_cases s readByteCommand <;> rw [hw]
  · exact readByteCommand_handle s
  · rfl

theorem exec_seeksync_handle {s t : State} (h : exec .seeksync s = .next t) : t.handle = { s.handle with
    result := t.handle.result, scanCount := t.handle.scanCount, eof := t.handle.eof } := by
  cases h
  obtain hw | hw := withHandle_cases s seekSyncCommand <;> rw [hw]
  · exact seekSyncCommand_handle s
  · rfl

theorem exec_nextblock_handle {s t : State} (h : exec .nextblock s = .next t) : t.handle = { s.handle with
    result := t.handle.result, scanCount := t.handle.scanCount, eof := t.handle.eof, held := t.handle.held } := by
  cases h
  obtain hw | hw := withHandle_cases s nextBlockCommand <;> rw [hw]
  · exact nextBlockCommand_handle s
  · rfl

theorem exec_nextdir_frame {s t : State} (h : exec .nextdir s = .next t) : NextDirFrame s t := by
  cases h
  obtain hw | hw := withHandle_cases s nextDirCommand <;> rw [hw]
  · exact nextDirCommand_frame s
  · exact ⟨rfl, fun _ => ⟨rfl, rfl⟩⟩

end Sys2Proof.Machine

namespace Sys2Proof.Proofs
open Sys2Proof Sys2Proof.Machine Sys2Proof.Claims

/-- Settles O51: command by command, the frame of the handle. -/
theorem readersFrame : Obligations.ReadersFrame := by
  intro i s t h
  refine ⟨?_, ?_, ?_, ?_⟩
  · rintro (rfl | ⟨n, rfl⟩)
    · exact exec_readbyte_handle h
    · exact exec_getbits_handle h
  · rintro rfl; exact exec_seeksync_handle h
  · rintro rfl; exact exec_nextblock_handle h
  · rintro rfl
    have hframe := exec_nextdir_frame h
    exact ⟨hframe.handle, hframe.sof⟩

end Sys2Proof.Proofs
end

section
/-! PROOFS. The way of a stream under every command but OPEN and CLOSE (10_state.md R13, 42_wav_demod.md R85): a resolved direction
stays, and reading moves the cursor on. -/

namespace Sys2Proof.Machine
open Sys2Proof.Claims

/-- What reading on leaves of a stream, whatever the container: a resolved direction, and the cursor where it was or further. -/
structure Onward (t t' : Stream) : Prop where
  dir : ∀ d, t.track.dir = some d → t'.track.dir = some d
  cursor : casIndex t ≤ casIndex t'

theorem Onward.refl (t : Stream) : Onward t t := ⟨fun _ h => h, le_refl _⟩

theorem Onward.trans {a b c : Stream} (h : Onward a b) (k : Onward b c) : Onward a c :=
  ⟨fun d hd => k.dir d (h.dir d hd), h.cursor.trans k.cursor⟩

theorem WavFrame.onward {t t' : Stream} (h : WavFrame t t') : Onward t t' where
  dir := h.dir
  cursor := by
    rw [casIndex, casIndex, h.posBit]
    exact Nat.add_le_add_right (Nat.mul_le_mul_left 8 h.pos) _

theorem casNextBit_onward (s : State) (t : Stream) : Onward t (casNextBit s t).stream := by
  obtain ⟨-, h⟩ | ⟨-, b, t', h, htrack, hcursor⟩ := casNextBit_step s t <;> rw [h]
  · exact .refl t
  · exact ⟨fun d hd => (congrArg Tracking.dir htrack).trans hd, (Nat.le_succ _).trans_eq hcursor.symm⟩

/-- Every bit read goes onward. -/
theorem onward_rel (s : State) : StreamRel s Onward where
  refl := .refl
  trans _ _ _ := .trans
  next t := by
    cases hk : s.handle.kind with
    | none => rw [nextBit, hk]; exact .refl t
    | cas => rw [nextBit_cas hk]; exact casNextBit_onward s t
    | wav => exact ((wav_frame_rel hk).next t).onward

/-- SEEK clears the tracking but its direction (40_lifecycle.md R76). -/
theorem seekStream_dir (s : State) : (seekStream s).track.dir = s.stream.track.dir := by
  rw [seekStream]
  split <;> rfl

theorem exec_seek_dir {s t : State} (h : exec .seek s = .next t) : t.stream.track.dir = s.stream.track.dir := by
  cases h
  rw [withHandle]
  split
  · exact seekStream_dir s
  · rfl

end Sys2Proof.Machine

namespace Sys2Proof.Proofs
open Sys2Proof Sys2Proof.Machine Sys2Proof.Claims

/-- Settles O55: SEEK keeps the direction, and every command left goes onward. -/
theorem directionStaysAndCursorNeverMovesBack : Obligations.DirectionStaysAndCursorNeverMovesBack := by
  intro i s t ho hc h
  by_cases hs : i = .seek
  · subst hs
    exact ⟨fun d hd => (exec_seek_dir h).trans hd, fun hne => absurd rfl hne⟩
  · have honward := exec_rel (onward_rel s) ho hc hs h
    exact ⟨honward.dir, fun _ => honward.cursor⟩

end Sys2Proof.Proofs
end

section
/-! PROOFS. The comparator (42_wav_demod.md R83). -/

namespace Sys2Proof.Machine

theorem crossingOf_eq_rising_iff (old new : Level) : crossingOf old new = some .rising ↔ old = .neg ∧ new = .pos := by
  cases old <;> cases new <;> decide

theorem crossingOf_eq_falling_iff (old new : Level) : crossingOf old new = some .falling ↔ old = .pos ∧ new = .neg := by
  cases old <;> cases new <;> decide

section
variable {thresh : Nat} {v : Int}

theorem compareLevel_above (old : Level) (h : (thresh : Int) < v) : compareLevel thresh old v = .pos := if_pos h

theorem compareLevel_below (old : Level) (h : v < -(thresh : Int)) : compareLevel thresh old v = .neg := by
  rw [compareLevel, if_neg (by omega), if_pos h]

theorem compareLevel_inside (old : Level) (hlow : -(thresh : Int) ≤ v) (hhigh : v ≤ thresh) :
    compareLevel thresh old v = old := by
  rw [compareLevel, if_neg (not_lt.mpr hhigh), if_neg (not_lt.mpr hlow)]

/-- From the other level, POS is reached only above T. -/
theorem compareLevel_neg_eq_pos_iff : compareLevel thresh .neg v = .pos ↔ (thresh : Int) < v := by
  refine ⟨fun h => ?_, compareLevel_above _⟩
  by_contra hv
  rw [compareLevel, if_neg hv, ite_self] at h
  cases h

/-- From the other level, NEG is reached only below −T. -/
theorem compareLevel_pos_eq_neg_iff : compareLevel thresh .pos v = .neg ↔ v < -(thresh : Int) := by
  refine ⟨fun h => ?_, compareLevel_below _⟩
  by_contra hv
  rw [compareLevel, if_neg hv, ite_self] at h
  cases h

end

end Sys2Proof.Machine

namespace Sys2Proof.Proofs
open Sys2Proof Sys2Proof.Machine Sys2Proof.Claims

/-- Settles O33: the level by the side of the band the sample lies on, and the crossings by the two levels. -/
theorem comparatorHasADeadBand : Obligations.ComparatorHasADeadBand := by
  intro thresh old v
  refine ⟨compareLevel_above old, compareLevel_below old, fun hlow hhigh => ?_, ?_, ?_⟩
  · rw [compareLevel_inside old hlow hhigh]
    exact ⟨rfl, crossing_same old⟩
  · rw [crossingOf_eq_rising_iff]
    exact and_congr_right fun hold => hold ▸ compareLevel_neg_eq_pos_iff
  · rw [crossingOf_eq_falling_iff]
    exact and_congr_right fun hold => hold ▸ compareLevel_pos_eq_neg_iff

end Sys2Proof.Proofs
end

section
/-! PROOFS. A bit of a WAV stream by the crossings found (42_wav_demod.md R87 to R91): what the crossing search answers decides the
next bit, and the next bit the answer of GETBITS and READBYTE. -/

namespace Sys2Proof.Machine
open Sys2Proof.Claims

/-! ## From the crossing search to the bit -/

/-- The stream once the crossing at n has ended the cycle from c (42_wav_demod.md R88). -/
def measuredFrom (n c : Word) (t : Stream) : Stream :=
  { shiftCrossings n t with
    track := { (shiftCrossings n t).track with lastCycle := BitVec.ofInt 32 ((n.toNat : Int) - c.toNat) } }

section
variable {s : State} {t t' : Stream}

/-- A crossing found leaves fewer samples (R92). -/
theorem samplesLeft_lt_of_found {n : Word} (h : nextCanonicalCrossing s (samplesLeft s t) t = .found n t') :
    samplesLeft s t' < samplesLeft s t := by
  obtain ⟨u, hu, -⟩ | ⟨m, u, hu, -, hlow, hhigh, hpos, -⟩ := nextCanonicalCrossing_spec s (samplesLeft s t) t <;>
    rw [h] at hu <;> cases hu
  simp only [samplesLeft]
  omega

/-- A search that runs to the end of the audio ends the bit too (42_wav_demod.md R91). -/
theorem wavNextBit_of_search_ended {mid : Bool} (h : nextCanonicalCrossing s (samplesLeft s t) t = .ended mid t') :
    wavNextBit s t = .ended mid t' := by
  rw [wavNextBit]
  cases hleft : samplesLeft s t with
  | zero =>
    rw [hleft, nextCanonicalCrossing] at h
    cases h
    rfl
  | succ g =>
    have hcycle : measureCycle s (g + 1) t = .ended mid t' := by rw [measureCycle, h]
    rw [wavBitLoop, hleft, hcycle]

/-- With C1V 0 the crossing only primes CROSS1, and the bit is read on from it (42_wav_demod.md R88). -/
theorem wavNextBit_of_primed {n : Word} (h : nextCanonicalCrossing s (samplesLeft s t) t = .found n t')
    (h1 : t'.track.cross1 = none) : wavNextBit s t = wavNextBit s (shiftCrossings n t') := by
  have hlt := samplesLeft_lt_of_found h
  obtain ⟨g, hg⟩ := Nat.exists_eq_succ_of_ne_zero (Nat.ne_zero_of_lt hlt)
  have hfewer : samplesLeft s (shiftCrossings n t') ≤ g := Nat.le_of_lt_succ (hlt.trans_eq hg)
  have hcycle : measureCycle s (samplesLeft s t) t =
      measureCycle s (samplesLeft s (shiftCrossings n t')) (shiftCrossings n t') := by
    rw [← measureCycle_fuel s g _ hfewer, hg, measureCycle, h]
    simp only [shiftCrossings, h1]
  rw [← wavBitLoop_fuel s (g + 1) (shiftCrossings n t') (hfewer.trans g.le_succ), wavNextBit, hg, wavBitLoop, wavBitLoop, hcycle]

/-- With C1V 1 the crossing ends a cycle, whose length decides the bit (42_wav_demod.md R88 to R90). -/
theorem wavNextBit_of_cycle {n c : Word} (h : nextCanonicalCrossing s (samplesLeft s t) t = .found n t')
    (h1 : t'.track.cross1 = some c) :
    wavNextBit s t =
      if isShort s ((n.toNat : Int) - c.toNat) then
        if t'.track.pend then .bit true (setPend false (measuredFrom n c t'))
        else wavNextBit s (setPend true (measuredFrom n c t'))
      else .bit false (setPend false (measuredFrom n c t')) := by
  have hlt := samplesLeft_lt_of_found h
  obtain ⟨g, hg⟩ := Nat.exists_eq_succ_of_ne_zero (Nat.ne_zero_of_lt hlt)
  have hfewer : samplesLeft s (setPend true (measuredFrom n c t')) ≤ g := Nat.le_of_lt_succ (hlt.trans_eq hg)
  have hcycle : measureCycle s (samplesLeft s t) t = .measured ((n.toNat : Int) - c.toNat) (measuredFrom n c t') := by
    rw [hg, measureCycle, h]
    simp only [shiftCrossings, h1, measuredFrom]
  rw [← wavBitLoop_fuel s g _ hfewer, wavNextBit, hg, wavBitLoop, hcycle]
  rfl

theorem wavNextBit_onward (s : State) (t : Stream) : Onward t (wavNextBit s t).stream := by
  rw [wavNextBit]
  obtain ⟨t', h, hf⟩ | ⟨b, t', h, hf, -⟩ := wavBitLoop_spec s (samplesLeft s t) t <;> rw [h] <;> exact hf.onward

/-- Past a canonical crossing the bit goes onward. -/
theorem wavNextBit_onward_of_found {n : Word} (h : nextCanonicalCrossing s (samplesLeft s t) t = .found n t') :
    Onward t' (wavNextBit s t).stream := by
  cases h1 : t'.track.cross1 with
  | none =>
    rw [wavNextBit_of_primed h h1]
    exact Onward.trans (b := shiftCrossings n t') ⟨fun _ hd => hd, le_refl _⟩ (wavNextBit_onward s _)
  | some c =>
    have hset : ∀ b, Onward t' (setPend b (measuredFrom n c t')) := fun b => ⟨fun _ hd => hd, le_refl _⟩
    rw [wavNextBit_of_cycle h h1]
    split
    · split
      · exact hset false
      · exact (hset true).trans (wavNextBit_onward s _)
    · exact hset false

end

theorem nextBit_wav {s : State} (hk : s.handle.kind = .wav) (t : Stream) : nextBit s t = wavNextBit s t := by
  rw [nextBit, hk]

/-- A WAV cursor at or beyond NSAMPLES: the stream ends there, inside a bit if PEND is 1 (42_wav_demod.md R91). -/
theorem wavNextBit_atEnd {s : State} {t : Stream} (h : s.handle.wav.nsamples ≤ t.pos) :
    wavNextBit s t = .ended t.track.pend t := by
  have hleft : samplesLeft s t = 0 := Nat.sub_eq_zero_of_le (BitVec.le_def.mp h)
  rw [wavNextBit, hleft, wavBitLoop]

/-! ## From the bit to the command -/

/-- A read of several bits goes onward of where its first bit left the stream. -/
theorem takeBits_succ_onward (s : State) (k : Nat) (t : Stream) :
    Onward (nextBit s t).stream (takeBits s (k + 1) t).stream := by
  rw [takeBits]
  cases nextBit s t with
  | ended mid u => exact .refl u
  | bit b u =>
    refine (takeBits_rel (onward_rel s) k u).trans ?_
    dsimp only
    cases takeBits s k u <;> exact .refl _

theorem getBits_stream (n : Nat) (s : State) : (getBits n s).stream = (takeBits s n s.stream).stream := by
  rw [getBits]
  cases takeBits s n s.stream <;> rfl

theorem getBits_onward_of_nextBit {n : Nat} (hn : 0 < n) (s : State) :
    Onward (nextBit s s.stream).stream (getBits n s).stream := by
  obtain ⟨k, rfl⟩ := Nat.exists_eq_succ_of_ne_zero hn.ne'
  rw [getBits_stream]
  exact takeBits_succ_onward s k s.stream

/-- The two commands that read a fixed count of bits, GETBITS with a legal one (41_cas_bitreader.md R80, 43_framing.md R95). -/
def ReadsBits (i : Instr) : Prop := i = .readbyte ∨ ∃ n, countLegal n = true ∧ i = .getbits n

section
variable {i : Instr} {s : State}

/-- Where the first bit meets the end of the stream they fail E_EOS there. -/
theorem ReadsBits.exec_of_ended (hi : ReadsBits i) (hopen : s.isOpen = true) {mid : Bool} {t : Stream}
    (h : nextBit s s.stream = .ended mid t) : exec i s = .next (audioEnd (eosDetail mid) t s) := by
  obtain rfl | ⟨n, hn, rfl⟩ := hi
  · rw [exec_readbyte_open hopen, readByteCommand, readByte, takeBits, h]
    rfl
  · obtain ⟨k, hk⟩ := Nat.exists_eq_succ_of_ne_zero (Nat.one_le_iff_ne_zero.mp ((countLegal_iff n).mp hn).1)
    rw [exec_getbits_open hopen hn, getBits, hk, takeBits, h]
    rfl

/-- They read alike from two streams whose next bit is one. -/
theorem ReadsBits.exec_setStream (hi : ReadsBits i) (hopen : s.isOpen = true) {t : Stream}
    (h : nextBit s s.stream = nextBit s t) : exec i (setStream t s) = exec i s := by
  have htake : ∀ k, takeBits (setStream t s) (k + 1) t = takeBits s (k + 1) s.stream := fun k => by
    rw [takeBits_source, show (setStream t s).source = s.source from rfl, ← takeBits_source, takeBits, takeBits, h]
  obtain rfl | ⟨n, hn, rfl⟩ := hi
  · rw [exec_readbyte_open hopen, exec_readbyte_open (s := setStream t s) hopen, readByteCommand, readByteCommand,
      readByte, readByte, setStream_stream, htake 7]
    rfl
  · obtain ⟨k, hk⟩ := Nat.exists_eq_succ_of_ne_zero (Nat.one_le_iff_ne_zero.mp ((countLegal_iff n).mp hn).1)
    rw [exec_getbits_open hopen hn, exec_getbits_open (s := setStream t s) hopen hn, getBits, getBits, hk,
      setStream_stream, htake k]
    rfl

theorem exec_getbits_one (hopen : s.isOpen = true) {b : Bool} {t : Stream} (h : nextBit s s.stream = .bit b t) :
    exec (.getbits 1#4) s = .next (finish .ok (setResult (BitVec.ofNat 32 b.toNat) (setStream t s))) := by
  have htake : takeBits s 1 s.stream = .bits [b] t := by simp only [takeBits, h]
  rw [exec_getbits_open hopen (by decide), show (1#4).toNat = 1 from rfl, getBits_of_bits htake]
  simp [packMsb]

end

end Sys2Proof.Machine
end

section
/-! PROOFS. Cycles of samples (42_wav_demod.md R87 to R90): from a canonical crossing a long cycle is a 0 bit, two short ones in a
row a 1 bit. -/

namespace Sys2Proof.Machine
open Sys2Proof.Claims

/-- The stream stands behind its last canonical crossing, at sample c in direction d, on that crossing's side. -/
structure OnCrossing (t : Stream) (d : Edge) (c : Nat) : Prop where
  dir : t.track.dir = some d
  level : t.track.level = levelAfter d
  cross1 : t.track.cross1 = some (BitVec.ofNat 32 c)
  behind : c < t.pos.toNat

theorem onCrossing_of_atCrossing {s : State} {d : Edge} {c : Nat} (h : AtCrossing s d c) : OnCrossing s.stream d c where
  dir := h.dir
  level := h.level
  cross1 := by
    obtain ⟨w, hw, rfl⟩ := h.cross1
    rw [hw, ofNat_toNat32]
  behind := h.behind

theorem atCrossing_isOpen {s : State} {d : Edge} {c : Nat} (h : AtCrossing s d c) : s.isOpen = true :=
  isOpen_of_kind h.kind (by decide)

/-- A cursor can hold every index of the audio, and its end. -/
theorem toNat_ofNat_of_le {s : State} {k : Nat} (h : k ≤ s.handle.wav.nsamples.toNat) : (BitVec.ofNat 32 k).toNat = k :=
  Nat.mod_eq_of_lt (h.trans_lt s.handle.wav.nsamples.isLt)

/-- The cursor after a cycle that ended at r, PEND set or not, stands behind r. -/
theorem afterCycle_onCrossing {s : State} {r : Nat} (hr : r < s.handle.wav.nsamples.toNat) (t : Stream) (d : Edge)
    (a : Nat) (b : Bool) : OnCrossing (setPend b (afterCycle t d a r)) d r :=
  ⟨rfl, rfl, rfl, (Nat.lt_succ_self r).trans_eq (toNat_ofNat_of_le hr).symm⟩

section
variable {s : State} {t : Stream} {d : Edge} {c f r : Nat}
variable (hz : s.hazard = []) (ht : OnCrossing t d c) (hc : WaveCycle s d t.pos.toNat f r)
include hz ht hc

/-- The bit that a cycle gives, or the stream it is read on from (42_wav_demod.md R90). -/
theorem wavNextBit_of_waveCycle : wavNextBit s t =
    if (r - c) * s.handle.act.freqLim.toNat < s.handle.wav.srate.toNat then
      if t.track.pend then .bit true (afterCycle t d c r) else wavNextBit s (setPend true (afterCycle t d c r))
    else .bit false (afterCycle t d c r) := by
  obtain ⟨hpf, hfr, hrn⟩ := hc.order
  have hcp := ht.behind
  have hlen : ((BitVec.ofNat 32 r).toNat : Int) - (BitVec.ofNat 32 c).toNat = (r : Int) - c := by
    rw [toNat_ofNat_of_le hrn.le, toNat_ofNat_of_le (s := s) (k := c) (by omega)]
  have hlast : BitVec.ofInt 32 ((r : Int) - c) = BitVec.ofNat 32 (r - c) := by
    rw [← Int.ofNat_sub (by omega)]
    exact BitVec.ofInt_natCast ..
  have hfound := cycle_found hz d t f r ht.level ht.dir hc
  rw [wavNextBit_of_cycle hfound ht.cross1, hlen, short_iff s r c (by omega)]
  simp only [measuredFrom, hlen, hlast, shiftCrossings, ht.cross1, decide_eq_true_eq]
  rfl

/-- A long cycle is a 0 bit. -/
theorem wavNextBit_long (hlong : s.handle.wav.srate.toNat ≤ (r - c) * s.handle.act.freqLim.toNat) :
    wavNextBit s t = .bit false (afterCycle t d c r) := by
  rw [wavNextBit_of_waveCycle hz ht hc, if_neg (not_lt.mpr hlong)]

variable (hshort : (r - c) * s.handle.act.freqLim.toNat < s.handle.wav.srate.toNat)
include hshort

/-- The second short cycle of a pair is a 1 bit. -/
theorem wavNextBit_short_second (hp : t.track.pend = true) : wavNextBit s t = .bit true (afterCycle t d c r) := by
  rw [wavNextBit_of_waveCycle hz ht hc, if_pos hshort, if_pos hp]

/-- The first short cycle sets PEND, and the next cycle decides. -/
theorem wavNextBit_short_first (hp : t.track.pend = false) :
    wavNextBit s t = wavNextBit s (setPend true (afterCycle t d c r)) := by
  rw [wavNextBit_of_waveCycle hz ht hc, if_pos hshort, if_neg (by rw [hp]; decide)]

end

/-- The cycle after a short one starts where that one left the cursor. -/
theorem waveCycle_afterCycle {s : State} {d : Edge} {c r f' r' : Nat} {t : Stream} (hr : r < s.handle.wav.nsamples.toNat)
    (h : WaveCycle s d (r + 1) f' r') : WaveCycle s d (setPend true (afterCycle t d c r)).pos.toNat f' r' := by
  rw [show (setPend true (afterCycle t d c r)).pos.toNat = r + 1 from toNat_ofNat_of_le hr]
  exact h

end Sys2Proof.Machine

namespace Sys2Proof.Proofs
open Sys2Proof Sys2Proof.Machine Sys2Proof.Claims

/-- Settles O34: one long cycle decides, and a short one before it is dropped. -/
theorem longCycleIsAZeroBit : Obligations.LongCycleIsAZeroBit := by
  intro s d c f r hat hc
  have ht := onCrossing_of_atCrossing hat
  obtain ⟨-, -, hr⟩ := hc.order
  refine ⟨fun hlong => ?_, fun hshort hp f' r' hc' hlong => ?_⟩ <;>
    refine exec_getbits_one (b := false) (atCrossing_isOpen hat) ?_ <;> rw [nextBit_wav hat.kind]
  · exact wavNextBit_long hat.clean ht hc hlong
  · rw [wavNextBit_short_first hat.clean ht hc hshort hp]
    exact wavNextBit_long hat.clean (afterCycle_onCrossing hr _ _ _ _) (waveCycle_afterCycle hr hc') hlong

/-- Settles O35: the short cycle that finds PEND 1 decides. -/
theorem shortCyclePairIsAOneBit : Obligations.ShortCyclePairIsAOneBit := by
  intro s d c f r hat hc hshort
  have ht := onCrossing_of_atCrossing hat
  obtain ⟨-, -, hr⟩ := hc.order
  refine ⟨fun hp => ?_, fun hp f' r' hc' hshort' => ?_⟩ <;>
    refine exec_getbits_one (b := true) (atCrossing_isOpen hat) ?_ <;> rw [nextBit_wav hat.kind]
  · exact wavNextBit_short_second hat.clean ht hc hshort hp
  · rw [wavNextBit_short_first hat.clean ht hc hshort hp]
    exact wavNextBit_short_second hat.clean (afterCycle_onCrossing hr _ _ _ _) (waveCycle_afterCycle hr hc') hshort' rfl

end Sys2Proof.Proofs
end

section
/-! PROOFS. The first canonical crossing and the end of the audio (42_wav_demod.md R85, R87, R88, R91). -/

namespace Sys2Proof.Machine
open Sys2Proof.Claims

/-! ## The first crossing -/

theorem levelAfter_flipEdge_inj {d e : Edge} (h : levelAfter (flipEdge d) = levelAfter (flipEdge e)) : e = d := by
  cases d <;> cases e <;> cases h <;> rfl

section
variable {s : State} {d : Edge} {p f : Nat}

/-- Samples that are not beyond the band on the other side keep the level (42_wav_demod.md R83). -/
theorem levelFrom_stays {e : Edge} (n : Nat) (h : ∀ i, p ≤ i → i < p + n → ¬ Beyond s (flipEdge e) i) :
    levelFrom s p (levelAfter e) n = levelAfter e := by
  induction n generalizing p with
  | zero => rfl
  | succ n ih =>
    have hstay := level_stay (h p le_rfl (by omega))
    rw [compareLevel] at hstay
    rw [levelFrom, hstay]
    exact ih fun i hi hlt => h i (by omega) (by omega)

/-- From the opposite level the first sample beyond the band on side d makes the first crossing, in direction d. -/
theorem firstCanonical_of_unresolved (hdir : s.stream.track.dir = none)
    (hlevel : s.stream.track.level = levelAfter (flipEdge d)) (hpf : s.stream.pos.toNat ≤ f)
    (hf : f < s.handle.wav.nsamples.toNat) (hinside : ∀ i, s.stream.pos.toNat ≤ i → i < f → ¬ Beyond s d i)
    (hbeyond : Beyond s d f) : FirstCanonical s d f := by
  have hstays : ∀ i, s.stream.pos.toNat ≤ i → i ≤ f →
      levelFrom s s.stream.pos.toNat (levelAfter (flipEdge d)) (i - s.stream.pos.toNat) = levelAfter (flipEdge d) :=
    fun i hpi hif => levelFrom_stays _ fun j hj hlt => by
      rw [flip_flip]
      exact hinside j hj (by omega)
  refine ⟨⟨hpf, hf, ?_, hbeyond⟩, .inl hdir, fun e i _ hif hcross => ?_⟩
  · rw [hlevel]
    exact hstays f hpf le_rfl
  · obtain ⟨hpi, -, hbefore, hover⟩ := hcross
    rw [hlevel, hstays i hpi hif.le] at hbefore
    exact hinside i hpi hif (levelAfter_flipEdge_inj hbefore ▸ hover)

variable (hz : s.hazard = []) (h : FirstCanonical s d f)
include h

/-- The cursor behind it. -/
theorem primedAt_pos : (primedAt s d f).pos.toNat = f + 1 := toNat_ofNat_of_le h.crosses.2.1

include hz

/-- The search finds it. -/
theorem search_of_firstCanonical : nextCanonicalCrossing s (samplesLeft s s.stream) s.stream = .found (BitVec.ofNat 32 f)
    { s.stream with
      pos := BitVec.ofNat 32 (f + 1)
      track := { s.stream.track with level := levelAfter d, dir := some d } } :=
  canonical_found hz _ s.stream h.crosses h.canonical h.first le_rfl

/-- With C1V 0 it primes CROSS1, and the bit is read on from it. -/
theorem wavNextBit_of_firstCanonical (h1 : s.stream.track.cross1 = none) :
    wavNextBit s s.stream = wavNextBit s (primedAt s d f) := by
  rw [wavNextBit_of_primed (search_of_firstCanonical hz h) h1, shiftCrossings, h1]
  rfl

end

theorem primedAt_atCrossing {s : State} {d : Edge} {f : Nat} (hk : s.handle.kind = .wav) (hz : s.hazard = [])
    (h : FirstCanonical s d f) : AtCrossing (setStream (primedAt s d f) s) d f where
  kind := hk
  clean := hz
  dir := rfl
  level := rfl
  cross1 := ⟨_, rfl, toNat_ofNat_of_le h.crosses.2.1.le⟩
  behind := (Nat.lt_succ_self f).trans_eq (primedAt_pos h).symm

/-! ## The end of the audio -/

section
variable {s : State} (hz : s.hazard = [])
include hz

/-- From a canonical crossing on, where no cycle ends any more (42_wav_demod.md R91). -/
theorem wavNextBit_noCycleLeft {t : Stream} {d : Edge} {c : Nat} {lv : Level} (ht : OnCrossing t d c)
    (hp : t.pos.toNat ≤ s.handle.wav.nsamples.toNat) (h : NoCycleLeft s d t.pos.toNat lv) :
    wavNextBit s t = .ended t.track.pend
      { t with pos := s.handle.wav.nsamples, track := { t.track with level := lv } } :=
  noCycle_bit hz d t lv ht.level ht.dir hp h _ le_rfl

variable (hp : s.stream.pos ≤ s.handle.wav.nsamples)
include hp

/-- No sample that is left leaves the dead band. -/
theorem wavNextBit_insideBand (h : ∀ j, s.stream.pos.toNat ≤ j → j < s.handle.wav.nsamples.toNat →
    ¬ Beyond s .rising j ∧ ¬ Beyond s .falling j) :
    wavNextBit s s.stream = .ended s.stream.track.pend (atAudioEnd s s.stream.track) := by
  refine wavNextBit_of_search_ended (stays_end hz _ _ (BitVec.le_def.mp hp) le_rfl fun j hj hlt => ?_)
  obtain ⟨hhigh, hlow⟩ := h j hj hlt
  exact compareLevel_inside _ (not_lt.mp hlow) (not_lt.mp hhigh)

/-- No canonical crossing is left. -/
theorem wavNextBit_noCanonicalLeft (h : ∀ e j, s.stream.track.dir = none ∨ s.stream.track.dir = some e →
    ¬ CrossesAt s s.stream.pos.toNat s.stream.track.level e j) :
    wavNextBit s s.stream = .ended s.stream.track.pend (atAudioEnd s { s.stream.track with
      level := levelFrom s s.stream.pos.toNat s.stream.track.level
        (s.handle.wav.nsamples.toNat - s.stream.pos.toNat) }) :=
  wavNextBit_of_search_ended (noCanonical_end hz _ _ (BitVec.le_def.mp hp) h le_rfl)

end

end Sys2Proof.Machine

namespace Sys2Proof.Proofs
open Sys2Proof Sys2Proof.Machine Sys2Proof.Claims

/-- Settles O36: the search finds the first canonical crossing, and what is read after it goes onward. -/
theorem firstCrossingResolvesTheDirection : Obligations.FirstCrossingResolvesTheDirection := by
  refine ⟨fun n s d f hk hn hz hdir hlevel hpf hf hinside hbeyond => ?_, fun i s d f hk hi hz h1 hfirst => ?_⟩
  · have hopen : s.isOpen = true := isOpen_of_kind hk (by decide)
    have hfirst := firstCanonical_of_unresolved hdir hlevel hpf hf hinside hbeyond
    have hbit := wavNextBit_onward_of_found (search_of_firstCanonical hz hfirst)
    rw [← nextBit_wav hk] at hbit
    have honward := hbit.trans (getBits_onward_of_nextBit ((countLegal_iff n).mp hn).1 s)
    refine ⟨_, exec_getbits_open hopen hn, honward.dir d rfl, ?_⟩
    have hcursor := honward.cursor
    have hlast := (getBits n.toNat s).stream.posBit.isLt
    simp only [casIndex, toNat_ofNat_of_le (s := s) (k := f + 1) hf] at hcursor
    omega
  · have hopen : s.isOpen = true := isOpen_of_kind hk (by decide)
    have hi : ReadsBits i := hi
    have hat := primedAt_atCrossing hk hz hfirst
    have hbit : nextBit s s.stream = nextBit s (primedAt s d f) := by
      rw [nextBit_wav hk, nextBit_wav hk, wavNextBit_of_firstCanonical hz hfirst h1]
    refine ⟨hat, (hi.exec_setStream hopen hbit).symm, fun lv hend => ?_⟩
    have hpos := primedAt_pos hfirst
    refine hi.exec_of_ended hopen (mid := s.stream.track.pend) ?_
    rw [hbit, nextBit_wav hk]
    exact wavNextBit_noCycleLeft hz (onCrossing_of_atCrossing hat) (hpos.trans_le hfirst.crosses.2.1)
      (hpos.symm ▸ hend)

/-- Settles O37: each way the audio ends before a bit, and the report of the command that meets it. -/
theorem audioEndReportsMidBit : Obligations.AudioEndReportsMidBit := by
  intro i s hk hi
  have hopen : s.isOpen = true := isOpen_of_kind hk (by decide)
  have hreport : ∀ {mid : Bool} {t : Stream}, wavNextBit s s.stream = .ended mid t →
      exec i s = .next (audioEnd (eosDetail mid) t s) := fun h =>
    ReadsBits.exec_of_ended hi hopen (by rw [nextBit_wav hk, h])
  refine ⟨fun hend => hreport (wavNextBit_atEnd hend), fun hp hz h => hreport (wavNextBit_insideBand hz hp h),
    fun hp hz h => hreport (wavNextBit_noCanonicalLeft hz hp h), fun d c hat => ?_⟩
  have ht := onCrossing_of_atCrossing hat
  refine ⟨fun lv hp h => hreport (wavNextBit_noCycleLeft hat.clean ht (BitVec.le_def.mp hp) h),
    fun f r lv hc hshort hpend h => hreport (mid := true) ?_⟩
  obtain ⟨-, -, hr⟩ := hc.order
  have hpos : (setPend true (afterCycle s.stream d c r)).pos.toNat = r + 1 := toNat_ofNat_of_le hr
  rw [wavNextBit_short_first hat.clean ht hc hshort hpend]
  exact wavNextBit_noCycleLeft hat.clean (afterCycle_onCrossing hr _ _ _ _) (hpos.trans_le hr) (hpos.symm ▸ h)

end Sys2Proof.Proofs
end

section
/-! PROOFS. Parity symmetry (42_wav_demod.md R93): over negated samples every part of the demodulator answers as the
mirror image. -/

namespace Sys2Proof.Machine
open Sys2Proof.Claims

/-! ## The comparator and the crossing search -/

theorem compareLevel_neg (thresh : Nat) (old : Level) (v : Int) :
    compareLevel thresh (flipLevel old) (-v) = flipLevel (compareLevel thresh old v) := by
  by_cases hhigh : (thresh : Int) < v
  · rw [compareLevel_above _ hhigh, compareLevel_below _ (by omega)]
    rfl
  by_cases hlow : v < -(thresh : Int)
  · rw [compareLevel_below _ hlow, compareLevel_above _ (by omega)]
    rfl
  rw [compareLevel_inside _ (by omega) (by omega), compareLevel_inside _ (by omega) (by omega)]

theorem crossingOf_flipLevel (old new : Level) :
    crossingOf (flipLevel old) (flipLevel new) = (crossingOf old new).map flipEdge := by
  cases old <;> cases new <;> rfl

theorem flipEdge_eq_iff (e d : Edge) : flipEdge e = flipEdge d ↔ e = d := by
  cases e <;> cases d <;> decide

theorem mirrorStream_dir_getD (t : Stream) (e : Edge) :
    (mirrorStream t).track.dir.getD (flipEdge e) = flipEdge (t.track.dir.getD e) := by
  rw [mirrorStream]
  cases t.track.dir <;> rfl

theorem mirrorStream_resolveDir (e : Edge) (t : Stream) :
    resolveDir (flipEdge e) (mirrorStream t) = mirrorStream (resolveDir e t) := by
  rw [resolveDir, mirrorStream_dir_getD]
  rfl

section
variable {s : State} {fuel : Nat} {t u : Stream} {e : Edge} (ht : ¬ s.handle.wav.nsamples ≤ t.pos)
include ht

/-- The loop of R87 goes on past a sample that makes no crossing. -/
theorem search_of_no_crossing (h : takeSample s t = (none, u)) :
    nextCanonicalCrossing s (fuel + 1) t = nextCanonicalCrossing s fuel u := by
  rw [nextCanonicalCrossing, if_neg ht, h]

/-- It stops at a canonical crossing. -/
theorem search_of_canonical (h : takeSample s t = (some e, u)) (he : e = u.track.dir.getD e) :
    nextCanonicalCrossing s (fuel + 1) t = .found t.pos (resolveDir e u) := by
  rw [nextCanonicalCrossing, if_neg ht, h]
  exact if_pos he

/-- It goes on past a crossing in the other direction. -/
theorem search_of_other (h : takeSample s t = (some e, u)) (he : e ≠ u.track.dir.getD e) :
    nextCanonicalCrossing s (fuel + 1) t = nextCanonicalCrossing s fuel (resolveDir e u) := by
  rw [nextCanonicalCrossing, if_neg ht, h]
  exact if_neg he

end

/-- The mirror image of an answer of the crossing search: the same crossing, the mirrored stream. -/
def Crossing.mirror : Crossing → Crossing
  | .found n t => .found n (mirrorStream t)
  | .ended mid t => .ended mid (mirrorStream t)

/-- The mirror image of the answer to a bit read: the same bit. -/
def BitRead.mirror : BitRead → BitRead
  | .bit b t => .bit b (mirrorStream t)
  | .ended mid t => .ended mid (mirrorStream t)

/-- The mirror image of the answer to a read of several bits. -/
def BitsRead.mirror : BitsRead → BitsRead
  | .bits bs t => .bits bs (mirrorStream t)
  | .ended mid t => .ended mid (mirrorStream t)

section
variable {s s' : State} (h : Mirrored s s')
include h

theorem takeSample_mirror {t : Stream} (ht : ¬ s.handle.wav.nsamples ≤ t.pos) :
    takeSample s' (mirrorStream t) = ((takeSample s t).1.map flipEdge, mirrorStream (takeSample s t).2) := by
  have hnew : compareLevel s'.handle.act.thresh.toNat (mirrorStream t).track.level (sampleAt s' t.pos.toNat) =
      flipLevel (compareLevel s.handle.act.thresh.toNat t.track.level (sampleAt s t.pos.toNat)) := by
    rw [h.negated _ (not_atEnd ht), h.thresh]
    exact compareLevel_neg _ _ _
  have hcross := crossingOf_flipLevel t.track.level
    (compareLevel s.handle.act.thresh.toNat t.track.level (sampleAt s t.pos.toNat))
  rw [takeSample_clean h.clean.2, takeSample_clean h.clean.1, show (mirrorStream t).pos = t.pos from rfl, hnew, ← hcross]
  rfl

theorem samplesLeft_mirror (t : Stream) : samplesLeft s' (mirrorStream t) = samplesLeft s t := by
  rw [samplesLeft, samplesLeft, h.wav]
  rfl

theorem nextCanonicalCrossing_mirror (fuel : Nat) (t : Stream) :
    nextCanonicalCrossing s' fuel (mirrorStream t) = (nextCanonicalCrossing s fuel t).mirror := by
  induction fuel generalizing t with
  | zero => rfl
  | succ fuel ih =>
    by_cases hend : s.handle.wav.nsamples ≤ t.pos
    · have hend' : s'.handle.wav.nsamples ≤ (mirrorStream t).pos := h.wav ▸ hend
      rw [nextCanonicalCrossing, nextCanonicalCrossing, if_pos hend, if_pos hend']
      rfl
    · have hend' : ¬ s'.handle.wav.nsamples ≤ (mirrorStream t).pos := h.wav ▸ hend
      obtain ⟨c, u, hread⟩ : ∃ c u, takeSample s t = (c, u) := ⟨_, _, rfl⟩
      have hread' := takeSample_mirror h hend
      rw [hread] at hread'
      cases c with
      | none => rw [search_of_no_crossing hend hread, search_of_no_crossing hend' hread', ih]
      | some e =>
        have hsame : flipEdge e = (mirrorStream u).track.dir.getD (flipEdge e) ↔ e = u.track.dir.getD e := by
          rw [mirrorStream_dir_getD, flipEdge_eq_iff]
        by_cases he : e = u.track.dir.getD e
        · rw [search_of_canonical hend hread he, search_of_canonical hend' hread' (hsame.mpr he), mirrorStream_resolveDir]
          rfl
        · rw [search_of_other hend hread he, search_of_other hend' hread' (mt hsame.mp he), mirrorStream_resolveDir, ih]

/-! ## The bits -/

theorem isShort_mirror (len : Int) : isShort s' len = isShort s len := by
  rw [isShort, isShort, h.wav, h.freq]

theorem wavNextBit_mirror (t : Stream) : wavNextBit s' (mirrorStream t) = (wavNextBit s t).mirror := by
  induction hleft : samplesLeft s t using Nat.strong_induction_on generalizing t with
  | _ left ih =>
    have hsearch' : nextCanonicalCrossing s' (samplesLeft s' (mirrorStream t)) (mirrorStream t) =
        (nextCanonicalCrossing s (samplesLeft s t) t).mirror := by
      rw [samplesLeft_mirror h, nextCanonicalCrossing_mirror h]
    cases hsearch : nextCanonicalCrossing s (samplesLeft s t) t with
    | ended mid u =>
      rw [hsearch] at hsearch'
      rw [wavNextBit_of_search_ended hsearch, wavNextBit_of_search_ended hsearch']
      rfl
    | found n u =>
      rw [hsearch] at hsearch'
      have hlt : samplesLeft s u < left := (samplesLeft_lt_of_found hsearch).trans_eq hleft
      cases h1 : u.track.cross1 with
      | none =>
        rw [wavNextBit_of_primed hsearch h1, wavNextBit_of_primed hsearch' h1]
        exact ih _ hlt (shiftCrossings n u) rfl
      | some c =>
        have hrest := ih _ hlt (setPend true (measuredFrom n c u)) rfl
        rw [wavNextBit_of_cycle hsearch h1, wavNextBit_of_cycle hsearch' h1, isShort_mirror h]
        split
        · rw [apply_ite BitRead.mirror]
          exact if_congr Iff.rfl rfl hrest
        · rfl

theorem takeBits_mirror (n : Nat) (t : Stream) : takeBits s' n (mirrorStream t) = (takeBits s n t).mirror := by
  induction n generalizing t with
  | zero => rfl
  | succ n ih =>
    rw [takeBits, takeBits, nextBit_wav h.kind.1, nextBit_wav h.kind.2, wavNextBit_mirror h]
    cases wavNextBit s t with
    | ended mid u => rfl
    | bit b u =>
      simp only [BitRead.mirror, ih]
      cases takeBits s n u <;> rfl

end

theorem sampleAt_congr {s t : State} (hm : t.mem = s.mem) (hw : t.handle.wav = s.handle.wav) (i : Nat) :
    sampleAt t i = sampleAt s i := by
  simp only [sampleAt, hm, hw]

/-- Handles that commands only read stay mirrored. -/
theorem mirrored_reads {s s' t t' : State} (h : Mirrored s s') (hr : ReadsOnly s t) (hr' : ReadsOnly s' t') :
    Mirrored t t' where
  kind := ⟨hr.kind.trans h.kind.1, hr'.kind.trans h.kind.2⟩
  clean := ⟨hr.hazard.trans h.clean.1, hr'.hazard.trans h.clean.2⟩
  wav := by rw [hr.wav, hr'.wav, h.wav]
  thresh := by rw [hr.act, hr'.act, h.thresh]
  freq := by rw [hr.act, hr'.act, h.freq]
  negated i hi := by
    rw [sampleAt_congr hr.mem hr.wav, sampleAt_congr hr'.mem hr'.wav]
    exact h.negated i (hr.wav ▸ hi)

/-- The two states report one status, and their streams are mirrored. -/
structure MirroredReport (t t' : State) : Prop where
  err : t'.err = t.err
  detail : t'.detail = t.detail
  stream : t'.stream = mirrorStream t.stream

/-- GETBITS past the dispatch checks, over mirrored handles. -/
theorem getBits_mirror {s s' : State} (h : Mirrored s s') (hs : s'.stream = mirrorStream s.stream) (n : Nat) :
    MirroredReport (getBits n s) (getBits n s') ∧ (getBits n s').handle.result = (getBits n s).handle.result := by
  have htake' := takeBits_mirror h n s.stream
  rw [← hs] at htake'
  cases htake : takeBits s n s.stream with
  | ended mid t =>
    rw [htake] at htake'
    rw [getBits_of_ended htake, getBits_of_ended htake']
    exact ⟨⟨rfl, rfl, rfl⟩, rfl⟩
  | bits bs t =>
    rw [htake] at htake'
    rw [getBits_of_bits htake, getBits_of_bits htake']
    exact ⟨⟨rfl, rfl, rfl⟩, rfl⟩

end Sys2Proof.Machine

namespace Sys2Proof.Proofs
open Sys2Proof Sys2Proof.Machine Sys2Proof.Claims

/-- Settles O38: the bits of the mirrored stream are the same, and GETBITS only reads. -/
theorem negatedAudioDecodesAlike : Obligations.NegatedAudioDecodesAlike := by
  intro n s s' t h hs ht
  obtain ⟨t', ht'⟩ := exec_next (.getbits n) s'
  have hmirrored : Mirrored t t' :=
    mirrored_reads h (exec_readsOnly (i := .getbits n) nofun nofun nofun ht)
      (exec_readsOnly (i := .getbits n) nofun nofun nofun ht')
  obtain ⟨⟨herr, hdetail, hstream⟩, hresult⟩ : MirroredReport t t' ∧
      (countLegal n = true → t'.handle.result = t.handle.result) := by
    cases hn : countLegal n with
    | false =>
      rw [exec_getbits_illegal hn] at ht ht'
      cases ht
      cases ht'
      exact ⟨⟨rfl, rfl, hs⟩, nofun⟩
    | true =>
      rw [exec_getbits_open (isOpen_of_kind h.kind.1 (by decide)) hn] at ht
      rw [exec_getbits_open (isOpen_of_kind h.kind.2 (by decide)) hn] at ht'
      cases ht
      cases ht'
      obtain ⟨hreport, hresult⟩ := getBits_mirror h hs n.toNat
      exact ⟨hreport, fun _ => hresult⟩
  exact ⟨t', ht', herr, hdetail, hresult, hmirrored, hstream⟩

end Sys2Proof.Proofs
end

section
/-! PROOFS. READBYTE (43_framing.md R94, R95): its byte by the bits the source gives, and by the image on a CAS handle. -/

namespace Sys2Proof.Machine
open Sys2Proof.Claims

/-! ## The bits of a byte -/

theorem packMsb_testBit_eight {bs : List Bool} (h : bs.length = 8) {j : Nat} (hj : j < 8) :
    (packMsb bs).testBit (7 - j) = bs[j] := by
  rw [show 7 - j = bs.length - 1 - j by omega]
  exact packMsb_testBit bs j (by omega)

/-- Bit j of eight packed bits stands where the bit order puts it. -/
theorem packByte_getLsbD (o : Bool) {bs : List Bool} (h : bs.length = 8) {j : Nat} (hj : j < 8) :
    (packByte o bs).getLsbD (if o then j else 7 - j) = bs[j] := by
  rw [packByte, BitVec.getLsbD_ofNat]
  cases o with
  | true => simpa [hj] using packLsb_testBit bs j (by omega)
  | false => simpa [show 7 - j < 8 by omega] using packMsb_testBit_eight h hj

theorem streamByte_getLsbD (s : State) (c : Nat) {j : Nat} (hj : j < 8) :
    (streamByte s c).getLsbD (if cfgBitord s.handle.act.cfg then j else 7 - j) = imageBit s (c + j) := by
  rw [← streamByte_eq, packByte_getLsbD _ (by simp) hj]
  simp

/-- From a byte-aligned index the stream byte is the image byte, whatever the bit order. -/
theorem streamByte_aligned (s : State) (p : Nat) : streamByte s (8 * p) = s.mem.read p := by
  have himage : ∀ j, j < 8 → imageBit s (8 * p + j) =
      (s.mem.read p).getLsbD (if cfgBitord s.handle.act.cfg then j else 7 - j) := fun j hj => by
    rw [imageBit, show (8 * p + j) / 8 = p by omega, show (8 * p + j) % 8 = j by omega]
  apply BitVec.eq_of_getLsbD_eq
  intro i hi
  cases ho : cfgBitord s.handle.act.cfg with
  | true => simpa [ho] using (streamByte_getLsbD s (8 * p) hi).trans (himage i hi)
  | false =>
    have hbit := (streamByte_getLsbD s (8 * p) (show 7 - i < 8 by omega)).trans (himage (7 - i) (by omega))
    simpa [ho, show 7 - (7 - i) = i by omega] using hbit

/-- The byte READBYTE packs and the number GETBITS 8 packs hold the same bits, in opposite orders with BITORD 1. -/
theorem packByte_getLsbD_packMsb (o : Bool) {bs : List Bool} (h : bs.length = 8) {j : Nat} (hj : j < 8) :
    (packByte o bs).getLsbD j = (packMsb bs).testBit (if o then 7 - j else j) := by
  cases o with
  | false => simp [packByte, BitVec.getLsbD_ofNat, hj, -BitVec.getLsbD_eq_getElem]
  | true => exact (packByte_getLsbD true h hj).trans (packMsb_testBit_eight h hj).symm

/-! ## The answer of READBYTE -/

section
variable {s : State} {t : Stream}

theorem readByteCommand_of_byte {b : Byte} (h : readByte s s.stream = .byte b t) :
    readByteCommand s = finish .ok (setResult (b.setWidth 32) (setStream t s)) := by
  rw [readByteCommand, h]

theorem readByteCommand_of_ended {mid : Bool} (h : readByte s s.stream = .ended mid t) :
    readByteCommand s = fail .eEos (eosDetail mid) (setResult 0#32 (setStream t s)) := by
  rw [readByteCommand, h]
  rfl

end

end Sys2Proof.Machine

namespace Sys2Proof.Proofs
open Sys2Proof Sys2Proof.Machine Sys2Proof.Claims

/-- Settles O31: on a CAS handle the byte read is the stream byte at the cursor. -/
theorem readbytePacksByBitord : Obligations.ReadbytePacksByBitord := by
  intro s hk
  rw [exec_readbyte_open (isOpen_of_kind hk (by decide))]
  refine ⟨fun hleft hclean => ?_, fun hleft hclean => ?_⟩
  · refine ⟨streamByte s (casIndex s.stream), ?_, fun j hj => streamByte_getLsbD s _ hj, fun haligned => ?_⟩
    · rw [readByteCommand_of_byte (readByte_cas hk s.stream hleft hclean)]
    · rw [casIndex, haligned]
      exact streamByte_aligned s _
  · rw [readByteCommand_of_ended (readByte_cas_ended hk s.stream hleft hclean)]
    rfl

/-- Settles O32: both commands take the same eight bits, and only pack them differently. -/
theorem readbyteReadsTheBitsOfGetbitsEight : Obligations.ReadbyteReadsTheBitsOfGetbitsEight := by
  intro s hopen
  refine ⟨_, _, exec_getbits_open hopen (by decide), exec_readbyte_open hopen, ?_⟩
  rw [show (8#4).toNat = 8 from rfl]
  cases htake : takeBits s 8 s.stream with
  | ended mid t =>
    have hread : readByte s s.stream = .ended mid t := by rw [readByte, htake]
    rw [getBits_of_ended htake, readByteCommand_of_ended hread]
    exact ⟨rfl, by simp, fun j _ => by simp⟩
  | bits bs t =>
    have hlen := takeBits_length htake
    have hread : readByte s s.stream = .byte (packByte (cfgBitord s.handle.act.cfg) bs) t := by rw [readByte, htake]
    rw [getBits_of_bits htake, readByteCommand_of_byte hread]
    refine ⟨rfl, ?_, fun j hj => ?_⟩
    · rw [finish_handle, setResult_handle, toNat_setWidth_word (by decide)]
      exact BitVec.isLt _
    · simp only [finish_handle, setResult_handle, BitVec.getLsbD_setWidth, BitVec.getLsbD_ofNat]
      rw [packByte_getLsbD_packMsb _ hlen hj]
      split <;> simp only [show j < 32 by omega, show 7 - j < 32 by omega, decide_true, Bool.true_and]

end Sys2Proof.Proofs
end

section
/-! PROOFS. The default checksum (43_framing.md R103, R111): a sum of bytes, so a change of one summand changes it. -/

namespace Sys2Proof.Machine

theorem ofNat_sum_toNat (l : List Byte) : BitVec.ofNat 8 (l.map BitVec.toNat).sum = l.sum := by
  induction l with
  | nil => rfl
  | cons b l ih => rw [List.map_cons, List.sum_cons, List.sum_cons, BitVec.ofNat_add, BitVec.ofNat_toNat, ih, BitVec.setWidth_eq]

/-- The default checksum as a sum of bytes. -/
theorem checksum_sum8 {p : Config.Params} (h : p.checksum = .sum8) (typ len : Byte) (payload : List Byte) :
    checksum p typ len payload = typ + len + payload.sum := by
  simp only [checksum, h, BitVec.ofNat_add, BitVec.ofNat_toNat, BitVec.setWidth_eq, ofNat_sum_toNat]

theorem flip_ne_self (b : Byte) {j : Nat} (hj : j < 8) : b ^^^ (1#8 <<< j) ≠ b := by
  intro heq
  have hbit := congrArg (BitVec.getLsbD · j) heq
  simp [hj] at hbit

/-- Another byte in one place changes the sum of a list. -/
theorem sum_set_ne {l : List Byte} {i : Nat} {b c : Byte} (hi : l[i]? = some b) (hc : c ≠ b) : (l.set i c).sum ≠ l.sum := by
  obtain ⟨hlt, rfl⟩ := List.getElem?_eq_some_iff.mp hi
  have hset : l.sum = (l.set i l[i]).sum := by rw [List.set_getElem_self]
  rw [hset, List.sum_set, List.sum_set, if_pos hlt, if_pos hlt]
  exact fun heq => hc (add_left_cancel (add_right_cancel heq))

end Sys2Proof.Machine

namespace Sys2Proof.Proofs
open Sys2Proof Sys2Proof.Machine Sys2Proof.Claims

/-- Settles O49: a flipped bit gives another byte, and bytes cancel in a sum. -/
theorem singleBitFlipChangesTheChecksum : Obligations.SingleBitFlipChangesTheChecksum := by
  intro p typ len payload j hp hj
  refine ⟨by simp only [checksum, hp, BitVec.toNat_ofNat], ?_⟩
  simp only [checksum_sum8 hp]
  refine ⟨fun heq => ?_, fun heq => ?_, fun i b hi heq => ?_⟩
  · exact flip_ne_self typ hj (add_right_cancel (add_right_cancel heq))
  · exact flip_ne_self len hj (add_left_cancel (add_right_cancel heq))
  · exact sum_set_ne hi (flip_ne_self b hj) (add_left_cancel heq)

end Sys2Proof.Proofs
end

section
/-! PROOFS. SEEKSYNC (43_framing.md R96 to R98): where Seek-Sync stops over the bits the source gives, on either container, and what
GETBITS 1 commands in a row tell of those bits. -/

namespace Sys2Proof.Machine
open Sys2Proof.Claims

/-! ## Commands in a row -/

/-- States that differ in nothing the bit source reads have a handle open together. -/
theorem isOpen_of_source {s s' : State} (h : s'.source = s.source) : s'.isOpen = s.isOpen := by
  have hkind : s'.handle.kind = s.handle.kind := show s'.source.handle.kind = s.source.handle.kind by rw [h]
  rw [State.isOpen, State.isOpen, hkind]

/-- The first of GETBITS 1 commands in a row, apart. -/
theorem bitByBit_succ {k : Nat} {s t : State} {bs : List Bool} (h : bitByBit (k + 1) s = some (bs, t)) :
    ∃ v cs, exec (.getbits 1#4) s = .next v ∧ v.err = .ok ∧ bitByBit k v = some (cs, t) ∧
      bs = v.handle.result.getLsbD 0 :: cs := by
  obtain ⟨v, hv⟩ := exec_next (.getbits 1#4) s
  rw [bitByBit, hv] at h
  simp only at h
  split at h
  · rename_i hok
    split at h
    · rename_i cs u hrest; cases h; exact ⟨v, cs, hv, hok, hrest, rfl⟩
    · cases h
  · cases h

/-- The bits that GETBITS 1 commands in a row return are the next bits of the stream. -/
theorem takeBits_of_bitByBit {k : Nat} {s t : State} {bs : List Bool} (hopen : s.isOpen = true)
    (h : bitByBit k s = some (bs, t)) : takeBits s k s.stream = .bits bs t.stream ∧ t.source = s.source := by
  induction k generalizing s bs with
  | zero => cases h; exact ⟨rfl, rfl⟩
  | succ k ih =>
    obtain ⟨v, cs, hexec, hok, hrest, rfl⟩ := bitByBit_succ h
    cases hbit : nextBit s s.stream with
    | ended mid u =>
      rw [ReadsBits.exec_of_ended (.inr ⟨_, rfl, rfl⟩) hopen hbit] at hexec
      cases hexec
      cases hok
    | bit b u =>
      rw [exec_getbits_one hopen hbit] at hexec
      cases hexec
      obtain ⟨htake, hsource⟩ := ih (by exact hopen) hrest
      rw [takeBits_source] at htake
      replace htake : takeBits s.source k u = .bits cs t.stream := htake
      rw [← takeBits_source] at htake
      refine ⟨?_, hsource⟩
      simp only [takeBits, hbit, htake]
      cases b <;> simp

/-- A GETBITS 1 that reports an error met the end of the stream. -/
theorem nextBit_of_getbits_one_failed {s u : State} (hopen : s.isOpen = true) (h : exec (.getbits 1#4) s = .next u)
    (herr : u.err ≠ .ok) : ∃ mid, nextBit s s.stream = .ended mid u.stream := by
  cases hbit : nextBit s s.stream with
  | ended mid t =>
    rw [ReadsBits.exec_of_ended (.inr ⟨_, rfl, rfl⟩) hopen hbit] at h
    cases h
    exact ⟨mid, rfl⟩
  | bit b t =>
    rw [exec_getbits_one hopen hbit] at h
    cases h
    exact absurd rfl herr

/-! ## Seek-Sync over a run of bits -/

theorem endsInSync_iff (s : State) (bs : List Bool) :
    EndsInSync s bs ↔ (last16 bs).length = 16 ∧ last16 bs = syncPattern s := by
  rw [syncPattern_eq]
  constructor
  · rintro ⟨hlen, hbits⟩
    have hlast : (last16 bs).length = 16 := by rw [last16, List.length_drop]; omega
    refine ⟨hlast, List.ext_getElem? fun j => ?_⟩
    by_cases hj : j < 16
    · rw [last16, List.getElem?_drop, hbits j hj]
      simp [hj]
    · rw [List.getElem?_eq_none (by omega), List.getElem?_eq_none (by simpa using hj)]
  · rintro ⟨hlen, heq⟩
    refine ⟨by rw [last16, List.length_drop] at hlen; omega, fun j hj => ?_⟩
    rw [← List.getElem?_drop, ← last16, heq]
    simp [hj]

/-- The last bit of a read, apart. -/
theorem takeBits_concat {s : State} {t u : Stream} {bs : List Bool} {b : Bool}
    (h : takeBits s (bs ++ [b]).length t = .bits (bs ++ [b]) u) :
    ∃ v, takeBits s bs.length t = .bits bs v ∧ nextBit s v = .bit b u := by
  rw [List.length_append, takeBits_add] at h
  cases htake : takeBits s bs.length t with
  | ended mid v => simp [htake] at h
  | bits cs v =>
    cases hbit : nextBit s v with
    | ended mid w => simp [htake, hbit, takeBits] at h
    | bit c w =>
      simp only [htake, hbit, takeBits, List.length_singleton, BitsRead.bits.injEq] at h
      obtain ⟨happend, rfl⟩ := h
      obtain ⟨rfl, hc⟩ := List.append_inj happend (takeBits_length htake)
      cases hc
      exact ⟨v, rfl, hbit⟩

section
variable {s : State} {t u : Stream} {bs : List Bool}

/-- Seek-Sync goes on past a run of bits within the bound in which no pattern ends. -/
theorem seekSync_of_run (htake : takeBits s bs.length t = .bits bs u) (hbound : WithinBound s bs.length)
    (hnone : ∀ j, j ≤ bs.length → ¬ EndsInSync s (bs.take j)) :
    seekSync s t = seekSyncLoop s (bitsLeft s t + 1) (last16 bs) bs.length u := by
  have hrun := loop_run bs (bitsLeft s t + 1) [] t u htake (by simpa [WithinBound] using hbound)
    (fun j _ hj => by simpa [← endsInSync_iff] using hnone j hj)
  simp only [List.nil_append] at hrun
  rw [← hrun]
  exact (seekSyncLoop_fuel s _ _ _ t (by omega)).symm

/-- No bit short of the bound ends a scan for it. -/
theorem not_at_bound {k m : Nat} (h : WithinBound s m) (hk : k < m) :
    ¬ (s.handle.act.scanMax ≠ 0#32 ∧ k = s.handle.act.scanMax.toNat) := by
  rintro ⟨hne, heq⟩
  obtain hzero | hle := h
  · exact hne hzero
  · omega

theorem seekSync_found_of_bits (htake : takeBits s bs.length t = .bits bs u) (hbound : WithinBound s bs.length)
    (hnone : ∀ j, j < bs.length → ¬ EndsInSync s (bs.take j)) (hsync : EndsInSync s bs) :
    seekSync s t = ⟨.found, bs.length, u⟩ := by
  obtain rfl | ⟨cs, b, rfl⟩ := bs.eq_nil_or_concat'
  · exact absurd hsync.1 (by simp)
  · obtain ⟨v, hinit, hlast⟩ := takeBits_concat htake
    have hlen : (cs ++ [b]).length = cs.length + 1 := by simp
    rw [hlen] at hbound hnone ⊢
    have hbefore : ∀ j, j ≤ cs.length → ¬ EndsInSync s (cs.take j) := fun j hj => by
      rw [← List.take_append_of_le_length hj]
      exact hnone j (by omega)
    have hwithin : WithinBound s cs.length := hbound.imp_right (by omega)
    rw [seekSync_of_run hinit hwithin hbefore, seekSyncLoop, if_neg (not_at_bound hbound (Nat.lt_succ_self _)), hlast]
    simp only
    rw [slide_last16, if_pos ((endsInSync_iff s _).mp hsync)]

theorem seekSync_bound_of_bits (htake : takeBits s bs.length t = .bits bs u) (hbound : bs.length = s.handle.act.scanMax.toNat)
    (hpos : bs.length ≠ 0) (hnone : ∀ j, j ≤ bs.length → ¬ EndsInSync s (bs.take j)) :
    seekSync s t = ⟨.bound, bs.length, u⟩ := by
  have hne : s.handle.act.scanMax ≠ 0#32 := fun hzero => hpos (by rw [hbound, hzero]; rfl)
  rw [seekSync_of_run htake (.inr hbound.le) hnone, seekSyncLoop, if_pos ⟨hne, hbound⟩]

theorem seekSync_end_of_bits (htake : takeBits s bs.length t = .bits bs u)
    (hbound : s.handle.act.scanMax = 0#32 ∨ bs.length < s.handle.act.scanMax.toNat)
    (hnone : ∀ j, j ≤ bs.length → ¬ EndsInSync s (bs.take j)) {mid : Bool} {v : Stream} (hend : nextBit s u = .ended mid v) :
    seekSync s t = ⟨.atEnd, bs.length, v⟩ := by
  have hwithin : WithinBound s (bs.length + 1) := hbound
  rw [seekSync_of_run htake (hwithin.imp_right (by omega)) hnone, seekSyncLoop,
    if_neg (not_at_bound hwithin (Nat.lt_succ_self _)), hend]

end

/-! ## The answer of SEEKSYNC -/

section
variable {s : State} {k : Nat} {t : Stream}

theorem seekSyncCommand_of_found (h : seekSync s s.stream = ⟨.found, k, t⟩) :
    seekSyncCommand s = finish .ok (soughtTo k t s) := by
  rw [seekSyncCommand, h]
  rfl

theorem seekSyncCommand_of_atEnd (h : seekSync s s.stream = ⟨.atEnd, k, t⟩) :
    seekSyncCommand s = finish .atEnd (setEof true (soughtTo k t s)) := by
  rw [seekSyncCommand, h]
  rfl

theorem seekSyncCommand_of_bound (h : seekSync s s.stream = ⟨.bound, k, t⟩) :
    seekSyncCommand s = fail .eFraming 1#4 (soughtTo k t s) := by
  rw [seekSyncCommand, h]
  rfl

end

end Sys2Proof.Machine

namespace Sys2Proof.Proofs
open Sys2Proof Sys2Proof.Machine Sys2Proof.Claims

/-- Settles O39: Seek-Sync passes over the bits before the first marker, and the bits are the image's on a CAS handle and those of
GETBITS 1 on either container. -/
theorem seeksyncFindsTheFirstMarker : Obligations.SeeksyncFindsTheFirstMarker := by
  refine ⟨fun s hk => ?_, fun s t k bs hopen hbits hnone => ?_⟩
  · rw [exec_seeksync_open (isOpen_of_kind hk (by decide))]
    refine ⟨fun k hclean hfirst hleft hbound => ?_, fun k hclean hbound hpos hleft hnone => ?_, fun hclean hbound hnone => ?_⟩
    · have hlong := hfirst.1.1
      rw [casLeft] at hleft
      rw [seekSyncCommand_of_found (seekSync_found hk _ hfirst (by omega) hclean hbound)]
    · rw [casLeft] at hleft
      rw [seekSyncCommand_of_bound (seekSync_bound hk _ hpos hbound hnone (by omega) hclean)]
    · rw [seekSyncCommand_of_atEnd (seekSync_end hk _ hbound hnone hclean)]
      rfl
  · obtain ⟨htake, hsource⟩ := takeBits_of_bitByBit hopen hbits
    obtain rfl : bs.length = k := takeBits_length htake
    rw [exec_seeksync_open hopen]
    have hall : ¬ EndsInSync s bs → ∀ j, j ≤ bs.length → ¬ EndsInSync s (bs.take j) := fun hlast j hj => by
      obtain hlt | rfl := hj.lt_or_eq
      · exact hnone j hlt
      · rwa [List.take_length]
    refine ⟨fun hsync hbound => ?_, fun hlast hbound hpos => ?_, fun hlast hbound u hu herr => ?_⟩
    · rw [seekSyncCommand_of_found (seekSync_found_of_bits htake hbound hnone hsync)]
    · rw [seekSyncCommand_of_bound (seekSync_bound_of_bits htake hbound hpos (hall hlast))]
    · obtain ⟨mid, hend⟩ := nextBit_of_getbits_one_failed ((isOpen_of_source hsource).trans hopen) hu herr
      rw [nextBit_source, hsource, ← nextBit_source] at hend
      rw [seekSyncCommand_of_atEnd (seekSync_end_of_bits htake hbound (hall hlast) hend)]

end Sys2Proof.Proofs
end

section
/-! PROOFS. NEXTBLOCK (43_framing.md R97 to R107): a block attempt by what Seek-Sync and the bytes after it give, on either
container; the bytes are the image's on a CAS handle and those of READBYTE commands in a row on either. -/

namespace Sys2Proof.Machine
open Sys2Proof.Claims

/-! ## The attempt by what Seek-Sync answers -/

section
variable {s : State} {k : Nat} {t u : Stream}

theorem blockAttempt_of_atEnd (h : seekSync s t = ⟨.atEnd, k, u⟩) :
    blockAttempt s t = ⟨.atEnd, Held.empty, BitVec.ofNat 32 k, u⟩ := by
  rw [blockAttempt, h]

theorem blockAttempt_of_bound (h : seekSync s t = ⟨.bound, k, u⟩) :
    blockAttempt s t = ⟨.failed .eFraming 1#4, Held.empty, BitVec.ofNat 32 k, u⟩ := by
  rw [blockAttempt, h]

theorem blockAttempt_of_found (h : seekSync s t = ⟨.found, k, u⟩) :
    blockAttempt s t = readFrame s (BitVec.ofNat 32 k) u := by
  rw [blockAttempt, h]

end

theorem confirmTrailer_scanCount (s : State) (held : Held) (scan : Word) (t : Stream) :
    (confirmTrailer s held scan t).scanCount = scan := by
  rw [confirmTrailer]
  cases readByte s t with
  | ended mid u => rfl
  | byte b u => dsimp only; split <;> rfl

theorem verifyBlock_scanCount (s : State) (held : Held) (scan : Word) (t : Stream) :
    (verifyBlock s held scan t).scanCount = scan := by
  simp only [verifyBlock]
  split
  · exact confirmTrailer_scanCount s _ scan t
  · rfl

/-- The frame does not change the count of its scan (43_framing.md R97). -/
theorem readFrame_scanCount (s : State) (scan : Word) (t : Stream) : (readFrame s scan t).scanCount = scan := by
  rw [readFrame]
  cases readByte s t with
  | ended mid u => rfl
  | byte typ u =>
    dsimp only
    cases readByte s u with
    | ended mid v => rfl
    | byte len v =>
      dsimp only
      rcases readPayload s len.toNat 0 Held.empty.buf v with ⟨_ | _, buf, w⟩
      · rfl
      · dsimp only
        cases readByte s w with
        | ended mid x => rfl
        | byte rx x => exact verifyBlock_scanCount s _ scan x

/-! ## A frame over a run of bytes -/

/-- The held block of a frame read up to its checksum byte (43_framing.md R99 to R104). -/
def checkedHeld (p : Config.Params) (typ len rx : Byte) (payload : List Byte) (valid : Bool) : Held where
  valid := valid
  blkType := typ
  blkLen := len
  csumRx := rx
  csumCalc := checksum p typ len payload
  buf := Vector.ofFn fun i : Fin 256 => payload.getD i.val 0#8

/-- The payload that Verify sums is the payload read (43_framing.md R103, R104). -/
theorem take_payload {payload : List Byte} {n : Nat} (hlen : payload.length = n) (hmax : n ≤ 256) :
    (Vector.ofFn fun i : Fin 256 => payload.getD i.val 0#8).toList.take n = payload := by
  apply List.ext_getElem
  · simpa [hlen] using hmax
  · intro i hi hi'
    simp [hi']

section
variable {s : State} {scan : Word} {t u : Stream} {typ len rx : Byte} {payload : List Byte}

/-- Read-Header, Read-Payload and the checksum byte over the bytes of a frame, and Verify (43_framing.md R99 to R104). -/
theorem readFrame_of_bytes (hlen : payload.length = len.toNat)
    (hread : readN s (len.toNat + 3) t = some (typ :: len :: (payload ++ [rx]), u)) :
    readFrame s scan t =
      if rx = checksum s.params typ len payload then
        confirmTrailer s (checkedHeld s.params typ len rx payload false) scan u
      else ⟨.failed .eChecksum 0#4, checkedHeld s.params typ len rx payload false, scan, u⟩ := by
  have hmax := len.isLt
  rw [show len.toNat + 3 = 1 + (1 + (len.toNat + 1)) by omega] at hread
  obtain ⟨t1, htyp, hread⟩ := readN_add _ _ _ _ _ _ hread
  obtain ⟨t2, hlength, hread⟩ := readN_add _ _ _ _ _ _ hread
  obtain ⟨t3, hpayload, hrx⟩ := readN_add _ _ _ _ _ _ hread
  simp only [List.drop_succ_cons, List.drop_zero, List.take_left' hlen, List.drop_left' hlen] at hpayload hrx
  obtain ⟨hbuf, -⟩ := readPayload_readN s len.toNat 0 Held.empty.buf t2 t3 payload hpayload (by omega)
  rw [fillList_empty] at hbuf
  simp only [readFrame, readN_one htyp, readN_one hlength, hbuf, readN_one hrx, verifyBlock, take_payload hlen (by omega)]
  rfl

variable {held : Held}

theorem confirmTrailer_of_ended {mid : Bool} (h : readByte s t = .ended mid u) :
    confirmTrailer s held scan t = ⟨.failed .eEos 3#4, held, scan, u⟩ := by
  rw [confirmTrailer, h]

theorem confirmTrailer_wrong {b : Byte} (h : readByte s t = .byte b u) (hb : b ≠ s.params.trailer) :
    confirmTrailer s held scan t = ⟨.failed .eTrailer 0#4, held, scan, u⟩ := by
  rw [confirmTrailer, h]
  exact if_neg hb

theorem confirmTrailer_right (h : readByte s t = .byte s.params.trailer u) :
    confirmTrailer s held scan t = ⟨.valid, { held with valid := true }, scan, u⟩ := by
  rw [confirmTrailer, h]
  exact if_pos rfl

end

/-- From the stream t Seek-Sync finds a marker k bits on, and the bytes of a frame up to its checksum byte follow it, the
stream u being left. -/
structure FrameRead (s : State) (t : Stream) (k : Nat) (typ len rx : Byte) (payload : List Byte) (u : Stream) : Prop where
  length : payload.length = len.toNat
  bytes : ∃ v, seekSync s t = ⟨.found, k, v⟩ ∧ readN s (len.toNat + 3) v = some (typ :: len :: (payload ++ [rx]), u)

section
variable {s : State} {t u w : Stream} {k : Nat} {typ len rx : Byte} {payload : List Byte}
  (h : FrameRead s t k typ len rx payload u)
include h

theorem FrameRead.wrong_checksum (hne : rx ≠ checksum s.params typ len payload) : blockAttempt s t =
    ⟨.failed .eChecksum 0#4, checkedHeld s.params typ len rx payload false, BitVec.ofNat 32 k, u⟩ := by
  obtain ⟨v, hsync, hread⟩ := h.bytes
  rw [blockAttempt_of_found hsync, readFrame_of_bytes h.length hread, if_neg hne]

/-- A right checksum leads to Confirm-Trailer. -/
theorem FrameRead.right_checksum (heq : rx = checksum s.params typ len payload) : blockAttempt s t =
    confirmTrailer s (checkedHeld s.params typ len rx payload false) (BitVec.ofNat 32 k) u := by
  obtain ⟨v, hsync, hread⟩ := h.bytes
  rw [blockAttempt_of_found hsync, readFrame_of_bytes h.length hread, if_pos heq]

theorem FrameRead.valid (heq : rx = checksum s.params typ len payload) (htr : readByte s u = .byte s.params.trailer w) :
    blockAttempt s t = ⟨.valid, checkedHeld s.params typ len rx payload true, BitVec.ofNat 32 k, w⟩ := by
  rw [h.right_checksum heq, confirmTrailer_right htr]
  rfl

end

/-! ## The answer of NEXTBLOCK -/

section
variable {s : State} {a : Attempt} (h : blockAttempt s s.stream = a)
include h

theorem nextBlockCommand_of_failed {c : Code} {d : BitVec 4} (ha : a.outcome = .failed c d) :
    nextBlockCommand s = fail c d (applyAttempt a (setResult 0#32 s)) := by
  simp only [nextBlockCommand, h, ha]

theorem nextBlockCommand_of_atEnd (ha : a.outcome = .atEnd) :
    nextBlockCommand s = finish .atEnd (setEof true (applyAttempt a (setResult 0#32 s))) := by
  simp only [nextBlockCommand, h, ha]

theorem nextBlockCommand_of_valid (ha : a.outcome = .valid) :
    nextBlockCommand s = finish .ok (setResult (0#16 ++ a.held.blkLen ++ a.held.blkType)
      (setEof (decide (a.held.blkType = s.params.eofType)) (applyAttempt a (setResult 0#32 s)))) := by
  simp only [nextBlockCommand, h, ha]
  rfl

theorem nextBlockCommand_scanCount : (nextBlockCommand s).handle.scanCount = a.scanCount := by
  cases ha : a.outcome with
  | valid => rw [nextBlockCommand_of_valid h ha]; rfl
  | atEnd => rw [nextBlockCommand_of_atEnd h ha]; rfl
  | failed c d => rw [nextBlockCommand_of_failed h ha]; rfl

end

/-! ## The frame of a CAS handle -/

/-- `ReadByte()` n bits on from a cursor with 8 bits left there. -/
theorem readByte_advance {s : State} (hk : s.handle.kind = .cas) {t : Stream} {n : Nat} (h : casIndex t + n + 8 ≤ casEnd s)
    (hc : CleanBits s (casIndex t) (n + 8)) :
    readByte s (advance t n) = .byte (streamByte s (casIndex t + n)) (advance t (n + 8)) := by
  have hmax := casEnd_le s
  have hindex : casIndex (advance t n) = casIndex t + n := casIndex_advance (by omega)
  rw [readByte_cas hk _ (by omega) (cleanBits_sub hc (by omega) (by omega)), hindex, advance_advance (by omega)]

/-- `ReadByte()` n bits on with fewer than 8 left there. -/
theorem readByte_advance_ended {s : State} (hk : s.handle.kind = .cas) {t : Stream} {n : Nat} (h : casIndex t + n ≤ casEnd s)
    (hshort : casEnd s < casIndex t + n + 8) (hc : CleanBits s (casIndex t) (casEnd s - casIndex t)) :
    readByte s (advance t n) = .ended false (advance t (casEnd s - casIndex t)) := by
  have hmax := casEnd_le s
  have hindex : casIndex (advance t n) = casIndex t + n := casIndex_advance (by omega)
  rw [readByte_cas_ended hk _ (by omega) (cleanBits_sub hc (by omega) (by omega)), hindex, advance_advance (by omega),
    show n + (casEnd s - (casIndex t + n)) = casEnd s - casIndex t by omega]

theorem readN_cas {s : State} (hk : s.handle.kind = .cas) (n : Nat) (t : Stream) (h : casIndex t + 8 * n ≤ casEnd s)
    (hc : CleanBits s (casIndex t) (8 * n)) :
    readN s n t = some ((List.range n).map fun i => streamByte s (casIndex t + 8 * i), advance t (8 * n)) := by
  have hmax := casEnd_le s
  induction n generalizing t with
  | zero => simp [readN, advance_zero]
  | succ n ih =>
    have hnext : casIndex (advance t 8) = casIndex t + 8 := casIndex_advance (by omega)
    have hrest := ih (advance t 8) (by omega) (cleanBits_sub hc (by omega) (by omega))
    rw [hnext, advance_advance (by omega)] at hrest
    simp only [readN, readByte_cas hk t (by omega) (cleanBits_sub hc le_rfl (by omega)), hrest, Option.some.injEq,
      Prod.mk.injEq]
    refine ⟨?_, by rw [Nat.mul_succ, Nat.add_comm]⟩
    rw [List.range_succ_eq_map, List.map_cons, List.map_map, Nat.mul_zero, Nat.add_zero]
    congr 1
    refine List.map_congr_left fun i _ => ?_
    rw [Function.comp_apply, Nat.succ_eq_add_one, Nat.mul_succ, Nat.add_assoc, Nat.add_comm 8]

theorem getD_map_range (f : Nat → Byte) (n i : Nat) :
    ((List.range n).map f).getD i 0#8 = if i < n then f i else 0#8 := by
  split <;> rename_i hi <;> simp [hi]

/-- The bytes of a frame, from its type to its checksum. -/
theorem frame_bytes (s : State) (c n : Nat) : (List.range (n + 3)).map (fun i => streamByte s (c + 8 * i)) =
    streamByte s c :: streamByte s (c + 8) ::
      ((List.range n).map (fun i => streamByte s (c + 16 + 8 * i)) ++ [streamByte s (c + 16 + 8 * n)]) := by
  rw [List.range_succ_eq_map, List.map_cons, List.range_succ_eq_map, List.map_cons, List.map_cons, List.map_map, List.map_map,
    List.range_succ, List.map_append]
  have hshift : ∀ i, c + 8 * (i + 1 + 1) = c + 16 + 8 * i := by omega
  simp only [Function.comp_def, Nat.succ_eq_add_one, hshift, List.map_cons, List.map_nil]
  rfl

theorem frameHeld_eq_checkedHeld (s : State) (c : Nat) (valid : Bool) : frameHeld s c valid =
    checkedHeld s.params (streamByte s c) (streamByte s (c + 8)) (streamByte s (c + 16 + 8 * (streamByte s (c + 8)).toNat))
      (framePayload s c) valid := by
  rw [frameHeld, checkedHeld, Held.mk.injEq]
  refine ⟨rfl, rfl, rfl, rfl, rfl, Vector.ext fun i hi => ?_⟩
  simp only [Vector.getElem_ofFn, framePayload, getD_map_range]

section
variable {s : State} {k : Nat} (hk : s.handle.kind = .cas) (hfirst : FirstMarker s (casIndex s.stream) k) (hbound : WithinBound s k)
include hk hfirst hbound

/-- Seek-Sync and the n bytes after the marker, on a CAS handle that has them. -/
theorem sync_bytes_cas {n : Nat} (hleft : k + 8 * n ≤ casLeft s) (hclean : CleanBits s (casIndex s.stream) (k + 8 * n)) :
    seekSync s s.stream = ⟨.found, k, advance s.stream k⟩ ∧
    readN s n (advance s.stream k) =
      some ((List.range n).map fun i => streamByte s (casIndex s.stream + k + 8 * i), advance s.stream (k + 8 * n)) := by
  have hmax := casEnd_le s
  have hlong := hfirst.1.1
  rw [casLeft] at hleft
  have hindex : casIndex (advance s.stream k) = casIndex s.stream + k := casIndex_advance (by omega)
  refine ⟨seekSync_found hk _ hfirst (by omega) (cleanBits_sub hclean le_rfl (by omega)) hbound, ?_⟩
  rw [readN_cas hk n _ (by omega) (cleanBits_sub hclean (by omega) (by omega)), hindex, advance_advance (by omega)]

/-- A frame whose bytes the image holds up to its checksum. -/
theorem frameRead_cas {c : Nat} (hc : c = casIndex s.stream + k) {body : Nat}
    (hbody : body = k + 24 + 8 * (streamByte s (c + 8)).toNat) (hleft : body ≤ casLeft s)
    (hclean : CleanBits s (casIndex s.stream) body) :
    FrameRead s s.stream k (streamByte s c) (streamByte s (c + 8)) (streamByte s (c + 16 + 8 * (streamByte s (c + 8)).toNat))
      (framePayload s c) (advance s.stream body) := by
  have hsplit : body = k + 8 * ((streamByte s (c + 8)).toNat + 3) := by omega
  rw [hsplit] at hleft hclean ⊢
  obtain ⟨hsync, hread⟩ := sync_bytes_cas hk hfirst hbound hleft hclean
  refine ⟨by simp [framePayload], _, hsync, ?_⟩
  rw [hread, ← hc, frame_bytes]
  rfl

end

/-- The fields of a frame cut short, as the whole bytes before the cut (43_framing.md R99). -/
theorem truncatedHeld_eq_cutHeld {s : State} {c left : Nat}
    (hcut : left < 16 ∨ left < 24 + 8 * (streamByte s (c + 8)).toNat) :
    truncatedHeld s c left = cutHeld ((List.range (left / 8)).map fun i => streamByte s (c + 8 * i)) := by
  have hwhole : ∀ i, i < left / 8 ↔ 8 * i + 8 ≤ left := by omega
  simp only [truncatedHeld, cutHeld, getD_map_range, hwhole, Nat.mul_zero, Nat.zero_add, Nat.add_zero, Nat.mul_one]
  rw [Held.mk.injEq]
  refine ⟨rfl, rfl, rfl, rfl, rfl, Vector.ext fun i hi => ?_⟩
  simp only [Vector.getElem_ofFn]
  by_cases hlast : 8 * (i + 2) + 8 ≤ left
  · rw [if_pos hlast, if_pos (show 16 ≤ left by omega), if_pos (by omega), Nat.mul_add, Nat.add_comm (8 * i), Nat.add_assoc]
  · rw [if_neg hlast, if_neg (by omega)]

/-! ## READBYTE commands after a SEEKSYNC -/

/-- The state after a SEEKSYNC that found the marker k bits on, and READBYTEs that left the result r and the stream u. -/
def afterSync (k : Nat) (r : Word) (u : Stream) (s : State) : State :=
  finish .ok (setResult r (setScanCount (BitVec.ofNat 32 k) (setStream u s)))

/-- A SEEKSYNC that reports OK found the marker. -/
theorem seekSync_of_exec_ok {s t : State} (hopen : s.isOpen = true) (h : exec .seeksync s = .next t) (hok : t.err = .ok) :
    ∃ k u, seekSync s s.stream = ⟨.found, k, u⟩ ∧ t = afterSync k (BitVec.ofNat 32 k) u s := by
  rw [exec_seeksync_open hopen] at h
  cases h
  rcases hsync : seekSync s s.stream with ⟨a, k, u⟩
  cases a with
  | found => exact ⟨k, u, rfl, seekSyncCommand_of_found hsync⟩
  | atEnd => rw [seekSyncCommand_of_atEnd hsync] at hok; cases hok
  | bound => rw [seekSyncCommand_of_bound hsync] at hok; cases hok

section
variable {s : State} (hopen : s.isOpen = true) {k : Nat} {r : Word} {v u : Stream}
include hopen

theorem exec_readbyte_afterSync_of_byte {b : Byte} (h : readByte s v = .byte b u) :
    exec .readbyte (afterSync k r v s) = .next (afterSync k (b.setWidth 32) u s) := by
  rw [readByte_source] at h
  rw [exec_readbyte_open (by exact hopen), readByteCommand_of_byte ((readByte_source _ _).trans h)]
  rfl

theorem exec_readbyte_afterSync_of_ended {mid : Bool} (h : readByte s v = .ended mid u) :
    exec .readbyte (afterSync k r v s) = .next (fail .eEos (eosDetail mid) (afterSync k 0#32 u s)) := by
  rw [readByte_source] at h
  rw [exec_readbyte_open (by exact hopen), readByteCommand_of_ended ((readByte_source _ _).trans h)]
  rfl

/-- A READBYTE after them that reports an error met the end of the stream. -/
theorem readByte_of_exec_failed {t : State} (h : exec .readbyte (afterSync k r v s) = .next t) (herr : t.err ≠ .ok) :
    ∃ mid w, readByte s v = .ended mid w ∧ t = fail .eEos (eosDetail mid) (afterSync k 0#32 w s) := by
  cases hread : readByte s v with
  | ended mid w =>
    rw [exec_readbyte_afterSync_of_ended hopen hread] at h
    cases h
    exact ⟨mid, w, rfl, rfl⟩
  | byte b w =>
    rw [exec_readbyte_afterSync_of_byte hopen hread] at h
    cases h
    exact absurd rfl herr

end

/-- The first of READBYTE commands in a row, apart. -/
theorem readbytes_succ {n : Nat} {s t : State} {bs : List Byte} (h : readbytes (n + 1) s = some (bs, t)) :
    ∃ v cs, exec .readbyte s = .next v ∧ v.err = .ok ∧ readbytes n v = some (cs, t) ∧
      bs = v.handle.result.setWidth 8 :: cs := by
  obtain ⟨v, hv⟩ := exec_next .readbyte s
  rw [readbytes, hv] at h
  simp only at h
  split at h
  · rename_i hok
    split at h
    · rename_i cs u hrest; cases h; exact ⟨v, cs, hv, hok, hrest, rfl⟩
    · cases h
  · cases h

/-- The bytes that READBYTE commands in a row return are the next bytes of the stream. -/
theorem readN_of_readbytes {n k : Nat} {s t : State} {r : Word} {v : Stream} {bs : List Byte} (hopen : s.isOpen = true)
    (h : readbytes n (afterSync k r v s) = some (bs, t)) :
    ∃ r' u, t = afterSync k r' u s ∧ readN s n v = some (bs, u) := by
  induction n generalizing r v bs with
  | zero => cases h; exact ⟨r, v, rfl, rfl⟩
  | succ n ih =>
    obtain ⟨x, cs, hexec, hok, hrest, rfl⟩ := readbytes_succ h
    cases hread : readByte s v with
    | ended mid w =>
      rw [exec_readbyte_afterSync_of_ended hopen hread] at hexec
      cases hexec
      cases hok
    | byte b w =>
      rw [exec_readbyte_afterSync_of_byte hopen hread] at hexec
      cases hexec
      obtain ⟨r', u, rfl, hrestN⟩ := ih hrest
      refine ⟨r', u, rfl, ?_⟩
      simp [readN, hread, hrestN, afterSync]

/-- The second report of one error sets no other sticky bit. -/
theorem fail_setHeld_fail (c : Code) (d e : BitVec 4) (h : Held) (s : State) :
    fail c d (setHeld h (fail c e s)) = fail c d (setHeld h s) := by
  simp only [fail, setHeld, BitVec.or_assoc, BitVec.or_self]

end Sys2Proof.Machine

namespace Sys2Proof.Proofs
open Sys2Proof Sys2Proof.Machine Sys2Proof.Claims

/-- Settles O40: the bytes after the first marker are the image's, so the attempt is that of their frame. -/
theorem nextblockReadsTheFrame : Obligations.NextblockReadsTheFrame := by
  intro s k hk hfirst hbound c h body hleft hclean
  have hlong := hfirst.1.1
  have hbody : body = k + 24 + 8 * (streamByte s (c + 8)).toNat := rfl
  have hframe := frameRead_cas hk hfirst hbound (c := c) rfl hbody hleft (cleanBits_sub hclean le_rfl (by omega))
  have hheld := frameHeld_eq_checkedHeld s c
  rw [exec_nextblock_open (isOpen_of_kind hk (by decide))]
  have htrailer (hmore : body + 8 ≤ casLeft s) : readByte s (advance s.stream body) =
      .byte (streamByte s (casIndex s.stream + body)) (advance s.stream (body + 8)) :=
    readByte_advance hk (by rw [casLeft] at hmore; omega) (cleanBits_sub hclean le_rfl (by omega))
  refine ⟨fun hne => ?_, fun heq hshort => ?_, fun heq hmore hwrong => ?_, fun heq hmore hright => ?_⟩
  · rw [nextBlockCommand_of_failed (hframe.wrong_checksum hne) rfl, ← hheld]
    rfl
  · have hend := readByte_advance_ended hk (n := body) (by rw [casLeft] at hleft; omega) (by rw [casLeft] at hshort; omega)
      (cleanBits_sub hclean le_rfl (by rw [casLeft] at hshort ⊢; omega))
    rw [nextBlockCommand_of_failed ((hframe.right_checksum heq).trans (confirmTrailer_of_ended hend)) rfl, ← hheld]
    rfl
  · rw [nextBlockCommand_of_failed ((hframe.right_checksum heq).trans (confirmTrailer_wrong (htrailer hmore) hwrong)) rfl,
      ← hheld]
    rfl
  · rw [hright] at htrailer
    rw [nextBlockCommand_of_valid (hframe.valid heq (htrailer hmore)) rfl, ← hheld]
    rfl

/-- Settles O41: a frame whose bytes end before its checksum byte, the bytes being the image's or those of READBYTE. -/
theorem nextblockOfATruncatedFrame : Obligations.NextblockOfATruncatedFrame := by
  refine ⟨fun s k hk hclean hfirst hbound hleft hcut => ?_, fun s t0 t1 u n bs hopen hseek hok hbytes hlast herr hshort => ?_⟩
  · have hlong := hfirst.1.1
    have hsplit : k + 8 * ((casLeft s - k) / 8) ≤ casLeft s := by omega
    obtain ⟨hsync, hread⟩ := sync_bytes_cas hk hfirst hbound hsplit (cleanBits_sub hclean le_rfl (by omega))
    have hend := readByte_advance_ended hk (n := k + 8 * ((casLeft s - k) / 8)) (by rw [casLeft] at *; omega)
      (by rw [casLeft] at *; omega) hclean
    have hattempt := (blockAttempt_of_found hsync).trans (frame_cut s (BitVec.ofNat 32 k) _ _ _ _ _ _ hread hend (by
      simp only [getD_map_range, Nat.mul_one]
      split <;> omega))
    rw [exec_nextblock_open (isOpen_of_kind hk (by decide)), nextBlockCommand_of_failed hattempt rfl,
      truncatedHeld_eq_cutHeld (by omega)]
    rfl
  · obtain ⟨k, v, hsync, rfl⟩ := seekSync_of_exec_ok hopen hseek hok
    obtain ⟨r, w, rfl, hread⟩ := readN_of_readbytes hopen hbytes
    obtain ⟨mid, x, hend, rfl⟩ := readByte_of_exec_failed hopen hlast herr
    have hattempt := (blockAttempt_of_found hsync).trans (frame_cut s (BitVec.ofNat 32 k) v w x n bs mid hread hend hshort)
    rw [exec_nextblock_open hopen, nextBlockCommand_of_failed hattempt rfl, fail_setHeld_fail]
    rfl

/-- Settles O42: a block attempt ends with its scan unless the scan finds the marker, and keeps the count if it does. -/
theorem nextblockScansLikeSeeksync : Obligations.NextblockScansLikeSeeksync := by
  intro s t hopen hseek
  rw [exec_seeksync_open hopen] at hseek
  cases hseek
  refine ⟨_, exec_nextblock_open hopen, ?_⟩
  rcases hsync : seekSync s s.stream with ⟨a, k, u⟩
  cases a with
  | found =>
    have hattempt := blockAttempt_of_found hsync
    rw [nextBlockCommand_scanCount hattempt, readFrame_scanCount, seekSyncCommand_of_found hsync]
    exact ⟨rfl, fun herr => absurd rfl herr⟩
  | atEnd =>
    rw [nextBlockCommand_of_atEnd (blockAttempt_of_atEnd hsync) rfl, seekSyncCommand_of_atEnd hsync]
    exact ⟨rfl, fun _ => rfl⟩
  | bound =>
    rw [nextBlockCommand_of_failed (blockAttempt_of_bound hsync) rfl, seekSyncCommand_of_bound hsync]
    exact ⟨rfl, fun _ => rfl⟩

/-- Settles O43: the bytes that READBYTE returns after the marker are those the block attempt reads. -/
theorem nextblockReadsWhatReadbyteReads : Obligations.NextblockReadsWhatReadbyteReads := by
  intro s t0 t1 typ len rx payload hopen hseek hok hlen hbytes sum h
  obtain ⟨k, v, hsync, rfl⟩ := seekSync_of_exec_ok hopen hseek hok
  obtain ⟨r, w, rfl, hread⟩ := readN_of_readbytes hopen hbytes
  have hframe : FrameRead s s.stream k typ len rx payload w := ⟨hlen, v, hsync, hread⟩
  rw [exec_nextblock_open hopen]
  refine ⟨fun hne => ?_, fun heq u hu herr => ?_, fun heq trl t2 htrl => ?_⟩
  · rw [nextBlockCommand_of_failed (hframe.wrong_checksum hne) rfl]
    rfl
  · obtain ⟨mid, x, hend, rfl⟩ := readByte_of_exec_failed hopen hu herr
    rw [nextBlockCommand_of_failed ((hframe.right_checksum heq).trans (confirmTrailer_of_ended hend)) rfl, fail_setHeld_fail]
    rfl
  · obtain ⟨r', x, rfl, htrailer⟩ := readN_of_readbytes hopen htrl
    replace htrailer := readN_one htrailer
    refine ⟨fun hwrong => ?_, fun hright => ?_⟩
    · rw [nextBlockCommand_of_failed ((hframe.right_checksum heq).trans (confirmTrailer_wrong htrailer hwrong)) rfl]
      rfl
    · rw [hright] at htrailer
      rw [nextBlockCommand_of_valid (hframe.valid heq htrailer) rfl]
      rfl

/-- Settles O44: an attempt reads nothing of the held block, and writes all of it. -/
theorem earlierBlockNeverShowsThrough : Obligations.EarlierBlockNeverShowsThrough := by
  intro s h hopen
  have hattempt : blockAttempt (setHeld h s) s.stream = blockAttempt s s.stream := by
    rw [blockAttempt_source, blockAttempt_source s]
    rfl
  rw [exec_nextblock_open hopen, exec_nextblock_open (s := setHeld h s) hopen]
  simp only [nextBlockCommand, setHeld_stream, hattempt]
  cases (blockAttempt s s.stream).outcome <;> rfl

end Sys2Proof.Proofs
end

section
/-! PROOFS. NEXTDIR (43_framing.md R108, R109): one step of its loop by what the block attempt at the cursor gives, and so by what
NEXTBLOCK would leave. -/

namespace Sys2Proof.Machine
open Sys2Proof.Claims

/-- A command that only reads changes nothing that the bit source reads. -/
theorem ReadsOnly.source {s t : State} (h : ReadsOnly s t) : t.source = s.source :=
  source_eq h.params h.mem h.hazard h.kind h.act h.wav

/-! ## The loop -/

section
variable {s : State} {t : Stream}

/-- An attempt without a valid block, or with a directory block, ends the loop. -/
theorem nextDirLoop_stop (h : (blockAttempt s t).outcome = .valid → (blockAttempt s t).held.blkType = Config.dirType) (fuel : Nat) :
    nextDirLoop s fuel t = (blockAttempt s t, t) := by
  cases fuel with
  | zero => rfl
  | succ fuel =>
    rw [nextDirLoop]
    cases ha : (blockAttempt s t).outcome with
    | failed c d => rfl
    | atEnd => rfl
    | valid => exact if_pos (h ha)

/-- A valid block of another type is skipped. -/
theorem nextDirLoop_skip (hv : (blockAttempt s t).outcome = .valid) (ht : (blockAttempt s t).held.blkType ≠ Config.dirType) :
    nextDirLoop s (bitsLeft s t) t =
      nextDirLoop s (bitsLeft s (blockAttempt s t).stream) (blockAttempt s t).stream := by
  have hprogress := blockAttempt_progress hv
  obtain ⟨fuel, hfuel⟩ : ∃ fuel, bitsLeft s t = fuel + 1 := ⟨bitsLeft s t - 1, by omega⟩
  rw [hfuel, nextDirLoop]
  simp only [hv, if_neg ht]
  exact nextDirLoop_fuel s fuel _ (by omega)

end

/-! ## The answer of NEXTDIR -/

/-- The state after an attempt of NEXTDIR, before its report. -/
def dirAttempted (a : Attempt) (s : State) : State := applyAttempt a (setDir DirEntry.empty (setResult 0#32 s))

section
variable {s : State} {a : Attempt} {cand : Stream} (h : nextDirLoop s (bitsLeft s s.stream) s.stream = (a, cand))
include h

theorem nextDirCommand_of_failed {c : Code} {d : BitVec 4} (ha : a.outcome = .failed c d) :
    nextDirCommand s = fail c d (dirAttempted a s) := by
  simp only [nextDirCommand, h, ha]
  rfl

theorem nextDirCommand_of_atEnd (ha : a.outcome = .atEnd) :
    nextDirCommand s = finish .atEnd (setEof true (dirAttempted a s)) := by
  simp only [nextDirCommand, h, ha]
  rfl

theorem nextDirCommand_of_short (ha : a.outcome = .valid) (hlen : a.held.blkLen.toNat < 15) :
    nextDirCommand s = fail .eDirfmt 0#4 (dirAttempted a s) := by
  simp only [nextDirCommand, h, ha]
  exact if_pos hlen

theorem nextDirCommand_of_entry (ha : a.outcome = .valid) (hlen : 15 ≤ a.held.blkLen.toNat) :
    nextDirCommand s = finish .ok (setResult (a.held.buf[8].setWidth 32) (setEof false (setSof cand.pos cand.posBit
      (setDir (decodeDir a.held.buf) (dirAttempted a s))))) := by
  simp only [nextDirCommand, h, ha]
  exact if_neg (Nat.not_lt.mpr hlen)

end

/-- The attempt at the cursor decides NEXTDIR unless it reads a valid block of another type. -/
theorem nextDirLoop_of_attempt {s : State} {a : Attempt} (h : blockAttempt s s.stream = a)
    (hstop : a.outcome = .valid → a.held.blkType = Config.dirType) :
    nextDirLoop s (bitsLeft s s.stream) s.stream = (a, s.stream) := by
  subst h
  exact nextDirLoop_stop hstop _

/-- NEXTDIR overwrites all that a NEXTBLOCK that read a block changed, but EOF. -/
theorem dirAttempted_after_nextBlock {s : State} (h : (blockAttempt s s.stream).outcome = .valid) (a : Attempt) :
    dirAttempted a (setEof s.handle.eof (nextBlockCommand s)) = finish .ok (dirAttempted a s) := by
  rw [nextBlockCommand_of_valid rfl h]
  simp only [dirAttempted, applyAttempt, setEof, setResult, setDir, setHeld, setScanCount, setStream, finish]

/-- NEXTDIR does the same from a state with the same loop that differs in what it overwrites alone. -/
theorem nextDirCommand_congr {s s' : State}
    (hloop : nextDirLoop s' (bitsLeft s' s'.stream) s'.stream = nextDirLoop s (bitsLeft s s.stream) s.stream)
    (hstate : ∀ a, dirAttempted a s' = finish .ok (dirAttempted a s)) : nextDirCommand s' = nextDirCommand s := by
  rcases hs : nextDirLoop s (bitsLeft s s.stream) s.stream with ⟨a, cand⟩
  rw [hs] at hloop
  cases ha : a.outcome with
  | failed c d => rw [nextDirCommand_of_failed hs ha, nextDirCommand_of_failed hloop ha, hstate]; rfl
  | atEnd => rw [nextDirCommand_of_atEnd hs ha, nextDirCommand_of_atEnd hloop ha, hstate]; rfl
  | valid =>
    obtain hlen | hlen := Nat.lt_or_ge a.held.blkLen.toNat 15
    · rw [nextDirCommand_of_short hs ha hlen, nextDirCommand_of_short hloop ha hlen, hstate]; rfl
    · rw [nextDirCommand_of_entry hs ha hlen, nextDirCommand_of_entry hloop ha hlen, hstate]; rfl

/-! ## What NEXTBLOCK's report tells of the attempt -/

/-- A NEXTBLOCK that reports OK read a valid block. -/
theorem attempt_of_nextBlock_ok {s : State} (h : (nextBlockCommand s).err = .ok) : (blockAttempt s s.stream).outcome = .valid := by
  cases ha : (blockAttempt s s.stream).outcome with
  | valid => rfl
  | atEnd => rw [nextBlockCommand_of_atEnd rfl ha] at h; cases h
  | failed c d =>
    rw [nextBlockCommand_of_failed rfl ha] at h
    have hcode := ((blockAttempt_spec s s.stream).failed_legal ha).1
    rw [show c = .ok from h] at hcode
    cases hcode

end Sys2Proof.Machine

namespace Sys2Proof.Proofs
open Sys2Proof Sys2Proof.Machine Sys2Proof.Claims

/-- Settles O45: the first attempt reads the frame of the image, a directory block. -/
theorem nextdirReadsTheDirectoryFrame : Obligations.NextdirReadsTheDirectoryFrame := by
  intro s k hk hfirst hbound c h body hleft hclean hsum htrailer htype hlen
  have hlong := hfirst.1.1
  have hbody : body = k + 24 + 8 * (streamByte s (c + 8)).toNat := rfl
  have hframe := frameRead_cas hk hfirst hbound (c := c) rfl hbody (by omega) (cleanBits_sub hclean le_rfl (by omega))
  have htrl := readByte_advance hk (t := s.stream) (n := body) (by rw [casLeft] at hleft; omega) hclean
  rw [htrailer] at htrl
  have hattempt := hframe.valid hsum htrl
  rw [← frameHeld_eq_checkedHeld] at hattempt
  rw [exec_nextdir_open (isOpen_of_kind hk (by decide)),
    nextDirCommand_of_entry (nextDirLoop_of_attempt hattempt fun _ => htype) rfl hlen]
  rfl

/-- Settles O46: NEXTBLOCK's valid block is the attempt that ends NEXTDIR's loop. -/
theorem nextdirDecodesADirectoryBlock : Obligations.NextdirDecodesADirectoryBlock := by
  intro s b hopen hb hok h htype hlen
  rw [exec_nextblock_open hopen] at hb
  cases hb
  have hvalid := attempt_of_nextBlock_ok hok
  have hh : h = (blockAttempt s s.stream).held := by
    show (nextBlockCommand s).handle.held = _
    rw [nextBlockCommand_of_valid rfl hvalid]
    rfl
  rw [hh] at htype hlen ⊢
  refine ⟨_, exec_nextdir_open hopen, ?_⟩
  rw [nextDirCommand_of_entry (nextDirLoop_of_attempt rfl fun _ => htype) hvalid hlen, nextBlockCommand_of_valid rfl hvalid]
  exact ⟨rfl, rfl, rfl, rfl, rfl, rfl, rfl, rfl, rfl, rfl, rfl, rfl, rfl, rfl⟩

/-- Settles O47: the loop goes on from the stream that NEXTBLOCK leaves, and NEXTDIR overwrites what else NEXTBLOCK changed. -/
theorem nextdirSkipsOtherBlocks : Obligations.NextdirSkipsOtherBlocks := by
  intro s b hopen hb hok htype
  rw [exec_nextblock_open hopen] at hb
  cases hb
  have hvalid := attempt_of_nextBlock_ok hok
  have hsource : (setEof s.handle.eof (nextBlockCommand s)).source = s.source := (nextBlockCommand_readsOnly s).source
  have hstream : (setEof s.handle.eof (nextBlockCommand s)).stream = (blockAttempt s s.stream).stream := by
    rw [setEof_stream, nextBlockCommand_of_valid rfl hvalid]
    rfl
  rw [nextBlockCommand_of_valid rfl hvalid] at htype
  rw [exec_nextdir_open hopen, exec_nextdir_open ((isOpen_of_source hsource).trans hopen)]
  refine congrArg _ (nextDirCommand_congr ?_ (dirAttempted_after_nextBlock hvalid)).symm
  rw [nextDirLoop_skip hvalid htype, hstream, nextDirLoop_source, bitsLeft_source, hsource, ← nextDirLoop_source,
    ← bitsLeft_source]

/-- Settles O48: an attempt that ends NEXTBLOCK without a valid block ends NEXTDIR too, and a short directory block fails. -/
theorem nextdirStopsWithoutAnEntry : Obligations.NextdirStopsWithoutAnEntry := by
  intro s b hopen hb
  rw [exec_nextblock_open hopen] at hb
  cases hb
  rw [exec_nextdir_open hopen]
  refine ⟨fun herr => ?_, fun hok htype hlen => ?_⟩
  · cases ha : (blockAttempt s s.stream).outcome with
    | valid => rw [nextBlockCommand_of_valid rfl ha] at herr; exact absurd rfl herr
    | atEnd =>
      rw [nextDirCommand_of_atEnd (nextDirLoop_of_attempt rfl (by simp [ha])) ha, nextBlockCommand_of_atEnd rfl ha]
      rfl
    | failed c d =>
      rw [nextDirCommand_of_failed (nextDirLoop_of_attempt rfl (by simp [ha])) ha, nextBlockCommand_of_failed rfl ha]
      rfl
  · have hvalid := attempt_of_nextBlock_ok hok
    rw [nextBlockCommand_of_valid rfl hvalid] at htype hlen ⊢
    refine ⟨(blockAttempt_spec s s.stream).valid.mp hvalid, ?_⟩
    rw [nextDirCommand_of_short (nextDirLoop_of_attempt rfl fun _ => htype) hvalid hlen]
    rfl

end Sys2Proof.Proofs
end

section
/-! PROOFS. The EOF flag (43_framing.md R106, R110): what each command does with it, said once. -/

namespace Sys2Proof.Machine
open Sys2Proof.Claims

/-- What a command does with EOF: it keeps the flag, sets it with END, sets it by the type of a valid block, or clears it. -/
inductive EofChange (i : Instr) (s t : State) : Prop
  | kept (h : t.handle.eof = s.handle.eof)
  | ended (hi : i = .nextblock ∨ i = .nextdir ∨ i = .seeksync) (herr : t.err = .atEnd) (h : t.handle.eof = true)
  | block (hi : i = .nextblock) (hok : t.err = .ok) (hvalid : t.handle.held.valid = true)
      (h : t.handle.eof = decide (t.handle.held.blkType = s.params.eofType))
  | cleared (hi : i = .openHandle ∨ i = .close ∨ i = .seek ∨ i = .nextdir ∧ t.err = .ok) (h : t.handle.eof = false)

theorem EofChange.withHandle {i : Instr} {s : State} {run : State → State} (h : EofChange i s (run s)) :
    EofChange i s (withHandle s run) := by
  obtain hw | hw := withHandle_cases s run <;> rw [hw]
  · exact h
  · exact .kept rfl

theorem openKind_eof (k : Kind) (s : State) : (openKind k s).handle.eof = false := by
  cases k with
  | none => rfl
  | cas => rfl
  | wav =>
    rw [openKind]
    split <;> rfl

theorem beginOpen_eof (s : State) : (beginOpen s).handle.eof = s.handle.eof ∨ (beginOpen s).handle.eof = false := by
  rw [beginOpen]
  cases s.isOpen with
  | true => exact .inr rfl
  | false => exact .inl rfl

theorem openImage_eofChange (s : State) : EofChange .openHandle s (openImage (beginOpen s)) := by
  rw [openImage]
  split
  · obtain h | h := beginOpen_eof s
    · exact .kept h
    · exact .cleared (.inl rfl) h
  · exact .cleared (.inl rfl) (openKind_eof _ _)

theorem seekSyncCommand_eofChange (s : State) : EofChange .seeksync s (seekSyncCommand s) := by
  rcases h : seekSync s s.stream with ⟨a, k, u⟩
  cases a with
  | found => rw [seekSyncCommand_of_found h]; exact .kept rfl
  | atEnd => rw [seekSyncCommand_of_atEnd h]; exact .ended (.inr (.inr rfl)) rfl rfl
  | bound => rw [seekSyncCommand_of_bound h]; exact .kept rfl

theorem nextBlockCommand_eofChange (s : State) : EofChange .nextblock s (nextBlockCommand s) := by
  cases h : (blockAttempt s s.stream).outcome with
  | failed c d => rw [nextBlockCommand_of_failed rfl h]; exact .kept rfl
  | atEnd => rw [nextBlockCommand_of_atEnd rfl h]; exact .ended (.inl rfl) rfl rfl
  | valid =>
    rw [nextBlockCommand_of_valid rfl h]
    exact .block rfl rfl ((blockAttempt_spec s s.stream).valid.mp h) rfl

theorem nextDirCommand_eofChange (s : State) : EofChange .nextdir s (nextDirCommand s) := by
  rcases hloop : nextDirLoop s (bitsLeft s s.stream) s.stream with ⟨a, cand⟩
  cases h : a.outcome with
  | failed c d => rw [nextDirCommand_of_failed hloop h]; exact .kept rfl
  | atEnd => rw [nextDirCommand_of_atEnd hloop h]; exact .ended (.inr (.inl rfl)) rfl rfl
  | valid =>
    obtain hlen | hlen := Nat.lt_or_ge a.held.blkLen.toNat 15
    · rw [nextDirCommand_of_short hloop h hlen]; exact .kept rfl
    · rw [nextDirCommand_of_entry hloop h hlen]; exact .cleared (.inr (.inr (.inr ⟨rfl, rfl⟩))) rfl

theorem exec_eofChange {i : Instr} {s t : State} (h : exec i s = .next t) : EofChange i s t := by
  cases i with
  | nop => cases h; exact .kept rfl
  | openHandle => cases h; exact openImage_eofChange s
  | close => cases h; exact .withHandle (.cleared (.inr (.inl rfl)) rfl)
  | getbits n => exact .kept (by rw [exec_getbits_handle h])
  | seek => cases h; exact .withHandle (.cleared (.inr (.inr (.inl rfl))) rfl)
  | readbyte => exact .kept (by rw [exec_readbyte_handle h])
  | seeksync => cases h; exact .withHandle (seekSyncCommand_eofChange s)
  | nextblock => cases h; exact .withHandle (nextBlockCommand_eofChange s)
  | nextdir => cases h; exact .withHandle (nextDirCommand_eofChange s)

end Sys2Proof.Machine

namespace Sys2Proof.Proofs
open Sys2Proof Sys2Proof.Machine Sys2Proof.Claims

/-- Settles O53: of the four ways with EOF, two can raise it and two can let it fall. -/
theorem eofChangesOnlyAsListed : Obligations.EofChangesOnlyAsListed := by
  intro i s t h
  refine ⟨fun hbefore hafter => ?_, fun hbefore hafter => ?_⟩
  · cases exec_eofChange h with
    | kept heof => simp [heof, hbefore] at hafter
    | ended hi herr _ => exact .inr ⟨hi, herr⟩
    | block hi hok hvalid heof => exact .inl ⟨hi, hok, hvalid, of_decide_eq_true (heof ▸ hafter)⟩
    | cleared _ heof => simp [heof] at hafter
  · cases exec_eofChange h with
    | kept heof => simp [heof, hbefore] at hafter
    | ended _ _ heof => simp [heof] at hafter
    | block hi hok _ heof => exact .inr (.inr (.inr (.inl ⟨hi, hok, of_decide_eq_false (heof ▸ hafter)⟩)))
    | cleared hi _ =>
      obtain hi | hi | hi | hi := hi
      · exact .inl hi
      · exact .inr (.inl hi)
      · exact .inr (.inr (.inl hi))
      · exact .inr (.inr (.inr (.inr hi)))

end Sys2Proof.Proofs
end

section
/-! PROOFS. The dispatch checks and the error report (60_exceptions.md R116, R117): the decoder's three checks as they end a word, the
handle check as it ends a row of the table, and what the report writes. -/

namespace Sys2Proof.Machine
open Sys2Proof.Claims

theorem rowOf_eq_nop_iff (op n : Nat) : rowOf op n = .nop ↔ op = 0 := by
  unfold rowOf
  split <;> simp_all

theorem rowOf_eq_openHandle_iff (op n : Nat) : rowOf op n = .openHandle ↔ op = 1 := by
  unfold rowOf
  split <;> simp_all

/-- The handle check is the last one: it ends a well-formed row of the table other than NOP and OPEN. -/
theorem exec_rowOf_closed {s : State} (h : s.isOpen = false) {op n : Nat} (h0 : op ≠ 0) (h1 : op ≠ 1)
    (hwf : (rowOf op n).wellFormed = true) : exec (rowOf op n) s = .next (fail .eMode 1#4 s) := by
  rw [exec_closed h _ (by rwa [ne_eq, rowOf_eq_nop_iff]) (by rwa [ne_eq, rowOf_eq_openHandle_iff]), if_pos hwf]

end Sys2Proof.Machine

namespace Sys2Proof.Proofs
open Sys2Proof Sys2Proof.Machine Sys2Proof.Claims

/-- Settles O5: the first three checks are the decoder's, the fourth is the command's own. -/
theorem dispatchChecksInOrder : Obligations.DispatchChecksInOrder := by
  intro w s
  rw [runWord, decode_eq]
  split_ifs with hopcode hbits hcount hhandle
  · rfl
  · rfl
  · rfl
  · obtain ⟨h0, h1, hclosed⟩ := hhandle
    exact exec_rowOf_closed hclosed h0 h1 ((wellFormed_rowOf _ (nNat_lt w)).mpr hcount)
  · rfl

/-- Settles O6: the sticky word gains the bit of the code, which only an error has. -/
theorem errorsWriteStatusAndStickyBit : Obligations.ErrorsWriteStatusAndStickyBit := by
  intro c d s
  refine ⟨rfl, fun k hk => ?_, rfl⟩
  rw [fail_errSticky, BitVec.getLsbD_or, stickyMask_getLsbD c hk]

end Sys2Proof.Proofs
end

section
/-! PROOFS. The block's turn, reset, and the host's writes of a busy block and under an open handle (70_reset_and_hazards.md R126, R127,
R131 to R133, R136). -/

namespace Sys2Proof.Machine
open Sys2Proof.Claims

/-! ## The block's turn -/

/-- With no turn on the agenda the block moves. -/
theorem step_nil {s : State} (h : s.agenda = []) : step s = blockTurn s := by
  rw [step, nextTurn, h]

theorem blockTurn_latched {s : State} {w : Word} (h : s.latch = some w) : blockTurn s = runWord w s := by
  rw [blockTurn, h]

theorem blockTurn_idle {s : State} (h : s.busy = false) : blockTurn s = .next s := by
  have hlatch : s.latch = none := by rwa [State.busy, Option.isSome_eq_false_iff, Option.isNone_iff_eq_none] at h
  rw [blockTurn, hlatch]

theorem runWord_of_decode_ok {w : Word} {i : Instr} (h : decode w = .ok i) (s : State) : runWord w s = exec i s := by
  rw [runWord, h]

theorem runWord_of_decode_error {w : Word} {r : IllegalWord} (h : decode w = .error r) (s : State) :
    runWord w s = .next (fail .eIllegal r.detail s) := by
  rw [runWord, h]

/-! ## Writes while busy -/

/-- Each of the offsets is a word of the register space, with a register that the host can write. -/
theorem writableOffsets_spec : ∀ off ∈ writableOffsets, off % 4 = 0 ∧ off < 0x200 ∧ (regAt off).writable = true := by
  decide

theorem writeReg_busy {s : State} (h : s.busy = true) {r : Reg} (hr : r.writable = true) (v : Word) :
    writeReg r v s = { s with errSticky := s.errSticky ||| wrdropMask } := by
  rw [writeReg, h, hr]; rfl

/-- WRDROP is bit 31 of ERRSTICKY alone (10_state.md R37). -/
theorem wrdropMask_getLsbD (k : Nat) : wrdropMask.getLsbD k = decide (k = 31) := by
  rw [show wrdropMask = BitVec.twoPow 32 31 from rfl, BitVec.getLsbD_twoPow]
  simp [eq_comm]

/-! ## Reset -/

/-- What reset keeps, no register shows. -/
theorem regValue_platformReset (r : Reg) (s : State) : regValue r (platformReset s) = regValue r State.reset := by
  cases r <;> rfl

/-! ## Hazard bytes -/

theorem readImage_hazard {s : State} {a : Nat} (h : a ∈ s.hazard) (d : Nat) :
    readImage s d a = (Config.hazardByte s.mem.unit d, d + 1) := by
  rw [readImage, if_pos h]

/-- A CAS bit of a hazard byte is the cursor's bit of the next draw, and spends that draw. -/
theorem casNextBit_hazard {s : State} {t : Stream} (hend : t.pos < s.handle.act.imgLen) (hz : t.pos.toNat ∈ s.hazard) :
    ∃ u, casNextBit s t = .bit ((Config.hazardByte s.mem.unit t.draws).getLsbD
        (if cfgBitord s.handle.act.cfg then t.posBit.toNat else 7 - t.posBit.toNat)) u ∧ u.draws = t.draws + 1 := by
  rw [casNextBit, if_neg (BitVec.not_le.mpr hend), readImage_hazard hz]
  by_cases h7 : t.posBit = 7#3
  · exact ⟨_, if_pos h7, rfl⟩
  · exact ⟨_, if_neg h7, rfl⟩

theorem ofNat_toNat_eq_setWidth_ofBool (b : Bool) : BitVec.ofNat 32 b.toNat = (BitVec.ofBool b).setWidth 32 := by
  cases b <;> rfl

end Sys2Proof.Machine

namespace Sys2Proof.Proofs
open Sys2Proof Sys2Proof.Machine Sys2Proof.Claims

/-- Settles O4: by whether the latch holds a word, whose turn it is, and what the word decodes to. -/
theorem stepRunsTheLatchedCommand : Obligations.StepRunsTheLatchedCommand := by
  refine fun s => ⟨fun w hw => ⟨fun ha i hd => ?_, fun ha r hd => ?_, fun rest i ha hd => ?_, fun rest r ha hd => ?_⟩,
    fun hidle => ⟨fun ha => ?_, fun rest ha => ?_⟩⟩
  · rw [step_nil ha, blockTurn_latched hw, runWord_of_decode_ok hd]
  · rw [step_nil ha, blockTurn_latched hw, runWord_of_decode_error hd]
  · rw [step_blockTurn ha hw, runWord_of_decode_ok hd]
  · rw [step_blockTurn ha hw, runWord_of_decode_error hd]
  · rw [step_nil ha, blockTurn_idle hidle]
  · rw [step_cons ha]; exact blockTurn_idle hidle

/-- Settles O7: a command answers a next state, and every way it ends empties the latch. -/
theorem everyCommandEndsIdle : Obligations.EveryCommandEndsIdle := by
  intro i s
  obtain ⟨t, ht⟩ := exec_next i s
  exact ⟨t, ht, (exec_ends ht).latch⟩

/-- Settles O8: the register at 0x01C is CMD, whose store while idle is the latch. -/
theorem commandWriteLatches : Obligations.CommandWriteLatches := by
  intro s v rest ha hb
  have hidle : State.busy { s with agenda := rest } = false := hb
  refine ⟨{ s with agenda := rest, latch := some v }, ?_, rfl, rfl⟩
  rw [step_regWrite ha (by decide) (by decide), writeReg_idle hidle]
  rfl

/-- Settles O9: the write reaches a writable register, and is dropped there. -/
theorem busyWriteIsDropped : Obligations.BusyWriteIsDropped := by
  intro s off v rest ha hoff hb
  have hbusy : State.busy { s with agenda := rest } = true := hb
  obtain ⟨halign, hin, hwritable⟩ := writableOffsets_spec off hoff
  refine ⟨{ s with agenda := rest, errSticky := s.errSticky ||| wrdropMask }, ?_, rfl, fun k _ => ?_⟩
  · rw [step_regWrite ha halign hin, writeReg_busy hbusy hwritable]
  · rw [BitVec.getLsbD_or, wrdropMask_getLsbD]

/-- Settles O18: the turn is `platformReset`, whatever the latch holds. -/
theorem resetAbandonsTheCommand : Obligations.ResetAbandonsTheCommand := by
  intro s rest ha
  refine ⟨platformReset { s with agenda := rest }, ?_, fun r => regValue_platformReset r _, rfl, rfl, fun _ => rfl, rfl, rfl⟩
  rw [step_cons ha, turn]

/-- Settles O29: the one bit that GETBITS 1 reads is a bit of the next draw. -/
theorem hazardByteReadsAsADraw : Obligations.HazardByteReadsAsADraw := by
  intro s hk hend hz
  obtain ⟨u, hbit, hdraws⟩ := casNextBit_hazard hend hz
  refine ⟨_, exec_getbits_one (isOpen_of_kind hk (by decide)) ((nextBit_cas hk _).trans hbit), rfl, hdraws, ?_⟩
  exact ofNat_toNat_eq_setWidth_ofBool _

end Sys2Proof.Proofs
end
